-- ==== Sys2Proof/Word.lean ====
section
/-! DEFINITION. The widths of the block: a byte of DMA memory and a 32-bit register (rule R9 of 00_scope.md). -/

namespace Sys2Proof

/-- A byte, unsigned, 0 to 255 (R9). -/
abbrev Byte := BitVec 8

/-- A 32-bit register or command word (R9); bit 0 is the least significant. -/
abbrev Word := BitVec 32

end Sys2Proof
end

