-- ==== Sys2Proof/Syntax.lean ====
section
/-! DEFINITION. The commands (one constructor per row of spec/opcode_table.json, rule R114 of 30_encoding.md) and the steps
of the other agents (rules R119 and R248). -/

namespace Sys2Proof

/-- A decoded command. The flag arguments are the bits rule R114 permits for the row: F and L for the two piece commands,
S and E for TRL_CHK; no other command has an operand in its word (R118). -/
inductive Instr where
  | nop
  | magicPut
  | magicChk
  | chunkPut
  | chunkGet
  | ihdrPut
  | ihdrGet
  | descPut
  | hdrScan
  | dataGet
  | bandCfg
  | scanFrame
  | mergePiece (f l : Bool)
  | splitPiece (f l : Bool)
  | scanUnframe
  | cmbInit
  | cmbLoad
  | cmbFold
  | cmbPair
  | adlInit
  | adlFold
  | trlChk (s e : Bool)
  deriving DecidableEq, Repr

/-- Why a word is illegal (R115, R267): the detail codes of IllegalCommand. -/
inductive DecodeError where
  | badOpc
  | badFlags
  deriving DecidableEq, Repr

/-- The direction of a DMA byte access (R7, R83). -/
inductive Dir where
  | read
  | write
  deriving DecidableEq, Repr

/-- The agents other than the block that touch memory (R6): the host and the external codec agents. -/
inductive Agent where
  | host
  | codec
  deriving DecidableEq, Repr

/-- The width of a host access on the platform's bus; only `w32` is an access the register window knows (R85). -/
inductive Width where
  | w8
  | w16
  | w32
  | w64
  deriving DecidableEq, Repr

/-- One step of the environment, or the moment the block completes (R248). A host program is a list of these (R119):
RD and WR are `regRead` and `regWrite`, ISSUE is a `regWrite` to CMD, MEMR and MEMW are `memRead` and `memWrite`, WAIT is
`wait`. `complete` is the completion step taken between two host steps, `resetInput` the platform's reset (R300), and `jobEnds` the
host's join of an external job, which succeeded or failed (R323, R251, U11; DESIGN CHOICE, log 23). -/
inductive Event where
  | regRead (addr : Nat) (width : Width)
  | regWrite (addr : Nat) (width : Width) (value : Word)
  | memRead (agent : Agent) (addr count : Nat)
  | memWrite (agent : Agent) (addr : Nat) (bytes : List Byte)
  | wait
  | complete
  | resetInput
  | jobEnds (ok : Bool)
  deriving DecidableEq, Repr

end Sys2Proof
end

