-- ==== Sys2Proof/Config.lean ====
section
/-! DEFINITION. The parameters of the block (rule R7 of 00_scope.md): the fixed ones as constants, the open ones as a record
of plain data, and the free values of 93_implementation_defined.md as constants with no body. -/

namespace Sys2Proof

/-- `len` consecutive byte addresses from `base`: a buffer, or a hole of the platform's memory map. -/
structure Range where
  base : Nat
  len : Nat
  deriving DecidableEq, Repr

/-- The address `a` lies in the range. -/
def Range.has (r : Range) (a : Nat) : Bool := decide (r.base ≤ a) && decide (a < r.base + r.len)

/-- Two ranges share a byte. An empty range shares none. -/
def Range.meets (r q : Range) : Bool :=
  decide (0 < r.len) && decide (0 < q.len) && decide (r.base < q.base + q.len) && decide (q.base < r.base + r.len)

/-- The range of no byte. -/
def Range.empty : Range := ⟨0, 0⟩

/-- Addresses at which the platform completes no DMA access in direction `dir`. -/
structure Hole where
  dir : Dir
  range : Range
  deriving DecidableEq, Repr

/-- The OPEN parameters of R7: `TAG_DESC` (D35), `REG_BASE` (D2), and `MemOK` (D6) as the list of what it refuses.
Every predicate on the 2^32 addresses is such a list, so nothing is lost; a run never changes them (log 1). -/
structure Params where
  tagDesc : Word
  regBase : Nat
  holes : List Hole
  deriving DecidableEq, Repr

/-- `BASE` (R7). -/
def adlerBase : Nat := 65521

/-- `MAGIC` (R7): the file signature. -/
def magicBytes : List Byte := [0x89, 0x50, 0x4E, 0x47, 0x0D, 0x0A, 0x1A, 0x0A]

/-- `TAG_HDR`, ASCII IHDR (R7). -/
def tagHdr : Word := 0x49484452

/-- `TAG_DATA`, ASCII IDAT (R7). -/
def tagData : Word := 0x49444154

/-- `TAG_END`, ASCII IEND (R7). -/
def tagEnd : Word := 0x49454E44

/-- FREE VALUE (U1, U2, U3; log 3): the byte at address `addr` that draw number `draw` leaves unspecified. -/
opaque Config.freeByte (draw addr : Nat) : Byte

/-- FREE VALUE (U14, R302; log 2): what the platform's memory holds at `addr` before anything is written there. -/
opaque Config.powerOnByte (addr : Nat) : Byte

end Sys2Proof
end

