-- ==== Sys2Proof/WellFormed.lean ====
section
/-! DEFINITION. What a well-formed command word and a well-formed configuration are. A term of `Instr` has no ill-formed
form: its constructors take only the flags rule R114 permits. -/

namespace Sys2Proof

/-- One row of the opcode map of R114: the word with every permitted flag 0, and the mask of the bits that must equal it. -/
structure OpRow where
  word : Word
  mask : Word
  deriving DecidableEq, Repr

/-- The opcode map of R114, columns "word" and "mask", control and chunk framer rows. -/
def opRowsChunk : List OpRow :=
  [⟨0x00000000, 0xFFFFFFFF⟩, ⟨0x00000010, 0xFFFFFFFF⟩, ⟨0x00000011, 0xFFFFFFFF⟩, ⟨0x00000012, 0xFFFFFFFF⟩,
   ⟨0x00000013, 0xFFFFFFFF⟩, ⟨0x00000014, 0xFFFFFFFF⟩, ⟨0x00000015, 0xFFFFFFFF⟩, ⟨0x00000016, 0xFFFFFFFF⟩,
   ⟨0x00000017, 0xFFFFFFFF⟩, ⟨0x00000018, 0xFFFFFFFF⟩]

/-- The opcode map of R114, splitter/merger and checksum rows. -/
def opRowsPiece : List OpRow :=
  [⟨0x00000020, 0xFFFFFFFF⟩, ⟨0x00000021, 0xFFFFFFFF⟩, ⟨0x00000022, 0xFFFFFCFF⟩, ⟨0x00000023, 0xFFFFFCFF⟩,
   ⟨0x00000024, 0xFFFFFFFF⟩, ⟨0x00000030, 0xFFFFFFFF⟩, ⟨0x00000031, 0xFFFFFFFF⟩, ⟨0x00000032, 0xFFFFFFFF⟩,
   ⟨0x00000033, 0xFFFFFFFF⟩, ⟨0x00000034, 0xFFFFFFFF⟩, ⟨0x00000035, 0xFFFFFFFF⟩, ⟨0x00000036, 0xFFFFF3FF⟩]

/-- The whole opcode map of R114. -/
def opRows : List OpRow := opRowsChunk ++ opRowsPiece

/-- `w AND mask = word` (R115). -/
def OpRow.selects (r : OpRow) (w : Word) : Bool := w &&& r.mask == r.word

/-- A word that some row of R114 selects: every other word is illegal (R116). -/
def legalWord (w : Word) : Bool := opRows.any (fun r => r.selects w)

/-- The four tags are pairwise distinct (R7, U9); a configuration in which they are not is refused. -/
def Params.wellFormed (p : Params) : Bool :=
  p.tagDesc != tagHdr && p.tagDesc != tagData && p.tagDesc != tagEnd

end Sys2Proof
end

