-- ==== Sys2Proof/Decode.lean ====
section
/-! DEFINITION. Decoding a 32-bit command word, and encoding (rules R110 to R116 and R121 of 30_encoding.md). -/

namespace Sys2Proof

/-- OPC = word[7:0] (R110). -/
def opcOf (w : Word) : Byte := w.extractLsb' 0 8

/-- The bits an opcode leaves free: OPC itself and the flags R114 permits (the set `allowed` of R115). -/
def freeBits (opc : Nat) : Word :=
  match opc with
  | 0x22 => 0x000003FF
  | 0x23 => 0x000003FF
  | 0x36 => 0x00000CFF
  | _ => 0x000000FF

/-- The command an allocated OPC selects (R114), the flags taken from bits 8 to 11 of the word (R112). -/
def instrOf (opc : Nat) (w : Word) : Option Instr :=
  match opc with
  | 0x00 => some .nop
  | 0x10 => some .magicPut
  | 0x11 => some .magicChk
  | 0x12 => some .chunkPut
  | 0x13 => some .chunkGet
  | 0x14 => some .ihdrPut
  | 0x15 => some .ihdrGet
  | 0x16 => some .descPut
  | 0x17 => some .hdrScan
  | 0x18 => some .dataGet
  | 0x20 => some .bandCfg
  | 0x21 => some .scanFrame
  | 0x22 => some (.mergePiece (w.getLsbD 8) (w.getLsbD 9))
  | 0x23 => some (.splitPiece (w.getLsbD 8) (w.getLsbD 9))
  | 0x24 => some .scanUnframe
  | 0x30 => some .cmbInit
  | 0x31 => some .cmbLoad
  | 0x32 => some .cmbFold
  | 0x33 => some .cmbPair
  | 0x34 => some .adlInit
  | 0x35 => some .adlFold
  | 0x36 => some (.trlChk (w.getLsbD 10) (w.getLsbD 11))
  | _ => none

/-- `decode` of R115: BAD_OPC first, then BAD_FLAGS, then the command. Total on every 32-bit word (R121). -/
def decode (w : Word) : Except DecodeError Instr :=
  match instrOf (opcOf w).toNat w with
  | none => .error .badOpc
  | some i => if w &&& ~~~(freeBits (opcOf w).toNat) = 0 then .ok i else .error .badFlags

/-- A flag bit at position `k` of the word (R110). -/
def flagBit (b : Bool) (k : Nat) : Word := if b then 1 <<< k else 0

/-- The word of a command (R114, R119): OPC, and the bits of the flags that are set. -/
def encode (i : Instr) : Word :=
  match i with
  | .nop => 0x00
  | .magicPut => 0x10
  | .magicChk => 0x11
  | .chunkPut => 0x12
  | .chunkGet => 0x13
  | .ihdrPut => 0x14
  | .ihdrGet => 0x15
  | .descPut => 0x16
  | .hdrScan => 0x17
  | .dataGet => 0x18
  | .bandCfg => 0x20
  | .scanFrame => 0x21
  | .mergePiece f l => 0x22 ||| flagBit f 8 ||| flagBit l 9
  | .splitPiece f l => 0x23 ||| flagBit f 8 ||| flagBit l 9
  | .scanUnframe => 0x24
  | .cmbInit => 0x30
  | .cmbLoad => 0x31
  | .cmbFold => 0x32
  | .cmbPair => 0x33
  | .adlInit => 0x34
  | .adlFold => 0x35
  | .trlChk s e => 0x36 ||| flagBit s 10 ||| flagBit e 11

/-- The host's probe: the command the decoder reads from a word of `nbits` bits. A command is one 32-bit register write
(R110), so the bits above `nbits` are 0 and there is no byte order to choose. -/
def decodeTableWord (nbits w : Nat) : Option Instr :=
  match decode (BitVec.ofNat 32 (w % 2 ^ nbits)) with
  | .ok i => some i
  | .error _ => none

end Sys2Proof
end

