-- ==== Sys2Proof/Machine/State.lean ====
section
/-! DEFINITION. The state of the block (rule R64 of 10_state.md), its value after reset (R301 of 70_reset_and_hazards.md), and
the reasons a step can stop. -/

namespace Sys2Proof.Machine

/-- STATUS.KIND (R33, R135): the class of the last chunk read. -/
inductive Kind where
  | other
  | descriptor
  | data
  | terminator
  deriving DecidableEq, Repr

/-- The stored registers of R64. The fields of CTRL and STATUS stand one by one (R32, R33); their reserved bits read 0 and
ignore writes (R60), so nothing of them is stored. -/
structure Regs where
  irqDoneEn : Bool   -- CTRL[0]
  irqErrEn : Bool    -- CTRL[1]
  descOpt : Bool     -- CTRL[2]
  busy : Bool        -- STATUS[0]
  done : Bool        -- STATUS[1]
  err : Bool         -- STATUS[2]
  accValid : Bool    -- STATUS[3]
  descSeen : Bool    -- STATUS[4]
  kind : Kind        -- STATUS[6:5]
  trlMatch : Bool    -- STATUS[7]
  cmdovr : Bool      -- STATUS[8]
  ncanon : Bool      -- STATUS[9]
  cmd : Word         -- 0x10, R34
  errinfo : Word     -- 0x14, R35
  erraddr : Word     -- 0x18, R36
  errdata : Word     -- 0x1C, R37
  src : Word         -- 0x20, R38
  srcEnd : Word      -- 0x24, R39
  dst : Word         -- 0x28, R40
  len : Word         -- 0x2C, R41
  tag : Word         -- 0x30, R42
  body : Word        -- 0x34, R43
  blen : Word        -- 0x38, R44
  crc : Word         -- 0x3C, R45
  width : Word       -- 0x40, R46
  height : Word      -- 0x44, R47
  npieces : Word     -- 0x48, R48
  pieceH : Word      -- 0x4C, R49
  opa : Word         -- 0x50, R51
  opb : Word         -- 0x54, R52
  oplen : Word       -- 0x58, R53
  acc : Word         -- 0x5C, R54
  res : Word         -- 0x60, R55
  adl : Word         -- 0x64, R56
  adlLen : Word      -- 0x68, R57
  trailer : Word     -- 0x6C, R58
  skipcnt : Word     -- 0x70, R59
  deriving DecidableEq, Repr

/-- The in-flight command (R61, R243): the accepted word and the snapshot of the registers its operands are read from. -/
structure Latch where
  word : Word
  regs : Regs
  deriving DecidableEq, Repr

/-- The bytes of the DMA space (R80) that something has written, addresses strictly rising. -/
abbrev Memory := List Host.Cell

/-- What the host last got back (log 12): the answer of a read, or whether an external job succeeded (R323, log 23). The model's
own, so that a read has an answer to state. -/
inductive Reply where
  | nothing
  | word (v : Word)
  | bytes (bs : List Byte)
  | job (ok : Bool)
  deriving DecidableEq, Repr

/-- The state: the block's registers and latch (R64), the DMA space (R248), and the model's own fields: the parameters of R7
(log 1), the steps to come (log 8), the number of free draws made (log 3), what the host last got back (log 12). -/
structure State where
  regs : Regs
  latch : Option Latch
  mem : Memory
  cfg : Params
  sched : List Event
  draws : Nat
  reply : Reply
  deriving DecidableEq, Repr

/-- Why a step stops the machine. -/
inductive Fault where
  /-- R100, U4: an agent other than the block touched a buffer of the command in flight. Raised by the `memRead` and
  `memWrite` steps. Safe: the spec gives such a run no result. -/
  | hostRace
  /-- R80: a host or codec access to an address outside 0 to 2^32-1. Raised by the `memRead` and `memWrite` steps.
  Safe: the machine stops where the platform might go on (log 13). -/
  | noSuchAddress
  deriving DecidableEq, Repr

/-- Why a step is given no meaning. -/
inductive Refusal where
  /-- An instruction with no meaning yet. No arm raises it. Safe. -/
  | notModelled (mnemonic : String)
  /-- R7, U9: the four tags are not pairwise distinct, so the configuration is refused as a whole. Raised by every step
  under such parameters. Safe: the spec refuses it. -/
  | tagsNotDistinct
  deriving DecidableEq, Repr

/-- Every register at the value of R30's "reset" column (R301). -/
def Regs.reset : Regs where
  irqDoneEn := false
  irqErrEn := false
  descOpt := false
  busy := false
  done := false
  err := false
  accValid := false
  descSeen := false
  kind := .other
  trlMatch := false
  cmdovr := false
  ncanon := false
  cmd := 0
  errinfo := 0
  erraddr := 0
  errdata := 0
  src := 0
  srcEnd := 0
  dst := 0
  len := 0
  tag := 0
  body := 0
  blen := 0
  crc := 0
  width := 0
  height := 0
  npieces := 0
  pieceH := 0
  opa := 0
  opb := 0
  oplen := 0
  acc := 0
  res := 0
  adl := 1
  adlLen := 0
  trailer := 0
  skipcnt := 0

/-- DESIGN CHOICE (log 1): the parameters at reset. TAG_DESC is the one of the test vectors (K3), the window is at 0, MemOK
refuses nothing. No statement rests on them: a statement about a state holds for every value of `cfg`. -/
def Params.atReset : Params := ⟨0x704C4C44, 0, []⟩

/-- The machine right after reset (R301, R303): the registers at their reset values, the latch empty, nothing written in
memory (U14, log 2), no step to come. -/
def State.reset : State where
  regs := Regs.reset
  latch := none
  mem := []
  cfg := Params.atReset
  sched := []
  draws := 0
  reply := .nothing

end Sys2Proof.Machine
end

