-- ==== Sys2Proof/Machine/Errors.lean ====
section
/-! DEFINITION. The error classes and detail codes (rules R260 to R269 of 60_exceptions.md). -/

namespace Sys2Proof.Machine

/-- FramingError details (R261). -/
inductive FramingDetail where
  | magic
  | crc
  | trunc
  | short
  | stride
  | hdrlen
  | endlen
  | trailer
  deriving DecidableEq, Repr

/-- UnsupportedProfile details (R263). -/
inductive ProfileDetail where
  | bitDepth
  | color
  | compression
  | filter
  | interlace
  | zeroDim
  deriving DecidableEq, Repr

/-- UnsupportedDescriptor details (R264). -/
inductive DescriptorDetail where
  | missing
  | flag
  | nondiv
  | zero
  | desclen
  deriving DecidableEq, Repr

/-- UnexpectedChunkType details (R266). -/
inductive ChunkTypeDetail where
  | notIhdr
  | scanBad
  | dataBad
  deriving DecidableEq, Repr

/-- RangeError details (R262). -/
inductive RangeDetail where
  | wrap
  | size
  deriving DecidableEq, Repr

/-- The error classes of R260, each with its details. SequenceError has the one detail ACC_INVALID (R268), UnsupportedFilter
none (R265), BusError the direction (R269), IllegalCommand the decode failure (R267). -/
inductive ErrKind where
  | framing (d : FramingDetail)
  | profile (d : ProfileDetail)
  | descriptor (d : DescriptorDetail)
  | filter
  | chunkType (d : ChunkTypeDetail)
  | illegal (d : DecodeError)
  | accInvalid
  | range (d : RangeDetail)
  | bus (d : Dir)
  deriving DecidableEq, Repr

/-- An error as a rule raises it: class and detail, and the values ERRADDR and ERRDATA record, 0 where omitted (R12). -/
structure Err where
  kind : ErrKind
  addr : Word := 0
  data : Word := 0
  deriving DecidableEq, Repr

/-- ERRINFO.CODE of an error (R260). -/
def errCode (k : ErrKind) : Byte :=
  match k with
  | .framing _ => 1
  | .profile _ => 2
  | .descriptor _ => 3
  | .filter => 4
  | .chunkType _ => 5
  | .illegal _ => 6
  | .accInvalid => 7
  | .range _ => 8
  | .bus _ => 9

/-- ERRINFO.DETAIL of an error (R261 to R269). -/
def errDetail (k : ErrKind) : Byte :=
  match k with
  | .framing .magic => 1
  | .framing .crc => 2
  | .framing .trunc => 3
  | .framing .short => 4
  | .framing .stride => 5
  | .framing .hdrlen => 6
  | .framing .endlen => 7
  | .framing .trailer => 8
  | .profile .bitDepth => 1
  | .profile .color => 2
  | .profile .compression => 3
  | .profile .filter => 4
  | .profile .interlace => 5
  | .profile .zeroDim => 6
  | .descriptor .missing => 1
  | .descriptor .flag => 2
  | .descriptor .nondiv => 3
  | .descriptor .zero => 4
  | .descriptor .desclen => 5
  | .filter => 0
  | .chunkType .notIhdr => 1
  | .chunkType .scanBad => 2
  | .chunkType .dataBad => 3
  | .illegal .badOpc => 1
  | .illegal .badFlags => 2
  | .accInvalid => 1
  | .range .wrap => 1
  | .range .size => 2
  | .bus .read => 1
  | .bus .write => 2

/-- ERRINFO (R35, R270): CODE in [7:0], DETAIL in [15:8], OPC = bits [7:0] of the failed word in [23:16], 0 in [31:24]. -/
def errInfo (k : ErrKind) (w : Word) : Word :=
  (0 : Byte) ++ w.extractLsb' 0 8 ++ errDetail k ++ errCode k

/-- FramingError (R261). -/
def framingErr (d : FramingDetail) (addr data : Word) : Err := ⟨.framing d, addr, data⟩

/-- RangeError(WRAP, a) (R262, R88). -/
def wrapErr (a : Word) : Err := ⟨.range .wrap, a, 0⟩

/-- RangeError(SIZE) (R262). -/
def sizeErr : Err := ⟨.range .size, 0, 0⟩

/-- BusError(dir, a) (R269). -/
def busErr (d : Dir) (a : Nat) : Err := ⟨.bus d, BitVec.ofNat 32 a, 0⟩

/-- UnsupportedProfile (R263). -/
def profileErr (d : ProfileDetail) (addr data : Word) : Err := ⟨.profile d, addr, data⟩

/-- UnsupportedDescriptor (R264). -/
def descriptorErr (d : DescriptorDetail) (addr data : Word) : Err := ⟨.descriptor d, addr, data⟩

/-- UnexpectedChunkType(d, p, t) (R266). -/
def chunkTypeErr (d : ChunkTypeDetail) (p : Nat) (t : Word) : Err := ⟨.chunkType d, BitVec.ofNat 32 p, t⟩

/-- UnsupportedFilter(0, a, f) (R265). -/
def filterErr (a : Nat) (f : Byte) : Err := ⟨.filter, BitVec.ofNat 32 a, f.zeroExtend 32⟩

/-- SequenceError(ACC_INVALID) (R268). -/
def accInvalidErr : Err := ⟨.accInvalid, 0, 0⟩

/-- IllegalCommand(d, 0, word) (R267). -/
def illegalErr (d : DecodeError) (w : Word) : Err := ⟨.illegal d, 0, w⟩

end Sys2Proof.Machine
end

