-- ==== Sys2Proof/Machine/Ops.lean ====
section
/-! DEFINITION. The named operations over memory and registers: the DMA space (rules R80 to R89 of 20_memory.md), what a
command reports, taking an error (R270 to R272 of 60_exceptions.md), completing (R246 of 43_control.md), issuing (R243),
and reset (R300 to R302 of 70_reset_and_hazards.md). -/

namespace Sys2Proof.Machine

/-! ### Memory -/

/-- The size of the DMA space (R80). -/
def dmaSize : Nat := 4294967296

/-- The byte written at `a`, if any was. -/
def Memory.lookup (m : Memory) (a : Nat) : Option Byte :=
  match m with
  | [] => none
  | c :: rest => if c.1 = a then some c.2 else Memory.lookup rest a

/-- The byte at `a`: the last one written, and before any a free value (U14, log 2). DESIGN CHOICE (log 19): reading has no
effect on memory; R87 leaves open whether the platform's memory is such. -/
def Memory.get (m : Memory) (a : Nat) : Byte := (Memory.lookup m a).getD (Config.powerOnByte a)

/-- Write one byte, keeping the addresses strictly rising. -/
def Memory.set (m : Memory) (a : Nat) (v : Byte) : Memory :=
  match m with
  | [] => [(a, v)]
  | c :: rest =>
    if a < c.1 then (a, v) :: c :: rest
    else if a = c.1 then (a, v) :: rest
    else c :: Memory.set rest a v

/-- The `n` bytes from `a`, in ascending order (R83). -/
def Memory.bytes (m : Memory) (a n : Nat) : List Byte :=
  match n with
  | 0 => []
  | k + 1 => Memory.get m a :: Memory.bytes m (a + 1) k

/-- Write a byte string from `a`, in ascending order (R83). -/
def Memory.store (m : Memory) (a : Nat) (bs : List Byte) : Memory :=
  match bs with
  | [] => m
  | b :: rest => Memory.store (Memory.set m a b) (a + 1) rest

/-- Every address is above `lo` and below the size of the DMA space, and they rise strictly. -/
def Memory.rising (lo : Nat) (m : Memory) : Bool :=
  match m with
  | [] => true
  | c :: rest => decide (lo ≤ c.1) && decide (c.1 < dmaSize) && Memory.rising (c.1 + 1) rest

/-- The canonical form: addresses strictly rising, all in the DMA space. An unlisted address has no written byte, so no
entry can equal what an unlisted address holds. -/
def Memory.wf (m : Memory) : Bool := Memory.rising 0 m

/-- The free bytes that draw `draw` puts at `n` addresses from `a` (log 3). -/
def freeBytes (draw a n : Nat) : List Byte :=
  match n with
  | 0 => []
  | k + 1 => Config.freeByte draw a :: freeBytes draw (a + 1) k

/-! ### The DMA port -/

/-- `MemOK(a, dir)` (R7, R83): no hole of that direction holds the address. -/
def memOK (p : Params) (d : Dir) (a : Nat) : Bool := p.holes.all (fun h => !(h.dir == d && h.range.has a))

/-- The first of the `n` addresses from `a` at which the platform refuses the access (R83). -/
def firstRefused (p : Params) (d : Dir) (a n : Nat) : Option Nat :=
  match n with
  | 0 => none
  | k + 1 => if memOK p d a then firstRefused p d (a + 1) k else some a

/-- What a command runs on: its operand registers `x`, the parameters and the memory (R246). -/
structure View where
  x : Regs
  cfg : Params
  mem : Memory

/-- `MemRead(a, n)` (R12, R83). -/
def memRead (v : View) (a n : Nat) : Except Err (List Byte) :=
  match firstRefused v.cfg .read a n with
  | some b => .error (busErr .read b)
  | none => .ok (Memory.bytes v.mem a n)

/-- A pointer advanced past `n` bytes: stored mod 2^32 (R10, R88). -/
def advance (p : Word) (n : Nat) : Word := BitVec.ofNat 32 (p.toNat + n)

/-- The buffer of `n` bytes at `a` would cross 2^32 (R88); a buffer of no byte passes. -/
def wraps (a : Word) (n : Nat) : Bool := decide (0 < n) && decide (dmaSize < a.toNat + n)

/-! ### What a command reports -/

/-- What a command without error commits: the bytes of its output range, and its register assignments (R246). -/
structure Commit where
  bytes : List Byte
  regs : Regs → Regs

/-- A command run to its end on a view. `input` is what it reads. `target` is its output range as its range checks give it
(R272, R302), of no byte for a command that writes none or fails a check before any access (log 6). `output` is that range if
the command reaches its first write, and the range of no byte if it does not (R272, log 4). -/
structure Report where
  input : List Range
  target : Range
  output : Range
  result : Except Err Commit

/-- An error before any memory access: nothing read, no byte changes (R272). -/
def Report.refuse (e : Err) : Report := ⟨[], Range.empty, Range.empty, .error e⟩

/-- A command that writes no memory. -/
def Report.reads (input : List Range) (result : Except Err (Regs → Regs)) : Report :=
  match result with
  | .error e => ⟨input, Range.empty, Range.empty, .error e⟩
  | .ok f => ⟨input, Range.empty, Range.empty, .ok ⟨[], f⟩⟩

/-- A command with the output range `target` that ends in an error before its first write (R272, log 4). -/
def Report.stops (input : List Range) (target : Range) (e : Err) : Report := ⟨input, target, Range.empty, .error e⟩

/-- A command that only assigns registers. -/
def Report.assign (f : Regs → Regs) : Report := ⟨[], Range.empty, Range.empty, .ok ⟨[], f⟩⟩

/-- `MemWrite(a, n, bytes)` as the last access of a command, after its reads (R83, R133). -/
def Report.writes (p : Params) (input : List Range) (a : Nat) (bytes : List Byte) (f : Regs → Regs) : Report :=
  match firstRefused p .write a bytes.length with
  | some b => ⟨input, ⟨a, bytes.length⟩, ⟨a, bytes.length⟩, .error (busErr .write b)⟩
  | none => ⟨input, ⟨a, bytes.length⟩, ⟨a, bytes.length⟩, .ok ⟨bytes, f⟩⟩

/-- The output range shares a byte with an input range (R89). -/
def Report.overlaps (r : Report) : Bool := r.input.any (fun i => i.meets r.output)

/-! ### The state's shared transitions -/

/-- The operands `x` (R12, R61): the snapshot, or with no command in flight the registers themselves (log 10). -/
def State.operands (s : State) : Regs :=
  match s.latch with
  | some l => l.regs
  | none => s.regs

/-- The command word in flight (R246), or with none the last accepted one (log 10). -/
def State.word (s : State) : Word :=
  match s.latch with
  | some l => l.word
  | none => s.regs.cmd

/-- What the command in flight runs on (R246). -/
def State.view (s : State) : View := ⟨s.operands, s.cfg, s.mem⟩

/-- Give every byte of a range a free value (U1, U2, U3): one draw for the whole range. -/
def State.spoil (s : State) (r : Range) : State :=
  if r.len = 0 then s
  else { s with mem := Memory.store s.mem r.base (freeBytes s.draws r.base r.len), draws := s.draws + 1 }

/-- TAKING AN ERROR (R270 to R272): ERRINFO, ERRADDR and ERRDATA record it, ERR is set, BUSY and the latch are cleared, no
other register changes, and the bytes of `output` are unspecified. -/
def State.takeError (s : State) (e : Err) (output : Range) : State :=
  { s.spoil output with
    regs := { s.regs with
      errinfo := errInfo e.kind s.word, erraddr := e.addr, errdata := e.data, err := true, busy := false }
    latch := none }

/-- The completion without error (R246): the assignments on the registers as they now stand, DONE set, BUSY cleared. -/
def Regs.complete (r : Regs) (f : Regs → Regs) : Regs := { f r with done := true, busy := false }

/-- COMPLETION (R246): commit what the command reports, or take its error. Where input and output overlap, the output is
unspecified and the registers are as reported (R89, U3). -/
def State.conclude (s : State) (r : Report) : State :=
  match r.result with
  | .error e => s.takeError e r.output
  | .ok c =>
    if r.overlaps then { s.spoil r.output with regs := s.regs.complete c.regs, latch := none }
    else { s with mem := Memory.store s.mem r.output.base c.bytes, regs := s.regs.complete c.regs, latch := none }

/-- ISSUE (R243): CMD takes the word, DONE is cleared, BUSY set, the latch takes the word and the registers as they stood
(log 9). -/
def State.accept (s : State) (w : Word) : State :=
  { s with regs := { s.regs with cmd := w, done := false, busy := true }, latch := some ⟨w, s.regs⟩ }

/-- CLEARING AN ERROR and the other W1C fields of STATUS (R33, R242, R273): each field whose bit in `v` is 1 becomes 0. -/
def Regs.clearStatus (r : Regs) (v : Word) : Regs :=
  { r with
    done := r.done && !v.getLsbD 1
    err := r.err && !v.getLsbD 2
    cmdovr := r.cmdovr && !v.getLsbD 8
    ncanon := r.ncanon && !v.getLsbD 9 }

/-- RESET (R300 to R302): every register at its reset value, the latch empty, the output range of the aborted command
unspecified, the rest of memory kept. -/
def State.resetBlock (s : State) (aborted : Range) : State :=
  { s.spoil aborted with regs := Regs.reset, latch := none }

end Sys2Proof.Machine
end

