-- ==== Sys2Proof/Machine/Operands.lean ====
section
/-! DEFINITION. The operand forms: byte strings (rule R11 of 00_scope.md), CRC-32, the chunk and its reading and writing
(R130 to R135 of 40_chunk.md), Adler-32 and its combination (R210 to R213 of 42_checksum.md). -/

namespace Sys2Proof.Machine

/-! ### Byte strings -/

/-- `BE32(v)` (R11). -/
def be32 (v : Word) : List Byte :=
  [v.extractLsb' 24 8, v.extractLsb' 16 8, v.extractLsb' 8 8, v.extractLsb' 0 8]

/-- Byte `i` of a byte string; 0 past its end, which no rule reads. -/
def byteAt (bs : List Byte) (i : Nat) : Byte := bs.getD i 0

/-- `U32BE(s[i..i+4))` (R11). -/
def u32be (bs : List Byte) (i : Nat) : Word := byteAt bs i ++ byteAt bs (i + 1) ++ byteAt bs (i + 2) ++ byteAt bs (i + 3)

/-! ### CRC-32 (R130) -/

/-- One round of the inner loop of R130. -/
def crcBit (c : Word) : Word := if c.getLsbD 0 then (c >>> 1) ^^^ 0xEDB88320 else c >>> 1

/-- One byte of R130: eight rounds after the byte is mixed in. -/
def crcByte (c : Word) (b : Byte) : Word :=
  crcBit (crcBit (crcBit (crcBit (crcBit (crcBit (crcBit (crcBit (c ^^^ b.zeroExtend 32))))))))

/-- The loop of R130 from the value `c`. -/
def crcFold (c : Word) (bs : List Byte) : Word :=
  match bs with
  | [] => c
  | b :: rest => crcFold (crcByte c b) rest

/-- `CRC32(s)` (R130). -/
def crc32 (bs : List Byte) : Word := crcFold 0xFFFFFFFF bs ^^^ 0xFFFFFFFF

/-! ### Chunks -/

/-- The CRC of `ChunkBytes(t, b)` (R133). -/
def chunkCrc (t : Word) (b : List Byte) : Word := crc32 (be32 t ++ b)

/-- The bytes of `ChunkBytes(t, b)` (R132, R133). -/
def chunkBytes (t : Word) (b : List Byte) : List Byte :=
  be32 (BitVec.ofNat 32 b.length) ++ be32 t ++ b ++ be32 (chunkCrc t b)

/-- A chunk read from a stream: the answer of `ChunkRead` (R134). -/
structure Chunk where
  len : Nat
  tag : Word
  bodyAt : Nat
  crc : Word
  next : Nat
  body : List Byte
  deriving DecidableEq, Repr

/-- `ChunkRead(p, end)` (R134). -/
def chunkRead (v : View) (p stop : Nat) : Except Err Chunk :=
  if stop < p + 8 then .error (framingErr .trunc (BitVec.ofNat 32 p) 0)
  else
    match memRead v p 8 with
    | .error e => .error e
    | .ok h =>
      let n := (u32be h 0).toNat
      if stop < p + 12 + n then .error (framingErr .trunc (BitVec.ofNat 32 p) 0)
      else
        match memRead v (p + 8) (n + 4) with
        | .error e => .error e
        | .ok r =>
          let c := crc32 (h.drop 4 ++ r.take n)
          if c ≠ u32be r n then .error (framingErr .crc (BitVec.ofNat 32 p) c)
          else .ok ⟨n, u32be h 4, p + 8, c, p + 12 + n, r.take n⟩

/-- The bytes `ChunkRead(p, end)` reads (R134), for R100. -/
def chunkReads (v : View) (p stop : Nat) : List Range :=
  if stop < p + 8 then []
  else
    match memRead v p 8 with
    | .error _ => [⟨p, 8⟩]
    | .ok h => if stop < p + 12 + (u32be h 0).toNat then [⟨p, 8⟩] else [⟨p, 12 + (u32be h 0).toNat⟩]

/-- `Classify(t)` (R135). -/
def classify (p : Params) (t : Word) : Kind :=
  if t = p.tagDesc then .descriptor else if t = tagData then .data else if t = tagEnd then .terminator else .other

/-- The assignments every chunk-reading command makes: TAG, BLEN, BODY, CRC (R139, R142, R145, R146). -/
def Regs.setChunk (r : Regs) (c : Chunk) : Regs :=
  { r with tag := c.tag, blen := BitVec.ofNat 32 c.len, body := BitVec.ofNat 32 c.bodyAt, crc := c.crc }

/-! ### Adler-32 -/

/-- The low half of a packed checksum (R210). -/
def loHalf (c : Word) : Nat := (c.extractLsb' 0 16).toNat

/-- The high half of a packed checksum (R210). -/
def hiHalf (c : Word) : Nat := (c.extractLsb' 16 16).toNat

/-- `lo | (hi << 16)` for halves below 2^16 (R210). -/
def packHalves (lo hi : Nat) : Word := BitVec.ofNat 16 hi ++ BitVec.ofNat 16 lo

/-- The loop of `AdlerUpdate` on the two halves (R211). -/
def adlerFold (lo hi : Nat) (bs : List Byte) : Nat × Nat :=
  match bs with
  | [] => (lo, hi)
  | b :: rest => adlerFold ((lo + b.toNat) % adlerBase) ((hi + (lo + b.toNat) % adlerBase) % adlerBase) rest

/-- `AdlerUpdate(v, s)` (R211). -/
def adlerUpdate (v : Word) (bs : List Byte) : Word :=
  packHalves (adlerFold (loHalf v) (hiHalf v) bs).1 (adlerFold (loHalf v) (hiHalf v) bs).2

/-- `Combine(c1, c2, n)` (R212). -/
def combine (c1 c2 n : Word) : Word :=
  let r := n.toNat % adlerBase
  packHalves ((loHalf c1 + loHalf c2 + adlerBase - 1) % adlerBase)
    ((hiHalf c1 + hiHalf c2 + r * loHalf c1 + adlerBase - r) % adlerBase)

end Sys2Proof.Machine
end

