-- ==== Sys2Proof/Machine/Flags.lean ====
section
/-! DEFINITION. The status computations: the words of STATUS and CTRL, the interrupt line, and the non-canonical flag
(rules R32, R33, R63 of 10_state.md, R213 of 42_checksum.md, R277 of 60_exceptions.md). -/

namespace Sys2Proof.Machine

/-- The KIND code (R33). -/
def kindCode (k : Kind) : BitVec 2 :=
  match k with
  | .other => 0
  | .descriptor => 1
  | .data => 2
  | .terminator => 3

/-- The interrupt output (R63, R277): a function of the registers, not a stored bit. -/
def Regs.irq (r : Regs) : Bool := (r.done && r.irqDoneEn) || (r.err && r.irqErrEn)

/-- STATUS as a host read gives it (R33, R241): the stored bits, bit 10 the live interrupt, 31:11 zero. -/
def Regs.statusWord (r : Regs) : Word :=
  (0 : BitVec 21) ++ BitVec.ofBool r.irq ++ BitVec.ofBool r.ncanon ++ BitVec.ofBool r.cmdovr ++ BitVec.ofBool r.trlMatch ++
    kindCode r.kind ++ BitVec.ofBool r.descSeen ++ BitVec.ofBool r.accValid ++ BitVec.ofBool r.err ++
    BitVec.ofBool r.done ++ BitVec.ofBool r.busy

/-- CTRL as a host read gives it (R32): bits 2:0, the rest 0. -/
def Regs.ctrlWord (r : Regs) : Word :=
  (0 : BitVec 29) ++ BitVec.ofBool r.descOpt ++ BitVec.ofBool r.irqErrEn ++ BitVec.ofBool r.irqDoneEn

/-- Some half of the operand is 65521 or more (R213). -/
def nonCanonical (c : Word) : Bool := decide (adlerBase ≤ loHalf c) || decide (adlerBase ≤ hiHalf c)

/-- NCANON is sticky: set by a combination with a non-canonical operand, never cleared by one (R213). -/
def Regs.noteCanon (r : Regs) (bad : Bool) : Regs := { r with ncanon := r.ncanon || bad }

end Sys2Proof.Machine
end

