-- ==== Sys2Proof/Machine/Checksum.lean ====
section
/-! DEFINITION. The checksum combiner's seven commands (rules R215 to R221 of 42_checksum.md). None touches memory. -/

namespace Sys2Proof.Machine

/-- CMB_INIT (R215). -/
def reportCmbInit : Report := .assign (fun r => { r with acc := 0, accValid := false })

/-- CMB_LOAD (R216). -/
def reportCmbLoad (v : View) : Report := .assign (fun r => { r with acc := v.x.opa, accValid := true })

/-- Fold `c`, the checksum of a segment of `n` bytes, into the accumulator (R217, R220): with no prior checksum the
accumulator takes it unchanged, otherwise it takes the combination, noting a non-canonical operand. -/
def foldInto (v : View) (c n : Word) : Report :=
  if v.x.accValid = false then .assign (fun r => { r with acc := c, accValid := true })
  else
    .assign (fun r =>
      { r.noteCanon (nonCanonical v.x.acc || nonCanonical c) with acc := combine v.x.acc c n, accValid := true })

/-- CMB_FOLD (R217). -/
def reportCmbFold (v : View) : Report := foldInto v v.x.opa v.x.oplen

/-- CMB_PAIR (R218). -/
def reportCmbPair (v : View) : Report :=
  .assign (fun r =>
    { r.noteCanon (nonCanonical v.x.opa || nonCanonical v.x.opb) with res := combine v.x.opa v.x.opb v.x.oplen })

/-- ADL_INIT (R219). -/
def reportAdlInit : Report := .assign (fun r => { r with adl := 1, adlLen := 0 })

/-- ADL_FOLD (R220): of the two operands only the accumulator's halves are examined. -/
def reportAdlFold (v : View) : Report :=
  if v.x.accValid = false then .assign (fun r => { r with acc := v.x.adl, accValid := true })
  else
    .assign (fun r =>
      { r.noteCanon (nonCanonical v.x.acc) with acc := combine v.x.acc v.x.adl v.x.adlLen, accValid := true })

/-- The checksum TRL_CHK compares (R221): ADL with S, ACC without. -/
def trailerOperand (s : Bool) (x : Regs) : Word := if s then x.adl else x.acc

/-- TRL_CHK (R221). -/
def reportTrlChk (s e : Bool) (v : View) : Report :=
  if s = false ∧ v.x.accValid = false then .refuse accInvalidErr
  else if trailerOperand s v.x ≠ v.x.trailer ∧ e = true then
    .refuse (framingErr .trailer 0 (trailerOperand s v.x))
  else .assign (fun r => { r with trlMatch := decide (trailerOperand s v.x = v.x.trailer) })

/-! ### The meanings -/

/-- CMB_INIT (R215). -/
def execCmbInit (s : State) : Host.Outcome State Fault Refusal := .next (s.conclude reportCmbInit)

/-- CMB_LOAD (R216). -/
def execCmbLoad (s : State) : Host.Outcome State Fault Refusal := .next (s.conclude (reportCmbLoad s.view))

/-- CMB_FOLD (R217). -/
def execCmbFold (s : State) : Host.Outcome State Fault Refusal := .next (s.conclude (reportCmbFold s.view))

/-- CMB_PAIR (R218). -/
def execCmbPair (s : State) : Host.Outcome State Fault Refusal := .next (s.conclude (reportCmbPair s.view))

/-- ADL_INIT (R219). -/
def execAdlInit (s : State) : Host.Outcome State Fault Refusal := .next (s.conclude reportAdlInit)

/-- ADL_FOLD (R220). -/
def execAdlFold (s : State) : Host.Outcome State Fault Refusal := .next (s.conclude (reportAdlFold s.view))

/-- TRL_CHK (R221); the flags are S and E. -/
def execTrlChk (sel e : Bool) (s : State) : Host.Outcome State Fault Refusal :=
  .next (s.conclude (reportTrlChk sel e s.view))

end Sys2Proof.Machine
end

