-- ==== Sys2Proof/Machine/Chunk.lean ====
section
/-! DEFINITION. The chunk framer's nine commands (rules R136 to R146 of 40_chunk.md). Each has a report, which follows its
rule's pseudocode, and a meaning, which completes with it (R246). -/

namespace Sys2Proof.Machine

/-- MAGIC_PUT (R136). -/
def reportMagicPut (v : View) : Report :=
  if wraps v.x.dst 8 then .refuse (wrapErr v.x.dst)
  else .writes v.cfg [] v.x.dst.toNat magicBytes (fun r => { r with dst := advance v.x.dst 8 })

/-- MAGIC_CHK (R137): all eight bytes are read before they are compared. -/
def reportMagicChk (v : View) : Report :=
  let p := v.x.src.toNat
  if v.x.srcEnd.toNat < p + 8 then .refuse (framingErr .trunc v.x.src 0)
  else .reads [⟨p, 8⟩]
    (match memRead v p 8 with
    | .error e => .error e
    | .ok m =>
      if m ≠ magicBytes then .error (framingErr .magic v.x.src 0)
      else .ok (fun r => { r with src := advance v.x.src 8 }))

/-- CHUNK_PUT (R138). -/
def reportChunkPut (v : View) : Report :=
  let n := v.x.len.toNat
  if wraps v.x.src n then .refuse (wrapErr v.x.src)
  else if wraps v.x.dst (12 + n) then .refuse (wrapErr v.x.dst)
  else
    match memRead v v.x.src.toNat n with
    | .error e => .stops [⟨v.x.src.toNat, n⟩] ⟨v.x.dst.toNat, 12 + n⟩ e
    | .ok b =>
      .writes v.cfg [⟨v.x.src.toNat, n⟩] v.x.dst.toNat (chunkBytes v.x.tag b)
        (fun r => { r with crc := chunkCrc v.x.tag b, src := advance v.x.src n, dst := advance v.x.dst (12 + n) })

/-- CHUNK_GET (R139). -/
def reportChunkGet (v : View) : Report :=
  .reads (chunkReads v v.x.src.toNat v.x.srcEnd.toNat)
    (match chunkRead v v.x.src.toNat v.x.srcEnd.toNat with
    | .error e => .error e
    | .ok c => .ok (fun r => { r.setChunk c with src := BitVec.ofNat 32 c.next, kind := classify v.cfg c.tag }))

/-- The 13-byte header body of R140 for the fixed profile. -/
def headerBody (w h : Word) : List Byte := be32 w ++ be32 h ++ [8, 2, 0, 0, 0]

/-- IHDR_PUT (R141). -/
def reportIhdrPut (v : View) : Report :=
  if v.x.width = 0 ∨ v.x.height = 0 then .refuse (profileErr .zeroDim 0 0)
  else if wraps v.x.dst 25 then .refuse (wrapErr v.x.dst)
  else
    .writes v.cfg [] v.x.dst.toNat (chunkBytes tagHdr (headerBody v.x.width v.x.height))
      (fun r => { r with
        crc := chunkCrc tagHdr (headerBody v.x.width v.x.height), dst := advance v.x.dst 25 })

/-- One fixed field of the header (R142): byte `i` of the body of the chunk at `p` must be `want`; if it is, the check goes on
with `rest`. -/
def headerField (p : Nat) (body : List Byte) (i : Nat) (want : Byte) (d : ProfileDetail) (rest : Option Err) : Option Err :=
  if byteAt body i ≠ want then
    some (profileErr d (BitVec.ofNat 32 (p + 8 + i)) ((byteAt body i).zeroExtend 32))
  else rest

/-- The checks IHDR_GET makes on a chunk read at `p`, in the order of R142. -/
def headerFault (p : Nat) (c : Chunk) : Option Err :=
  if c.tag ≠ tagHdr then some (chunkTypeErr .notIhdr p c.tag)
  else if c.len ≠ 13 then some (framingErr .hdrlen (BitVec.ofNat 32 p) (BitVec.ofNat 32 c.len))
  else if u32be c.body 0 = 0 ∨ u32be c.body 4 = 0 then some (profileErr .zeroDim (BitVec.ofNat 32 p) 0)
  else
    headerField p c.body 8 8 .bitDepth
      (headerField p c.body 9 2 .color
        (headerField p c.body 10 0 .compression
          (headerField p c.body 11 0 .filter
            (headerField p c.body 12 0 .interlace none))))

/-- IHDR_GET (R142). -/
def reportIhdrGet (v : View) : Report :=
  .reads (chunkReads v v.x.src.toNat v.x.srcEnd.toNat)
    (match chunkRead v v.x.src.toNat v.x.srcEnd.toNat with
    | .error e => .error e
    | .ok c =>
      match headerFault v.x.src.toNat c with
      | some e => .error e
      | none => .ok (fun r =>
          { r.setChunk c with
            width := u32be c.body 0, height := u32be c.body 4, src := BitVec.ofNat 32 c.next,
            kind := .other, descSeen := false }))

/-- DESC_PUT (R144); the body is that of R143. -/
def reportDescPut (v : View) : Report :=
  let ph := v.x.pieceH
  if ph = 0 then .refuse (descriptorErr .zero 0 0)
  else if v.x.height.toNat % ph.toNat ≠ 0 then
    .refuse (descriptorErr .nondiv 0 (BitVec.ofNat 32 (v.x.height.toNat % ph.toNat)))
  else if wraps v.x.dst 17 then .refuse (wrapErr v.x.dst)
  else
    .writes v.cfg [] v.x.dst.toNat (chunkBytes v.cfg.tagDesc (be32 ph ++ [1]))
      (fun r => { r with crc := chunkCrc v.cfg.tagDesc (be32 ph ++ [1]), dst := advance v.x.dst 17 })

/-- Where a scan stops: at a descriptor, which it consumes, or at a data chunk, which it does not (R145). -/
inductive ScanStop where
  | descriptor (c : Chunk) (skips : Nat)
  | data (c : Chunk) (p skips : Nat)
  deriving DecidableEq, Repr

/-- What HDR_SCAN does with one chunk read at `p` (the loop body of R145): an error, a stop, or `none` to skip it. -/
def scanChunk (v : View) (p skips : Nat) (c : Chunk) : Except Err (Option ScanStop) :=
  if c.tag = v.cfg.tagDesc then
    if v.x.descSeen then .error (chunkTypeErr .scanBad p c.tag)
    else if c.len ≠ 5 then .error (descriptorErr .desclen (BitVec.ofNat 32 p) (BitVec.ofNat 32 c.len))
    else if (byteAt c.body 4).getLsbD 0 = false then
      .error (descriptorErr .flag (BitVec.ofNat 32 (p + 12)) ((byteAt c.body 4).zeroExtend 32))
    else if u32be c.body 0 = 0 then .error (descriptorErr .zero (BitVec.ofNat 32 (p + 8)) 0)
    else .ok (some (.descriptor c skips))
  else if c.tag = tagData then
    if v.x.descSeen = false ∧ v.x.descOpt = false then .error (descriptorErr .missing (BitVec.ofNat 32 p) 0)
    else .ok (some (.data c p skips))
  else if c.tag = tagHdr ∨ c.tag = tagEnd then .error (chunkTypeErr .scanBad p c.tag)
  else .ok none

/-- The loop of R145 from the chunk at `p`. `fuel` bounds the number of chunks; each is at least 12 bytes, so with
`fuel` = SRC_END the bound is never reached with a byte of the stream left (log 16). -/
def scanFrom (v : View) (fuel p skips : Nat) : Except Err ScanStop :=
  match fuel with
  | 0 => .error (framingErr .trunc (BitVec.ofNat 32 p) 0)
  | k + 1 =>
    match chunkRead v p v.x.srcEnd.toNat with
    | .error e => .error e
    | .ok c =>
      match scanChunk v p skips c with
      | .error e => .error e
      | .ok (some stop) => .ok stop
      | .ok none => scanFrom v k c.next (skips + 1)

/-- The bytes the loop reads (R145), for R100. -/
def scanReads (v : View) (fuel p : Nat) : List Range :=
  match fuel with
  | 0 => []
  | k + 1 =>
    chunkReads v p v.x.srcEnd.toNat ++
      (match chunkRead v p v.x.srcEnd.toNat with
      | .error _ => []
      | .ok c =>
        match scanChunk v p 0 c with
        | .ok none => scanReads v k c.next
        | _ => [])

/-- What HDR_SCAN assigns where it stops (R145). -/
def scanCommit (v : View) (stop : ScanStop) (r : Regs) : Regs :=
  match stop with
  | .descriptor c skips =>
    { r.setChunk c with
      pieceH := u32be c.body 0, descSeen := true, kind := .descriptor, src := BitVec.ofNat 32 c.next,
      skipcnt := BitVec.ofNat 32 skips }
  | .data c p skips =>
    { r.setChunk c with
      pieceH := if v.x.descSeen then r.pieceH else v.x.height, kind := .data, src := BitVec.ofNat 32 p,
      skipcnt := BitVec.ofNat 32 skips }

/-- HDR_SCAN (R145). -/
def reportHdrScan (v : View) : Report :=
  .reads (scanReads v (v.x.srcEnd.toNat + 1) v.x.src.toNat)
    (match scanFrom v (v.x.srcEnd.toNat + 1) v.x.src.toNat 0 with
    | .error e => .error e
    | .ok stop => .ok (scanCommit v stop))

/-- DATA_GET (R146). -/
def reportDataGet (v : View) : Report :=
  let p := v.x.src.toNat
  .reads (chunkReads v p v.x.srcEnd.toNat)
    (match chunkRead v p v.x.srcEnd.toNat with
    | .error e => .error e
    | .ok c =>
      if c.tag = tagData then
        .ok (fun r => { r.setChunk c with src := BitVec.ofNat 32 c.next, kind := .data })
      else if c.tag = tagEnd then
        if c.len ≠ 0 then .error (framingErr .endlen (BitVec.ofNat 32 p) (BitVec.ofNat 32 c.len))
        else .ok (fun r => { r.setChunk c with src := BitVec.ofNat 32 c.next, kind := .terminator })
      else .error (chunkTypeErr .dataBad p c.tag))

/-! ### The meanings -/

/-- MAGIC_PUT (R136). -/
def execMagicPut (s : State) : Host.Outcome State Fault Refusal := .next (s.conclude (reportMagicPut s.view))

/-- MAGIC_CHK (R137). -/
def execMagicChk (s : State) : Host.Outcome State Fault Refusal := .next (s.conclude (reportMagicChk s.view))

/-- CHUNK_PUT (R138). -/
def execChunkPut (s : State) : Host.Outcome State Fault Refusal := .next (s.conclude (reportChunkPut s.view))

/-- CHUNK_GET (R139). -/
def execChunkGet (s : State) : Host.Outcome State Fault Refusal := .next (s.conclude (reportChunkGet s.view))

/-- IHDR_PUT (R141). -/
def execIhdrPut (s : State) : Host.Outcome State Fault Refusal := .next (s.conclude (reportIhdrPut s.view))

/-- IHDR_GET (R142). -/
def execIhdrGet (s : State) : Host.Outcome State Fault Refusal := .next (s.conclude (reportIhdrGet s.view))

/-- DESC_PUT (R144). -/
def execDescPut (s : State) : Host.Outcome State Fault Refusal := .next (s.conclude (reportDescPut s.view))

/-- HDR_SCAN (R145). -/
def execHdrScan (s : State) : Host.Outcome State Fault Refusal := .next (s.conclude (reportHdrScan s.view))

/-- DATA_GET (R146). -/
def execDataGet (s : State) : Host.Outcome State Fault Refusal := .next (s.conclude (reportDataGet s.view))

end Sys2Proof.Machine
end

