-- ==== Sys2Proof/Machine/SplitMerge.lean ====
section
/-! DEFINITION. The stream splitter and merger's five commands (rules R180 to R187 of 41_splitmerge.md). Each has a report,
which follows its rule's pseudocode, and a meaning, which completes with it (R246). -/

namespace Sys2Proof.Machine

/-- BAND_CFG (R181). -/
def reportBandCfg (v : View) : Report :=
  let w := v.x.width.toNat
  let h := v.x.height.toNat
  let n := v.x.npieces.toNat
  if w = 0 ∨ h = 0 then .refuse (profileErr .zeroDim 0 0)
  else if n = 0 then .refuse (descriptorErr .zero 0 0)
  else if h % n ≠ 0 then .refuse (descriptorErr .nondiv 0 (BitVec.ofNat 32 (h % n)))
  else if dmaSize ≤ (3 * w + 1) * (h / n) then .refuse sizeErr
  else .assign (fun r => { r with pieceH := BitVec.ofNat 32 (h / n) })

/-- The row loop of SCAN_FRAME (R182): `rows` rows of `rb` pixel bytes from `src`, each read, then written with its filter
byte from `dst` on. The answer is the framed bytes. -/
def frameRows (v : View) (rb rows src dst : Nat) : Except Err (List Byte) :=
  match rows with
  | 0 => .ok []
  | k + 1 =>
    match memRead v src rb with
    | .error e => .error e
    | .ok row =>
      match firstRefused v.cfg .write dst (rb + 1) with
      | some b => .error (busErr .write b)
      | none =>
        match frameRows v rb k (src + rb) (dst + (rb + 1)) with
        | .error e => .error e
        | .ok rest => .ok ((0 :: row) ++ rest)

/-- SCAN_FRAME (R182). The first write is reached when the first row is read. -/
def reportScanFrame (v : View) : Report :=
  let w := v.x.width.toNat
  let rows := v.x.pieceH.toNat
  let rb := 3 * w
  let out := (rb + 1) * rows
  if w = 0 then .refuse (profileErr .zeroDim 0 0)
  else if rows = 0 then .refuse (descriptorErr .zero 0 0)
  else if dmaSize ≤ out then .refuse sizeErr
  else if wraps v.x.src (rb * rows) then .refuse (wrapErr v.x.src)
  else if wraps v.x.dst out then .refuse (wrapErr v.x.dst)
  else if dmaSize ≤ v.x.adlLen.toNat + out then .refuse sizeErr
  else
    match memRead v v.x.src.toNat rb with
    | .error e => .stops [⟨v.x.src.toNat, rb * rows⟩] ⟨v.x.dst.toNat, out⟩ e
    | .ok _ =>
      match frameRows v rb rows v.x.src.toNat v.x.dst.toNat with
      | .error e => ⟨[⟨v.x.src.toNat, rb * rows⟩], ⟨v.x.dst.toNat, out⟩, ⟨v.x.dst.toNat, out⟩, .error e⟩
      | .ok bs =>
        ⟨[⟨v.x.src.toNat, rb * rows⟩], ⟨v.x.dst.toNat, out⟩, ⟨v.x.dst.toNat, out⟩,
          .ok ⟨bs, fun r => { r with
            adl := adlerUpdate v.x.adl bs, adlLen := BitVec.ofNat 32 (v.x.adlLen.toNat + out),
            src := advance v.x.src (rb * rows), dst := advance v.x.dst out }⟩⟩

/-- Stream-header bytes MERGE_PIECE strips: none from the first piece (R184). -/
def mergeHead (f : Bool) : Nat := if f then 0 else 2

/-- Stream-header bytes SPLIT_PIECE strips: the first piece's two (R185). -/
def splitHead (f : Bool) : Nat := if f then 2 else 0

/-- Trailer bytes stripped from the last piece (R184, R185). -/
def tailBytes (l : Bool) : Nat := if l then 4 else 0

/-- The data chunk's body MERGE_PIECE makes of the bytes it read (R184). -/
def mergedBody (l : Bool) (acc : Word) (b : List Byte) : List Byte := if l then b ++ be32 acc else b

/-- MERGE_PIECE (R184). -/
def reportMergePiece (f l : Bool) (v : View) : Report :=
  let k := v.x.len.toNat
  let hs := mergeHead f
  let ts := tailBytes l
  if l = true ∧ v.x.accValid = false then .refuse accInvalidErr
  else if k < hs + ts then .refuse (framingErr .short v.x.src (BitVec.ofNat 32 k))
  else if wraps v.x.src k then .refuse (wrapErr v.x.src)
  else if wraps v.x.dst (12 + (k - hs)) then .refuse (wrapErr v.x.dst)
  else
    match memRead v (v.x.src.toNat + hs) (k - hs - ts) with
    | .error e => .stops [⟨v.x.src.toNat + hs, k - hs - ts⟩] ⟨v.x.dst.toNat, 12 + (k - hs)⟩ e
    | .ok b =>
      .writes v.cfg [⟨v.x.src.toNat + hs, k - hs - ts⟩] v.x.dst.toNat (chunkBytes tagData (mergedBody l v.x.acc b))
        (fun r => { r with
          crc := chunkCrc tagData (mergedBody l v.x.acc b), src := advance v.x.src k,
          dst := advance v.x.dst (12 + (k - hs)) })

/-- SPLIT_PIECE (R185): the fragment and the trailer are both read before the fragment is written (C9). -/
def reportSplitPiece (f l : Bool) (v : View) : Report :=
  let k := v.x.blen.toNat
  let hs := splitHead f
  let ts := tailBytes l
  let m := k - hs - ts
  if k < hs + ts then .refuse (framingErr .short v.x.body (BitVec.ofNat 32 k))
  else if wraps v.x.body k then .refuse (wrapErr v.x.body)
  else if wraps v.x.dst m then .refuse (wrapErr v.x.dst)
  else
    match memRead v (v.x.body.toNat + hs) m with
    | .error e => .stops [⟨v.x.body.toNat + hs, m + ts⟩] ⟨v.x.dst.toNat, m⟩ e
    | .ok d =>
      match memRead v (v.x.body.toNat + (k - ts)) ts with
      | .error e => .stops [⟨v.x.body.toNat + hs, m + ts⟩] ⟨v.x.dst.toNat, m⟩ e
      | .ok tr =>
        .writes v.cfg [⟨v.x.body.toNat + hs, m + ts⟩] v.x.dst.toNat d
          (fun r => { r with trailer := if l then u32be tr 0 else r.trailer, dst := advance v.x.dst m })

/-- One row of SCAN_UNFRAME (R186): the filter byte at `src` must be 0; the answer is the row's `rb` pixel bytes. -/
def unframeRow (v : View) (rb src : Nat) : Except Err (List Byte) :=
  match memRead v src 1 with
  | .error e => .error e
  | .ok f =>
    if byteAt f 0 ≠ 0 then .error (filterErr src (byteAt f 0))
    else memRead v (src + 1) rb

/-- The row loop of SCAN_UNFRAME (R186): the answer is the pixel bytes. -/
def unframeRows (v : View) (rb rows src dst : Nat) : Except Err (List Byte) :=
  match rows with
  | 0 => .ok []
  | k + 1 =>
    match unframeRow v rb src with
    | .error e => .error e
    | .ok row =>
      match firstRefused v.cfg .write dst rb with
      | some b => .error (busErr .write b)
      | none =>
        match unframeRows v rb k (src + (rb + 1)) (dst + rb) with
        | .error e => .error e
        | .ok rest => .ok (row ++ rest)

/-- The output range SCAN_UNFRAME has reached when it ends: its whole range once the first row passed (log 4). -/
def unframeOutput (v : View) (rb rows src dst : Nat) : Range :=
  match rows with
  | 0 => Range.empty
  | _ + 1 =>
    match unframeRow v rb src with
    | .error _ => Range.empty
    | .ok _ => ⟨dst, rows * rb⟩

/-- SCAN_UNFRAME (R186). Every filter byte is 0 when it succeeds, so the bytes AdlerUpdate runs over, `f ++ row` for each
row, are the LEN bytes at SRC. -/
def reportScanUnframe (v : View) : Report :=
  let w := v.x.width.toNat
  let k := v.x.len.toNat
  let rb := 3 * w
  let st := rb + 1
  let rows := k / st
  if w = 0 then .refuse (profileErr .zeroDim 0 0)
  else if dmaSize ≤ st then .refuse sizeErr
  else if k % st ≠ 0 then .refuse (framingErr .stride v.x.src (BitVec.ofNat 32 (k % st)))
  else if wraps v.x.src k then .refuse (wrapErr v.x.src)
  else if wraps v.x.dst (rows * rb) then .refuse (wrapErr v.x.dst)
  else if dmaSize ≤ v.x.adlLen.toNat + k then .refuse sizeErr
  else
    ⟨[⟨v.x.src.toNat, k⟩], ⟨v.x.dst.toNat, rows * rb⟩, unframeOutput v rb rows v.x.src.toNat v.x.dst.toNat,
      (match unframeRows v rb rows v.x.src.toNat v.x.dst.toNat with
      | .error e => .error e
      | .ok bs => .ok ⟨bs, fun r => { r with
          adl := adlerUpdate v.x.adl (Memory.bytes v.mem v.x.src.toNat k),
          adlLen := BitVec.ofNat 32 (v.x.adlLen.toNat + k),
          src := advance v.x.src k, dst := advance v.x.dst (rows * rb) }⟩)⟩

/-! ### The meanings -/

/-- BAND_CFG (R181). -/
def execBandCfg (s : State) : Host.Outcome State Fault Refusal := .next (s.conclude (reportBandCfg s.view))

/-- SCAN_FRAME (R182). -/
def execScanFrame (s : State) : Host.Outcome State Fault Refusal := .next (s.conclude (reportScanFrame s.view))

/-- MERGE_PIECE (R184). -/
def execMergePiece (f l : Bool) (s : State) : Host.Outcome State Fault Refusal :=
  .next (s.conclude (reportMergePiece f l s.view))

/-- SPLIT_PIECE (R185). -/
def execSplitPiece (f l : Bool) (s : State) : Host.Outcome State Fault Refusal :=
  .next (s.conclude (reportSplitPiece f l s.view))

/-- SCAN_UNFRAME (R186). -/
def execScanUnframe (s : State) : Host.Outcome State Fault Refusal := .next (s.conclude (reportScanUnframe s.view))

end Sys2Proof.Machine
end

