-- ==== Sys2Proof/Machine/Control.lean ====
section
/-! DEFINITION. NOP (rule R240 of 43_control.md), and the buffers of the command in flight (R100 of 20_memory.md, R302 of
70_reset_and_hazards.md). -/

namespace Sys2Proof.Machine

/-- NOP (R240): no register or memory effect. -/
def reportNop : Report := .assign (fun r => r)

/-- NOP (R240). -/
def execNop (s : State) : Host.Outcome State Fault Refusal := .next (s.conclude reportNop)

/-- The report of a decoded command on a view. -/
def reportOf (i : Sys2Proof.Instr) (v : View) : Report :=
  match i with
  | .nop => reportNop
  | .magicPut => reportMagicPut v
  | .magicChk => reportMagicChk v
  | .chunkPut => reportChunkPut v
  | .chunkGet => reportChunkGet v
  | .ihdrPut => reportIhdrPut v
  | .ihdrGet => reportIhdrGet v
  | .descPut => reportDescPut v
  | .hdrScan => reportHdrScan v
  | .dataGet => reportDataGet v
  | .bandCfg => reportBandCfg v
  | .scanFrame => reportScanFrame v
  | .mergePiece f l => reportMergePiece f l v
  | .splitPiece f l => reportSplitPiece f l v
  | .scanUnframe => reportScanUnframe v
  | .cmbInit => reportCmbInit
  | .cmbLoad => reportCmbLoad v
  | .cmbFold => reportCmbFold v
  | .cmbPair => reportCmbPair v
  | .adlInit => reportAdlInit
  | .adlFold => reportAdlFold v
  | .trlChk s e => reportTrlChk s e v

/-- The buffers of a command: what it reads, and its output range as its range checks give it (R100, R302). -/
structure Buffers where
  input : List Range
  output : Range
  deriving DecidableEq, Repr

/-- The buffers of the command in flight; an illegal word and an empty latch have none (logs 6, 7). What a reset makes
unspecified (R302) and what no other agent may touch (R100) is the whole output range, read errors to come or not. -/
def State.buffers (s : State) : Buffers :=
  match s.latch with
  | none => ⟨[], Range.empty⟩
  | some l =>
    match Sys2Proof.decode l.word with
    | .error _ => ⟨[], Range.empty⟩
    | .ok i => ⟨(reportOf i s.view).input, (reportOf i s.view).target⟩

end Sys2Proof.Machine
end

