-- ==== Sys2Proof/Machine/Dispatch.lean ====
section
/-! DEFINITION. The meaning of each command: the completion step of a decoded command (rule R246 of 43_control.md). -/

namespace Sys2Proof.Machine

/-- Complete the decoded command `i`. -/
def exec (i : Instr) (s : State) : Host.Outcome State Fault Refusal :=
  match i with
  | .nop => Sys2Proof.Machine.execNop s
  | .magicPut => Sys2Proof.Machine.execMagicPut s
  | .magicChk => Sys2Proof.Machine.execMagicChk s
  | .chunkPut => Sys2Proof.Machine.execChunkPut s
  | .chunkGet => Sys2Proof.Machine.execChunkGet s
  | .ihdrPut => Sys2Proof.Machine.execIhdrPut s
  | .ihdrGet => Sys2Proof.Machine.execIhdrGet s
  | .descPut => Sys2Proof.Machine.execDescPut s
  | .hdrScan => Sys2Proof.Machine.execHdrScan s
  | .dataGet => Sys2Proof.Machine.execDataGet s
  | .bandCfg => Sys2Proof.Machine.execBandCfg s
  | .scanFrame => Sys2Proof.Machine.execScanFrame s
  | .mergePiece f l => Sys2Proof.Machine.execMergePiece f l s
  | .splitPiece f l => Sys2Proof.Machine.execSplitPiece f l s
  | .scanUnframe => Sys2Proof.Machine.execScanUnframe s
  | .cmbInit => Sys2Proof.Machine.execCmbInit s
  | .cmbLoad => Sys2Proof.Machine.execCmbLoad s
  | .cmbFold => Sys2Proof.Machine.execCmbFold s
  | .cmbPair => Sys2Proof.Machine.execCmbPair s
  | .adlInit => Sys2Proof.Machine.execAdlInit s
  | .adlFold => Sys2Proof.Machine.execAdlFold s
  | .trlChk sel e => Sys2Proof.Machine.execTrlChk sel e s

end Sys2Proof.Machine
end

