-- ==== Sys2Proof/Machine/Window.lean ====
section
/-! DEFINITION. The register window: host reads and writes (rules R30 to R60 of 10_state.md, R241 to R245 of 43_control.md,
R85 of 20_memory.md). -/

namespace Sys2Proof.Machine

/-- The register at a word offset, as a host read gives it (R30, R31, R241); a reserved offset reads 0 (R60). -/
def readOffset (r : Regs) (off : Nat) : Word :=
  match off with
  | 0x00 => 0x5050434D
  | 0x04 => 0x00000001
  | 0x08 => r.ctrlWord
  | 0x0C => r.statusWord
  | 0x10 => r.cmd
  | 0x14 => r.errinfo
  | 0x18 => r.erraddr
  | 0x1C => r.errdata
  | 0x20 => r.src
  | 0x24 => r.srcEnd
  | 0x28 => r.dst
  | 0x2C => r.len
  | 0x30 => r.tag
  | 0x34 => r.body
  | 0x38 => r.blen
  | 0x3C => r.crc
  | 0x40 => r.width
  | 0x44 => r.height
  | 0x48 => r.npieces
  | 0x4C => r.pieceH
  | 0x50 => r.opa
  | 0x54 => r.opb
  | 0x58 => r.oplen
  | 0x5C => r.acc
  | 0x60 => r.res
  | 0x64 => r.adl
  | 0x68 => r.adlLen
  | 0x6C => r.trailer
  | 0x70 => r.skipcnt
  | _ => 0

/-- A host write of an RW register (R242): it takes the value; every other offset is left to `writeOffset` or has no effect. -/
def writeOperand (r : Regs) (off : Nat) (v : Word) : Regs :=
  match off with
  | 0x20 => { r with src := v }
  | 0x24 => { r with srcEnd := v }
  | 0x28 => { r with dst := v }
  | 0x2C => { r with len := v }
  | 0x30 => { r with tag := v }
  | 0x34 => { r with body := v }
  | 0x38 => { r with blen := v }
  | 0x40 => { r with width := v }
  | 0x44 => { r with height := v }
  | 0x48 => { r with npieces := v }
  | 0x4C => { r with pieceH := v }
  | 0x50 => { r with opa := v }
  | 0x54 => { r with opb := v }
  | 0x58 => { r with oplen := v }
  | _ => r

/-- A host write to CTRL (R32): bit 31 resets the block and discards the other bits, otherwise bits 2:0 are set. -/
def State.writeCtrl (s : State) (v : Word) : State :=
  if v.getLsbD 31 then s.resetBlock s.buffers.output
  else { s with regs := { s.regs with
    irqDoneEn := v.getLsbD 0, irqErrEn := v.getLsbD 1, descOpt := v.getLsbD 2 } }

/-- A host write to CMD (R34): issue (R243), or discard with CMDOVR set (R244). -/
def State.writeCmd (s : State) (v : Word) : State :=
  if s.regs.busy || s.regs.err then { s with regs := { s.regs with cmdovr := true } } else s.accept v

/-- A host write of `v` to the word offset `off` (R242); while BUSY = 1 only CTRL, STATUS and CMD answer (R245). -/
def State.writeOffset (s : State) (off : Nat) (v : Word) : State :=
  match off with
  | 0x08 => s.writeCtrl v
  | 0x0C => { s with regs := s.regs.clearStatus v }
  | 0x10 => s.writeCmd v
  | _ => if s.regs.busy then s else { s with regs := writeOperand s.regs off v }

/-- The address lies in the register window (R30, R81). -/
def Params.inWindow (p : Params) (a : Nat) : Bool := decide (p.regBase ≤ a) && decide (a < p.regBase + 256)

/-- The access is an aligned 32-bit one (R85). -/
def alignedWord (off : Nat) (w : Width) : Bool := w == .w32 && off % 4 == 0

/-- What a host read at offset `off` of the window returns: 0 unless it is an aligned 32-bit access (R85, R241). -/
def windowAnswer (r : Regs) (off : Nat) (w : Width) : Word := if alignedWord off w then readOffset r off else 0

/-- A host read of the platform's address `a` (R241): a sub-word or unaligned read of the window returns 0 (R85); an
address outside the window is not the block's (log 11). -/
def State.hostRead (s : State) (a : Nat) (w : Width) : State :=
  if Params.inWindow s.cfg a then { s with reply := .word (windowAnswer s.regs (a - s.cfg.regBase) w) } else s

/-- A host write at the platform's address `a` (R242, R245): a sub-word or unaligned write is ignored (R85); an address
outside the window is not the block's (log 11). -/
def State.hostWrite (s : State) (a : Nat) (w : Width) (v : Word) : State :=
  if Params.inWindow s.cfg a && alignedWord (a - s.cfg.regBase) w then s.writeOffset (a - s.cfg.regBase) v else s

end Sys2Proof.Machine
end

