-- ==== Sys2Proof/Machine/Host.lean ====
section
/-! DEFINITION. The steps of the transition system (rule R248 of 43_control.md): the completion step, the host's and the
codecs' accesses, the reset, and the order in which they come. -/

namespace Sys2Proof.Machine

/-- The completion step (R246), enabled while a command is in flight: decode the latched word (R115), then complete the
command, or take IllegalCommand (R267). -/
def complete (s : State) : Host.Outcome State Fault Refusal :=
  match s.latch with
  | none => .next s
  | some l =>
    match Sys2Proof.decode l.word with
    | .error d => .next (s.takeError (illegalErr d l.word) Range.empty)
    | .ok i => exec i s

/-- The buffer lies in the DMA space (R80); one of no byte does (R83). -/
def inDmaSpace (a n : Nat) : Bool := n == 0 || decide (a + n ≤ dmaSize)

/-- A read of memory by an agent other than the block (R6): a race if it reads a byte of the output range of the command
in flight (R100, log 7). Only the host's read is answered. DESIGN CHOICE (log 24): at an address inside the register window it
reads memory's bytes, not the registers. -/
def agentRead (g : Agent) (a n : Nat) (s : State) : Host.Outcome State Fault Refusal :=
  if inDmaSpace a n = false then .fault .noSuchAddress
  else if s.buffers.output.meets ⟨a, n⟩ then .fault .hostRace
  else
    match g with
    | .host => .next { s with reply := .bytes (Memory.bytes s.mem a n) }
    | .codec => .next s

/-- A write of memory by an agent other than the block (R6): a race if it writes a byte of the input or the output range of
the command in flight (R100, log 7). DESIGN CHOICE (log 24): at an address inside the register window it stores memory's bytes and
reaches no register. -/
def agentWrite (a : Nat) (bs : List Byte) (s : State) : Host.Outcome State Fault Refusal :=
  if inDmaSpace a bs.length = false then .fault .noSuchAddress
  else if s.buffers.output.meets ⟨a, bs.length⟩ || s.buffers.input.any (fun r => r.meets ⟨a, bs.length⟩) then
    .fault .hostRace
  else .next { s with mem := Memory.store s.mem a bs }

/-- One step of the environment or of the block (R248), its event already taken off the schedule. WAIT polls STATUS until BUSY
reads 0 (R119): while a command is in flight the completion step happens and the wait stands, and the poll that reads BUSY = 0
is a host read of STATUS, its answer the last one held in `reply`. DESIGN CHOICE (log 15): the polls before it leave no
answer. DESIGN CHOICE (log 21): the reset input is a reset with the power on, which keeps memory (R302); the memory of a power-on
reset (U14) is that of `State.reset` only. An external job's end, success or failure, comes back to the host and is nothing to the
block (R323, log 23). -/
def happen (e : Event) (s : State) : Host.Outcome State Fault Refusal :=
  match e with
  | .regRead a w => .next (s.hostRead a w)
  | .regWrite a w v => .next (s.hostWrite a w v)
  | .memRead g a n => agentRead g a n s
  | .memWrite _ a bs => agentWrite a bs s
  | .wait => if s.regs.busy then complete { s with sched := .wait :: s.sched }
    else .next (s.hostRead (s.cfg.regBase + 0x0C) .w32)
  | .complete => complete s
  | .resetInput => .next (s.resetBlock s.buffers.output)
  | .jobEnds ok => .next { s with reply := .job ok }

/-- One step of the machine. A configuration whose tags are not distinct is refused (R7). The next event of the schedule
happens; with none left a command in flight completes (R320), and an idle block stays as it is (R303). -/
def advanceStep (s : State) : Host.Outcome State Fault Refusal :=
  if s.cfg.wellFormed = false then .refused .tagsNotDistinct
  else
    match s.sched with
    | [] => complete s
    | e :: rest => happen e { s with sched := rest }

/-- A command placed as if it had just been issued, the completion step coming next (log 8). -/
def placeCommand (s : State) (w : Word) : State :=
  { s.accept w with sched := .complete :: s.sched }

end Sys2Proof.Machine
end

