-- ==== Sys2Proof/Machine/Step.lean ====
section
/-! DEFINITION. One step of the machine (rule R248 of 43_control.md), and the host's way to place a command. -/

namespace Sys2Proof.Machine

/-- One step. -/
def step (s : State) : Host.Outcome State Fault Refusal := advanceStep s

/-- `s` with the command word `w` (its bits above `nbits` zero) issued, so that the very next step completes it. A command
is not fetched from memory (R98): it is issued by a register write (R243), and this stands for that write (log 8). -/
def State.withFetchWord (s : State) (nbits w : Nat) : State := placeCommand s (BitVec.ofNat 32 (w % 2 ^ nbits))

end Sys2Proof.Machine
end

