-- ==== Sys2Proof/Safety.lean ====
section
/-! DEFINITION. The terms claims are stated in: buffers and chunks as the spec describes them, the record of an error, the
invariant of the machine, the checksum of a byte string, and what a run gives (rule R322 of 70_reset_and_hazards.md). -/

namespace Sys2Proof.Machine

/-! ### Buffers -/

/-- The `n` bytes at `a` end at or below 0xFFFFFFFF (R88). -/
abbrev Fits (a : Word) (n : Nat) : Prop := a.toNat + n ≤ 4294967296

/-- The platform completes every byte access of the buffer (R83). -/
abbrev Completes (p : Params) (d : Dir) (a n : Nat) : Prop := ∀ k, k < n → memOK p d (a + k) = true

/-- Byte `k` of the buffer is the first whose access the platform refuses (R83). -/
abbrev RefusedAt (p : Params) (d : Dir) (a n k : Nat) : Prop :=
  k < n ∧ memOK p d (a + k) = false ∧ ∀ j, j < k → memOK p d (a + j) = true

/-- The two buffers share no byte (R89). -/
abbrev Apart (a n b m : Nat) : Prop := n = 0 ∨ m = 0 ∨ a + n ≤ b ∨ b + m ≤ a

/-- Address `a` lies outside the `n` bytes at `base`. -/
abbrev Outside (base n a : Nat) : Prop := a < base ∨ base + n ≤ a

/-- The length of a command's output range, which begins at DST (R136, R138, R141, R144, R182, R184 to R186); 0 for a command that
stores nothing. -/
def outputSpan (i : Instr) (x : Regs) : Nat :=
  match i with
  | .magicPut => 8
  | .chunkPut => 12 + x.len.toNat
  | .ihdrPut => 25
  | .descPut => 17
  | .scanFrame => (3 * x.width.toNat + 1) * x.pieceH.toNat
  | .mergePiece f _ => 12 + (x.len.toNat - mergeHead f)
  | .splitPiece f l => x.blen.toNat - splitHead f - tailBytes l
  | .scanUnframe => x.len.toNat / (3 * x.width.toNat + 1) * (3 * x.width.toNat)
  | .nop | .magicChk | .chunkGet | .ihdrGet | .hdrScan | .dataGet | .bandCfg | .cmbInit | .cmbLoad | .cmbFold | .cmbPair
  | .adlInit | .adlFold | .trlChk _ _ => 0

/-! ### Chunks -/

/-- The body length a chunk at `p` carries: its first four bytes, big-endian (R132). -/
abbrev chunkLen (m : Memory) (p : Nat) : Nat := (u32be (Memory.bytes m p 4) 0).toNat

/-- The tag a chunk at `p` carries (R132). -/
abbrev chunkTag (m : Memory) (p : Nat) : Word := u32be (Memory.bytes m (p + 4) 4) 0

/-- The body of a chunk at `p` (R132). -/
abbrev chunkBody (m : Memory) (p : Nat) : List Byte := Memory.bytes m (p + 8) (chunkLen m p)

/-- The CRC stored in a chunk at `p`, after its body (R132). -/
abbrev storedCrc (m : Memory) (p : Nat) : Word := u32be (Memory.bytes m (p + 8 + chunkLen m p) 4) 0

/-- A whole chunk stands at `p` of a stream ending at `stop`, readable, with the CRC of its tag and body (R132, R134). -/
abbrev GoodChunk (p : Params) (m : Memory) (a stop : Nat) : Prop :=
  a + 12 + chunkLen m a ≤ stop ∧ Completes p .read a (12 + chunkLen m a) ∧
    storedCrc m a = crc32 (be32 (chunkTag m a) ++ chunkBody m a)

/-- A good chunk whose type HDR_SCAN does not recognise (R145). -/
abbrev SkippedChunk (p : Params) (m : Memory) (a stop : Nat) : Prop :=
  GoodChunk p m a stop ∧ chunkTag m a ≠ p.tagDesc ∧ chunkTag m a ≠ tagData ∧ chunkTag m a ≠ tagHdr ∧ chunkTag m a ≠ tagEnd

/-- `k` unrecognised chunks stand one after the other from `a`, and end at `b` (R145). -/
def SkipsTo (p : Params) (m : Memory) (stop k a b : Nat) : Prop :=
  match k with
  | 0 => a = b
  | j + 1 => SkippedChunk p m a stop ∧ SkipsTo p m stop j (a + 12 + chunkLen m a) b

/-! ### Errors -/

/-- The registers after an error with CODE `code` and DETAIL `detail` (R270, R271): ERRINFO is `code | detail << 8 | w[7:0] << 16`,
and nothing but the four error registers and BUSY changes. -/
def State.failedRegs (s : State) (code detail : Nat) (addr data : Word) : Regs :=
  { s.regs with
    errinfo := BitVec.ofNat 32 (code + 256 * detail + 65536 * (s.word.toNat % 256))
    erraddr := addr, errdata := data, err := true, busy := false }

/-- The state after an error before any write: no byte of memory changes (R272). -/
def State.failed (s : State) (code detail : Nat) (addr data : Word) : State :=
  { s with regs := s.failedRegs code detail addr data, latch := none }

/-! ### What a command answers -/

/-- The command answers a next state: memory `m`, the assignments `f` on the registers, DONE set, BUSY and the latch cleared,
all else unchanged (R246). -/
abbrev Finishes (i : Instr) (s : State) (m : Memory) (f : Regs → Regs) : Prop :=
  exec i s = .next { s with mem := m, regs := { f s.regs with done := true, busy := false }, latch := none }

/-- The command answers a next state with the registers `r`, the latch empty, and every byte outside the `n` bytes at `base`
as before; `more` is what else holds of that state. -/
abbrev AnswersWith (i : Instr) (s : State) (r : Regs) (base n : Nat) (more : State → Prop) : Prop :=
  ∃ t, exec i s = .next t ∧ t.regs = r ∧ t.latch = none ∧
    (∀ a, Outside base n a → Memory.get t.mem a = Memory.get s.mem a) ∧ more t

/-- The command ends in an error before its first write (R270 to R272). -/
abbrev Fails (i : Instr) (s : State) (code detail : Nat) (addr data : Word) : Prop :=
  exec i s = .next (s.failed code detail addr data)

/-- The command ends in an error that may leave the `n` bytes at `base`, its output range, unspecified (R270 to R272). -/
abbrev FailsWriting (i : Instr) (s : State) (code detail : Nat) (addr data : Word) (base n : Nat) : Prop :=
  AnswersWith i s (s.failedRegs code detail addr data) base n (fun _ => True)

/-- The framed scanlines of `rows` rows of `rb` pixel bytes at `src`: before each row the filter byte 0 (R182). -/
def framedRows (m : Memory) (rb src rows : Nat) : List Byte :=
  match rows with
  | 0 => []
  | k + 1 => (0 :: Memory.bytes m src rb) ++ framedRows m rb (src + rb) k

/-! ### Checksums -/

/-- The low half of Adler-32 by its closed form (R210). -/
def adlerLo (bs : List Byte) : Nat := (1 + (bs.map BitVec.toNat).sum) % 65521

/-- `n + n*s_1 + (n-1)*s_2 + ... + 1*s_n` (R210). -/
def adlerHiSum (bs : List Byte) : Nat :=
  match bs with
  | [] => 0
  | b :: rest => 1 + (rest.length + 1) * b.toNat + adlerHiSum rest

/-- `Adler(s) = lo(s) | (hi(s) << 16)` by its closed form (R210). -/
def adlerOf (bs : List Byte) : Word := BitVec.ofNat 32 (adlerLo bs + 65536 * (adlerHiSum bs % 65521))

/-- Both halves are below BASE (R210). -/
abbrev Canonical (c : Word) : Prop := c.toNat % 65536 < 65521 ∧ c.toNat / 65536 < 65521

/-! ### The invariant -/

/-- `snap` differs from `now` at most in what the host or an issue may change while a command is in flight (R243, R245): CTRL,
the W1C bits, BUSY and CMD. -/
def OperandsAgree (snap now : Regs) : Prop :=
  snap = { now with
    irqDoneEn := snap.irqDoneEn, irqErrEn := snap.irqErrEn, descOpt := snap.descOpt, busy := snap.busy, done := snap.done,
    err := snap.err, cmdovr := snap.cmdovr, ncanon := snap.ncanon, cmd := snap.cmd }

/-- What holds of every state the block can be in. -/
structure State.Inv (s : State) : Prop where
  /-- Memory is in its canonical form. -/
  memory : Memory.wf s.mem = true
  /-- The latch is empty exactly when BUSY = 0 (R61). -/
  latched : s.regs.busy = s.latch.isSome
  /-- Both halves of ADL are below 65521 (R56). -/
  adler : Canonical s.regs.adl
  /-- DONE and ERR are not both set (R247). -/
  outcome : s.regs.done = false ∨ s.regs.err = false
  /-- While a command is in flight neither is set (R243, R244). -/
  inFlight : s.regs.busy = true → s.regs.done = false ∧ s.regs.err = false
  /-- With no prior checksum ACC holds 0 (R54). -/
  noPrior : s.regs.accValid = false → s.regs.acc = 0
  /-- Bits [31:24] of ERRINFO read 0 (R35). -/
  errinfoTop : s.regs.errinfo.toNat < 16777216
  /-- CMD is the word in flight, and the operand registers still hold the snapshot (R34, R245). -/
  snapshot : ∀ l, s.latch = some l → l.word = s.regs.cmd ∧ OperandsAgree l.regs s.regs

/-! ### Runs -/

/-- The end of a run (R322): every host operation performed, and BUSY = 0. DESIGN CHOICE (log 22): steps of other agents that the
schedule puts after the last host operation belong to the run too. -/
def State.over (s : State) : Bool := s.sched.isEmpty && !s.regs.busy

/-- The outcome of an accepted command (R322): DONE, or ERR with what was recorded; a command that a reset aborted has neither
(R302) and is listed as `aborted` (log 20). -/
inductive CmdOutcome where
  | done (word : Word)
  | failed (word errinfo erraddr errdata : Word)
  | aborted (word : Word)
  deriving DecidableEq, Repr

/-- The outcome a step from `s` to `t` gives, if it ended a command: a completion sets DONE or ERR (R247), a reset clears
both (R302). -/
def outcomeOf (s t : State) : Option CmdOutcome :=
  match s.latch, t.latch with
  | some l, none =>
    if t.regs.err then some (.failed l.word t.regs.errinfo t.regs.erraddr t.regs.errdata)
    else if t.regs.done then some (.done l.word)
    else some (.aborted l.word)
  | _, _ => none

/-- What a run lists, in order: the accepted commands' outcomes (R322), the commands the block discarded (R244), which never ran,
and how the external jobs ended (R323, log 23). -/
inductive RunEntry where
  | command (outcome : CmdOutcome)
  | discarded (word : Word)
  | job (ok : Bool)
  deriving DecidableEq, Repr

/-- The host access is one that reaches CMD: an aligned 32-bit one at its offset (R34, R85). -/
def reachesCmd (p : Params) (a : Nat) (w : Width) : Bool :=
  Params.inWindow p a && alignedWord (a - p.regBase) w && a - p.regBase == 0x10

/-- The entry a step from `s` to `t` gives: a command discarded because BUSY or ERR was 1 (R244), the end of an external job, or
else a command's outcome. -/
def entryOf (s t : State) : Option RunEntry :=
  match s.sched with
  | .jobEnds ok :: _ => some (.job ok)
  | .regWrite a w v :: _ =>
    if reachesCmd s.cfg a w && (s.regs.busy || s.regs.err) then some (.discarded v) else (outcomeOf s t).map .command
  | _ => (outcomeOf s t).map .command

/-- The result of a run (R322): the final state and what the run lists, oldest first; none if the run is not over within `fuel`
steps or stops. -/
def runResult (fuel : Nat) (s : State) : Option (State × List RunEntry) :=
  if s.over then some (s, [])
  else
    match fuel with
    | 0 => none
    | k + 1 =>
      match step s with
      | .next t => (runResult k t).map (fun p => (p.1, (entryOf s t).toList ++ p.2))
      | _ => none

/-- Why an operation fails (R251): an error, whose ERRINFO holds the class, or an external job's failure, which is fatal (R323,
U11). A command that was discarded, or that a reset aborted, did not complete with DONE, so the operation did not succeed either
(log 20). -/
inductive OpFailure where
  | error (errinfo : Word)
  | discarded
  | jobFailed
  | aborted
  deriving DecidableEq, Repr

/-- The failure an entry is, if it is one. -/
def RunEntry.failure (e : RunEntry) : Option OpFailure :=
  match e with
  | .command (.done _) => none
  | .command (.failed _ info _ _) => some (.error info)
  | .command (.aborted _) => some .aborted
  | .discarded _ => some .discarded
  | .job ok => if ok then none else some .jobFailed

/-- The first failure of an operation whose run lists these entries; none if it succeeds: every command the host issued completed
with DONE and every external job succeeded (R251). A failed operation has no result (R286). -/
def operationFailure (entries : List RunEntry) : Option OpFailure :=
  match entries with
  | [] => none
  | e :: rest =>
    match e.failure with
    | some f => some f
    | none => operationFailure rest

/-- The launch premises on the block (R324): nothing in flight, no error standing, a configuration the model takes. -/
def State.launch (s : State) : Bool := !s.regs.busy && !s.regs.err && s.latch.isNone && s.cfg.wellFormed

end Sys2Proof.Machine
end

