-- ==== Sys2Proof/Certificates/Slice0/Obligations.lean ====
section
/-! DEFINITION. The statements for the provers. Each docstring names the rules of spec/ it formalises. -/

open Sys2Proof Sys2Proof.Machine

/-! ### Encoding -/

/-- R121 (derived there): decoding the word of any command, with every value of its flags, gives the command back. -/
def Obligations.DecodeOfEncode : Prop := ∀ i : Instr, decode (encode i) = .ok i

/-- R121 (derived there): every one of the 2^32 words that decodes is the word of the command it decodes to, so no bit is
dropped. -/
def Obligations.EncodeOfDecode : Prop := ∀ (w : Word) (i : Instr), decode w = .ok i → encode i = w

/-- R114, R115, R116: exactly the words some row of the opcode map selects decode, and no word selects two rows. -/
def Obligations.TableSelectsLegalWords : Prop :=
  ∀ w : Word, ((∃ i, decode w = .ok i) ↔ ∃ r ∈ opRows, w &&& r.mask = r.word) ∧
    ∀ r ∈ opRows, ∀ q ∈ opRows, w &&& r.mask = r.word → w &&& q.mask = q.word → r = q

/-- R115, R112: BAD_OPC for an OPC outside the map, then BAD_FLAGS for a set bit of 8 to 31 the opcode does not permit, and
otherwise the command of the OPC, with the flags the bits give (its word is `w`). -/
def Obligations.DecodeFollowsTheMap : Prop :=
  ∀ w : Word,
    let opc := w.toNat % 256
    let allocated := opc ∈ [0x00, 0x10, 0x11, 0x12, 0x13, 0x14, 0x15, 0x16, 0x17, 0x18, 0x20, 0x21, 0x22, 0x23, 0x24,
      0x30, 0x31, 0x32, 0x33, 0x34, 0x35, 0x36]
    let permitted := fun k : Nat => ((opc = 0x22 ∨ opc = 0x23) ∧ (k = 8 ∨ k = 9)) ∨ (opc = 0x36 ∧ (k = 10 ∨ k = 11))
    (¬ allocated → decode w = .error .badOpc) ∧
    (allocated → (∃ k, 8 ≤ k ∧ k < 32 ∧ w.getLsbD k = true ∧ ¬ permitted k) → decode w = .error .badFlags) ∧
    (allocated → (∀ k, 8 ≤ k → k < 32 → w.getLsbD k = true → permitted k) → ∃ i, decode w = .ok i ∧ encode i = w)

/-- R114, R119, R116: words of every family, written out from the map, and three illegal ones. -/
def Obligations.SampleWordsDecode : Prop :=
  decode 0x00000000 = .ok .nop ∧ decode 0x00000015 = .ok .ihdrGet ∧ decode 0x00000017 = .ok .hdrScan ∧
  decode 0x00000021 = .ok .scanFrame ∧ decode 0x00000024 = .ok .scanUnframe ∧
  decode 0x00000322 = .ok (.mergePiece true true) ∧ decode 0x00000123 = .ok (.splitPiece true false) ∧
  decode 0x00000223 = .ok (.splitPiece false true) ∧ decode 0x00000032 = .ok .cmbFold ∧
  decode 0x00000436 = .ok (.trlChk true false) ∧ decode 0x00000836 = .ok (.trlChk false true) ∧
  decode 0x00000001 = .error .badOpc ∧ decode 0x00000136 = .error .badFlags ∧ decode 0x80000010 = .error .badFlags

/-! ### Steps and the life cycle -/

/-- R246, R248: a step at a state whose latched word decodes to `i` is `exec i` at that state. Where the completion is the next
event, the schedule loses that event and nothing else differs. That the completion happens with an empty schedule (R320), and
with a WAIT (R119) at its head, which stands through it with the last answer, are the model's choices (logs 8 and 15); in both
the schedule stays. A command placed by the host's probe runs in the very next step (the model's choice, log 8). -/
def Obligations.StepRunsTheCommand : Prop :=
  (∀ (s : State) (l : Latch) (i : Instr), s.cfg.wellFormed = true → s.latch = some l → decode l.word = .ok i →
    (s.sched = [] → step s = exec i s) ∧
    (∀ rest, s.sched = .complete :: rest → step s = exec i { s with sched := rest }) ∧
    (∀ rest, s.sched = .wait :: rest → s.regs.busy = true → step s = exec i s)) ∧
  (∀ (s : State) (w : Word) (i : Instr), s.cfg.wellFormed = true → decode w = .ok i →
    step (s.withFetchWord 32 w.toNat) = exec i (s.accept w))

/-- R267: an illegal word completes with IllegalCommand: BAD_OPC is detail 1, BAD_FLAGS detail 2, ERRADDR 0, ERRDATA the word,
ERRINFO.OPC its bits 7:0, and nothing else of the block or of memory changes; whichever event lets the completion happen. That it
happens with an empty schedule, and that a WAIT stands at the head of the schedule through it, are the model's choices (logs 8
and 15). -/
def Obligations.IllegalCommandRecorded : Prop :=
  ∀ (s : State) (l : Latch) (d : DecodeError), s.cfg.wellFormed = true → s.latch = some l → decode l.word = .error d →
    let code := match d with
      | .badOpc => 1
      | .badFlags => 2
    (s.sched = [] → step s = .next (s.failed 6 code 0 l.word)) ∧
    (∀ rest, s.sched = .complete :: rest → step s = .next { s.failed 6 code 0 l.word with sched := rest }) ∧
    (∀ rest, s.sched = .wait :: rest → s.regs.busy = true → step s = .next (s.failed 6 code 0 l.word))

/-- R243, R34: a write to CMD with BUSY = 0 and ERR = 0 issues the word, legal or not: CMD takes it, DONE is cleared, BUSY set,
the latch takes the word and the registers as they stood (log 9), and nothing else changes. -/
def Obligations.CmdWriteIssues : Prop :=
  ∀ (s : State) (w : Word) (rest : List Event), s.cfg.wellFormed = true → s.regs.busy = false → s.regs.err = false →
    s.sched = .regWrite (s.cfg.regBase + 0x10) .w32 w :: rest →
    step s = .next { s with
      sched := rest, regs := { s.regs with cmd := w, done := false, busy := true }, latch := some ⟨w, s.regs⟩ }

/-- R244: a write to CMD with BUSY = 1 or ERR = 1 sets CMDOVR and changes nothing else. -/
def Obligations.CmdWriteIsDiscarded : Prop :=
  ∀ (s : State) (w : Word) (rest : List Event), s.cfg.wellFormed = true → s.regs.busy = true ∨ s.regs.err = true →
    s.sched = .regWrite (s.cfg.regBase + 0x10) .w32 w :: rest →
    step s = .next { s with sched := rest, regs := { s.regs with cmdovr := true } }

/-- R245: while BUSY = 1 a write to CTRL sets the enables and DESC_OPT at once or resets the block, a write to STATUS clears the
W1C fields, a write to CMD is lost, and every other write is ignored; the latch keeps its snapshot. -/
def Obligations.WritesWhileBusy : Prop :=
  ∀ (s : State) (off : Nat) (v : Word) (rest : List Event), s.cfg.wellFormed = true → s.regs.busy = true → off < 256 →
    off % 4 = 0 → s.sched = .regWrite (s.cfg.regBase + off) .w32 v :: rest →
    (off = 0x08 → v.getLsbD 31 = false →
      step s = .next { s with sched := rest, regs := { s.regs with
        irqDoneEn := v.getLsbD 0, irqErrEn := v.getLsbD 1, descOpt := v.getLsbD 2 } }) ∧
    (off = 0x08 → v.getLsbD 31 = true → ∃ t, step s = .next t ∧ t.regs = Regs.reset ∧ t.latch = none ∧ t.sched = rest) ∧
    (off = 0x0C →
      step s = .next { s with sched := rest, regs := { s.regs with
        done := s.regs.done && !v.getLsbD 1, err := s.regs.err && !v.getLsbD 2,
        cmdovr := s.regs.cmdovr && !v.getLsbD 8, ncanon := s.regs.ncanon && !v.getLsbD 9 } }) ∧
    (off = 0x10 → step s = .next { s with sched := rest, regs := { s.regs with cmdovr := true } }) ∧
    (off ≠ 0x08 → off ≠ 0x0C → off ≠ 0x10 → step s = .next { s with sched := rest })

/-- R242: with BUSY = 0 each of the fourteen RW registers, named at its offset, takes the written value and nothing else
changes, so every other offset reads as before; CTRL takes bits 2:0, or resets the block with bit 31; a write to STATUS clears the W1C fields whose bit is 1; CMD issues the word
or, with ERR = 1, discards it; an RO register, ID, VERSION or a reserved offset takes no effect. -/
def Obligations.WritesWhileIdle : Prop :=
  ∀ (s : State) (off : Nat) (v : Word) (rest : List Event), s.cfg.wellFormed = true → s.regs.busy = false →
    s.sched = .regWrite (s.cfg.regBase + off) .w32 v :: rest →
    let takes := fun r : Regs => step s = .next { s with sched := rest, regs := r }
    (off = 0x20 → takes { s.regs with src := v }) ∧
    (off = 0x24 → takes { s.regs with srcEnd := v }) ∧
    (off = 0x28 → takes { s.regs with dst := v }) ∧
    (off = 0x2C → takes { s.regs with len := v }) ∧
    (off = 0x30 → takes { s.regs with tag := v }) ∧
    (off = 0x34 → takes { s.regs with body := v }) ∧
    (off = 0x38 → takes { s.regs with blen := v }) ∧
    (off = 0x40 → takes { s.regs with width := v }) ∧
    (off = 0x44 → takes { s.regs with height := v }) ∧
    (off = 0x48 → takes { s.regs with npieces := v }) ∧
    (off = 0x4C → takes { s.regs with pieceH := v }) ∧
    (off = 0x50 → takes { s.regs with opa := v }) ∧
    (off = 0x54 → takes { s.regs with opb := v }) ∧
    (off = 0x58 → takes { s.regs with oplen := v }) ∧
    (off ∈ [0x20, 0x24, 0x28, 0x2C, 0x30, 0x34, 0x38, 0x40, 0x44, 0x48, 0x4C, 0x50, 0x54, 0x58] →
      ∃ t, step s = .next t ∧ readOffset t.regs off = v ∧ (∀ o, o ≠ off → readOffset t.regs o = readOffset s.regs o) ∧
        t.mem = s.mem ∧ t.latch = s.latch ∧ t.sched = rest) ∧
    (off = 0x08 → v.getLsbD 31 = false →
      step s = .next { s with sched := rest, regs := { s.regs with
        irqDoneEn := v.getLsbD 0, irqErrEn := v.getLsbD 1, descOpt := v.getLsbD 2 } }) ∧
    (off = 0x08 → v.getLsbD 31 = true → ∃ t, step s = .next t ∧ t.regs = Regs.reset ∧ t.latch = none ∧ t.sched = rest) ∧
    (off = 0x0C →
      step s = .next { s with sched := rest, regs := { s.regs with
        done := s.regs.done && !v.getLsbD 1, err := s.regs.err && !v.getLsbD 2,
        cmdovr := s.regs.cmdovr && !v.getLsbD 8, ncanon := s.regs.ncanon && !v.getLsbD 9 } }) ∧
    (off = 0x10 → s.regs.err = false → ∃ l : Latch, l.word = v ∧
      step s = .next { s with
        sched := rest, regs := { s.regs with cmd := v, done := false, busy := true }, latch := some l }) ∧
    (off = 0x10 → s.regs.err = true → step s = .next { s with sched := rest, regs := { s.regs with cmdovr := true } }) ∧
    (off ∈ [0x00, 0x04, 0x14, 0x18, 0x1C, 0x3C, 0x5C, 0x60, 0x64, 0x68, 0x6C, 0x70] ∨ (0x74 ≤ off ∧ off < 256) →
      step s = .next { s with sched := rest })

/-- R85: an access of the window that is not an aligned 32-bit one has no effect on the block: a write is ignored, a read
returns 0. -/
def Obligations.OddAccessesDoNothing : Prop :=
  ∀ (s : State) (off : Nat) (width : Width) (v : Word) (rest : List Event), s.cfg.wellFormed = true → off < 256 →
    (width ≠ .w32 ∨ off % 4 ≠ 0) →
    (s.sched = .regWrite (s.cfg.regBase + off) width v :: rest → step s = .next { s with sched := rest }) ∧
    (s.sched = .regRead (s.cfg.regBase + off) width :: rest → step s = .next { s with sched := rest, reply := .word 0 })

/-- R30, R31, R60: writes to the RO registers, ID, VERSION and the reserved offsets are ignored, busy or not, and so are the
reserved bits of a write to CTRL or STATUS; ID and VERSION read their constants, the reserved offsets 0, and the reserved bits
of CTRL and STATUS 0. -/
def Obligations.ReadOnlyAndReserved : Prop :=
  (∀ (s : State) (off : Nat) (v : Word) (rest : List Event), s.cfg.wellFormed = true → off % 4 = 0 →
    (off ∈ [0x00, 0x04, 0x14, 0x18, 0x1C, 0x3C, 0x5C, 0x60, 0x64, 0x68, 0x6C, 0x70] ∨ (0x74 ≤ off ∧ off < 256)) →
    s.sched = .regWrite (s.cfg.regBase + off) .w32 v :: rest → step s = .next { s with sched := rest }) ∧
  (∀ (s : State) (off : Nat) (v w : Word) (rest : List Event), s.cfg.wellFormed = true →
    (off = 0x08 ∧ ∀ k, k < 3 ∨ k = 31 → v.getLsbD k = w.getLsbD k) ∨ (off = 0x0C ∧ ∀ k, k < 11 → v.getLsbD k = w.getLsbD k) →
    step { s with sched := .regWrite (s.cfg.regBase + off) .w32 v :: rest } =
      step { s with sched := .regWrite (s.cfg.regBase + off) .w32 w :: rest }) ∧
  (∀ r : Regs, readOffset r 0x00 = 0x5050434D ∧ readOffset r 0x04 = 0x00000001 ∧
    (∀ off, 0x74 ≤ off → readOffset r off = 0) ∧ (∀ k, 3 ≤ k → (readOffset r 0x08).getLsbD k = false) ∧
    (∀ k, 11 ≤ k → (readOffset r 0x0C).getLsbD k = false))

/-- R241: an aligned 32-bit read of the window returns the register's current value, whether a command is in flight or not, and
changes nothing of the block (the answer stands in the model's own field, log 12). R30: which register stands at which offset
(CTRL and STATUS are StatusAndCtrlLayout's, the constants and the reserved offsets ReadOnlyAndReserved's). -/
def Obligations.HostReadAnswers : Prop :=
  (∀ (s : State) (off : Nat) (rest : List Event), s.cfg.wellFormed = true → off < 256 → off % 4 = 0 →
    s.sched = .regRead (s.cfg.regBase + off) .w32 :: rest →
    step s = .next { s with sched := rest, reply := .word (readOffset s.regs off) }) ∧
  ∀ r : Regs,
    readOffset r 0x10 = r.cmd ∧ readOffset r 0x14 = r.errinfo ∧ readOffset r 0x18 = r.erraddr ∧ readOffset r 0x1C = r.errdata ∧
    readOffset r 0x20 = r.src ∧ readOffset r 0x24 = r.srcEnd ∧ readOffset r 0x28 = r.dst ∧ readOffset r 0x2C = r.len ∧
    readOffset r 0x30 = r.tag ∧ readOffset r 0x34 = r.body ∧ readOffset r 0x38 = r.blen ∧ readOffset r 0x3C = r.crc ∧
    readOffset r 0x40 = r.width ∧ readOffset r 0x44 = r.height ∧ readOffset r 0x48 = r.npieces ∧ readOffset r 0x4C = r.pieceH ∧
    readOffset r 0x50 = r.opa ∧ readOffset r 0x54 = r.opb ∧ readOffset r 0x58 = r.oplen ∧ readOffset r 0x5C = r.acc ∧
    readOffset r 0x60 = r.res ∧ readOffset r 0x64 = r.adl ∧ readOffset r 0x68 = r.adlLen ∧ readOffset r 0x6C = r.trailer ∧
    readOffset r 0x70 = r.skipcnt

/-- R32, R33, R63, R277: the bits of STATUS and CTRL as they are read; bit 10 of STATUS is the live interrupt output, which is
`(DONE and IRQ_DONE_EN) or (ERR and IRQ_ERR_EN)`. -/
def Obligations.StatusAndCtrlLayout : Prop :=
  ∀ r : Regs,
    let st := readOffset r 0x0C
    let ct := readOffset r 0x08
    st.getLsbD 0 = r.busy ∧ st.getLsbD 1 = r.done ∧ st.getLsbD 2 = r.err ∧ st.getLsbD 3 = r.accValid ∧
    st.getLsbD 4 = r.descSeen ∧ (st.getLsbD 5 = true ↔ r.kind = .descriptor ∨ r.kind = .terminator) ∧
    (st.getLsbD 6 = true ↔ r.kind = .data ∨ r.kind = .terminator) ∧ st.getLsbD 7 = r.trlMatch ∧
    st.getLsbD 8 = r.cmdovr ∧ st.getLsbD 9 = r.ncanon ∧
    r.irq = ((r.done && r.irqDoneEn) || (r.err && r.irqErrEn)) ∧ st.getLsbD 10 = r.irq ∧
    ct.getLsbD 0 = r.irqDoneEn ∧ ct.getLsbD 1 = r.irqErrEn ∧ ct.getLsbD 2 = r.descOpt

/-! ### Reset -/

/-- R301: after reset ID, VERSION and ADL read their values, every other offset reads 0, the latch is empty and the interrupt
low. -/
def Obligations.ResetRegisters : Prop :=
  (∀ off, readOffset State.reset.regs off =
    if off = 0x00 then 0x5050434D else if off = 0x04 then 0x00000001 else if off = 0x64 then 0x00000001 else 0) ∧
  State.reset.latch = none ∧ State.reset.regs.irq = false

/-- R300, R302: the reset input and a write to CTRL with bit 31 have the same effect, busy or not: the reset registers, an empty
latch, and no byte of memory changed outside the whole output range of the command it aborts, from the snapshot's DST on
(WritersKeepOtherMemory's ranges); with an illegal word in flight, which has no output, or none, memory is as it was. Every
output byte of an aborted CHUNK_PUT is a fresh free value once its range checks pass, whatever its source reads: that a command
failing a check before any access has no output range is the model's reading of R302 (log 6), the free value's form its choice
(log 3), and so is that the reset input keeps memory as CTRL's reset does, a power-on being no step of a run (log 21). -/
def Obligations.ResetSourcesAgree : Prop :=
  ∀ (s : State) (v : Word) (rest : List Event), s.cfg.wellFormed = true → v.getLsbD 31 = true →
    step { s with sched := .resetInput :: rest } =
      step { s with sched := .regWrite (s.cfg.regBase + 0x08) .w32 v :: rest } ∧
    ∃ t, step { s with sched := .resetInput :: rest } = .next t ∧ t.regs = Regs.reset ∧ t.latch = none ∧ t.sched = rest ∧
      (s.latch = none → t.mem = s.mem) ∧
      ∀ l : Latch, s.latch = some l →
        let x := l.regs
        (∀ d, decode l.word = .error d → t.mem = s.mem) ∧
        (∀ i a, decode l.word = .ok i → Outside x.dst.toNat (outputSpan i x) a → Memory.get t.mem a = Memory.get s.mem a) ∧
        (∀ a, decode l.word = .ok .chunkPut → Fits x.src x.len.toNat → Fits x.dst (12 + x.len.toNat) →
          ¬ Outside x.dst.toNat (12 + x.len.toNat) a → Memory.get t.mem a = Config.freeByte s.draws a)

/-! ### Every command -/

/-- R246, R247, R270, R271, R319: every command on every state answers a next state with BUSY = 0 and the latch empty. Either DONE
is set and ERR and the error registers are as before, or an error of one of the nine classes is recorded and no other register
changes. -/
def Obligations.CompletionOutcome : Prop :=
  ∀ (i : Instr) (s : State), ∃ t, exec i s = .next t ∧ t.latch = none ∧ t.regs.busy = false ∧ t.cfg = s.cfg ∧
    t.sched = s.sched ∧ t.reply = s.reply ∧
    ((t.regs.done = true ∧ t.regs.err = s.regs.err ∧ t.regs.errinfo = s.regs.errinfo ∧ t.regs.erraddr = s.regs.erraddr ∧
        t.regs.errdata = s.regs.errdata) ∨
      (∃ code detail, 1 ≤ code ∧ code ≤ 9 ∧ detail ≤ 8 ∧
        t.regs = s.failedRegs code detail t.regs.erraddr t.regs.errdata))

/-- R30, R41, R48, R311: the "written by" column. A register of the window that a command changes is STATUS, an error register,
or one the table says that command writes. -/
def Obligations.OnlyNamedCommandsWrite : Prop :=
  ∀ (i : Instr) (s t : State) (off : Nat), exec i s = .next t → readOffset t.regs off ≠ readOffset s.regs off →
    off = 0x0C ∨ off = 0x14 ∨ off = 0x18 ∨ off = 0x1C ∨
    (off = 0x20 ∧ (i ∈ [.magicChk, .chunkPut, .chunkGet, .ihdrGet, .hdrScan, .dataGet, .scanFrame, .scanUnframe] ∨
      ∃ f l, i = .mergePiece f l)) ∨
    (off = 0x28 ∧ (i ∈ [.magicPut, .chunkPut, .ihdrPut, .descPut, .scanFrame, .scanUnframe] ∨
      (∃ f l, i = .mergePiece f l) ∨ ∃ f l, i = .splitPiece f l)) ∨
    ((off = 0x30 ∨ off = 0x34 ∨ off = 0x38) ∧ i ∈ [.chunkGet, .ihdrGet, .hdrScan, .dataGet]) ∨
    (off = 0x3C ∧ (i ∈ [.chunkPut, .chunkGet, .ihdrPut, .ihdrGet, .descPut, .hdrScan, .dataGet] ∨
      ∃ f l, i = .mergePiece f l)) ∨
    ((off = 0x40 ∨ off = 0x44) ∧ i = .ihdrGet) ∨
    (off = 0x4C ∧ i ∈ [.bandCfg, .hdrScan]) ∨
    (off = 0x5C ∧ i ∈ [.cmbInit, .cmbLoad, .cmbFold, .adlFold]) ∨
    (off = 0x60 ∧ i = .cmbPair) ∨
    ((off = 0x64 ∨ off = 0x68) ∧ i ∈ [.adlInit, .scanFrame, .scanUnframe]) ∨
    (off = 0x6C ∧ ∃ f, i = .splitPiece f true) ∨
    (off = 0x70 ∧ i = .hdrScan)

/-- R39, R40, R272: the commands that store nothing leave every byte of memory as it was, with or without error. -/
def Obligations.ReadersKeepMemory : Prop :=
  ∀ (i : Instr) (s t : State), exec i s = .next t →
    (i ∈ [.nop, .magicChk, .chunkGet, .ihdrGet, .hdrScan, .dataGet, .bandCfg, .cmbInit, .cmbLoad, .cmbFold, .cmbPair, .adlInit,
      .adlFold] ∨ ∃ sel e, i = .trlChk sel e) →
    ∀ a, Memory.get t.mem a = Memory.get s.mem a

/-- R40, R272: a command that stores changes no byte outside the bytes from DST on that its rule writes, with or without error:
8 for MAGIC_PUT, 12 + LEN for CHUNK_PUT, 25 for IHDR_PUT, 17 for DESC_PUT, the framed band for SCAN_FRAME, 12 + the body for
MERGE_PIECE, the fragment for SPLIT_PIECE, the pixel bytes for SCAN_UNFRAME. -/
def Obligations.WritersKeepOtherMemory : Prop :=
  ∀ (s t : State) (a : Nat),
    let x := s.operands
    let d := x.dst.toNat
    (exec .magicPut s = .next t → Outside d 8 a → Memory.get t.mem a = Memory.get s.mem a) ∧
    (exec .chunkPut s = .next t → Outside d (12 + x.len.toNat) a → Memory.get t.mem a = Memory.get s.mem a) ∧
    (exec .ihdrPut s = .next t → Outside d 25 a → Memory.get t.mem a = Memory.get s.mem a) ∧
    (exec .descPut s = .next t → Outside d 17 a → Memory.get t.mem a = Memory.get s.mem a) ∧
    (exec .scanFrame s = .next t → Outside d ((3 * x.width.toNat + 1) * x.pieceH.toNat) a →
      Memory.get t.mem a = Memory.get s.mem a) ∧
    (∀ f l, exec (.mergePiece f l) s = .next t → Outside d (12 + (x.len.toNat - mergeHead f)) a →
      Memory.get t.mem a = Memory.get s.mem a) ∧
    (∀ f l, exec (.splitPiece f l) s = .next t → Outside d (x.blen.toNat - splitHead f - tailBytes l) a →
      Memory.get t.mem a = Memory.get s.mem a) ∧
    (exec .scanUnframe s = .next t →
      Outside d (x.len.toNat / (3 * x.width.toNat + 1) * (3 * x.width.toNat)) a →
      Memory.get t.mem a = Memory.get s.mem a)

/-! ### Control and chunk framer -/

/-- R240: NOP completes with DONE and nothing else. -/
def Obligations.NopCompletes : Prop :=
  decode 0x00000000 = .ok .nop ∧ ∀ s : State, Finishes .nop s s.mem (fun r => r)

/-- R136: MAGIC_PUT writes the signature at DST and advances DST by 8, mod 2^32; a buffer that crosses 2^32 is
RangeError(WRAP), a refused write BusError(WRITE) at its address. -/
def Obligations.MagicPutRule : Prop :=
  decode 0x00000010 = .ok .magicPut ∧ ∀ s : State,
    let x := s.operands
    (¬ Fits x.dst 8 → Fails .magicPut s 8 1 x.dst 0) ∧
    (Fits x.dst 8 → Completes s.cfg .write x.dst.toNat 8 →
      Finishes .magicPut s (Memory.store s.mem x.dst.toNat [0x89, 0x50, 0x4E, 0x47, 0x0D, 0x0A, 0x1A, 0x0A])
        (fun r => { r with dst := x.dst + 8 })) ∧
    (∀ k, Fits x.dst 8 → RefusedAt s.cfg .write x.dst.toNat 8 k →
      FailsWriting .magicPut s 9 2 (BitVec.ofNat 32 (x.dst.toNat + k)) 0 x.dst.toNat 8)

/-- R137: MAGIC_CHK, with its exceptions in order: TRUNC, BusError(READ), MAGIC. -/
def Obligations.MagicChkRule : Prop :=
  decode 0x00000011 = .ok .magicChk ∧ ∀ s : State,
    let x := s.operands
    let p := x.src.toNat
    (x.srcEnd.toNat < p + 8 → Fails .magicChk s 1 3 x.src 0) ∧
    (∀ k, p + 8 ≤ x.srcEnd.toNat → RefusedAt s.cfg .read p 8 k → Fails .magicChk s 9 1 (BitVec.ofNat 32 (p + k)) 0) ∧
    (p + 8 ≤ x.srcEnd.toNat → Completes s.cfg .read p 8 → Memory.bytes s.mem p 8 ≠ magicBytes →
      Fails .magicChk s 1 1 x.src 0) ∧
    (p + 8 ≤ x.srcEnd.toNat → Completes s.cfg .read p 8 → Memory.bytes s.mem p 8 = magicBytes →
      Finishes .magicChk s s.mem (fun r => { r with src := x.src + 8 }))

/-- R138, R132, R89: CHUNK_PUT frames the LEN bytes at SRC as one chunk at DST, with its exceptions in order. Where the two
buffers overlap the registers are the same and only the output bytes are unspecified. -/
def Obligations.ChunkPutRule : Prop :=
  decode 0x00000012 = .ok .chunkPut ∧ ∀ s : State,
    let x := s.operands
    let n := x.len.toNat
    let b := Memory.bytes s.mem x.src.toNat n
    let c := crc32 (be32 x.tag ++ b)
    let f := fun r : Regs => { r with crc := c, src := x.src + x.len, dst := x.dst + 12 + x.len }
    (¬ Fits x.src n → Fails .chunkPut s 8 1 x.src 0) ∧
    (Fits x.src n → ¬ Fits x.dst (12 + n) → Fails .chunkPut s 8 1 x.dst 0) ∧
    (∀ k, Fits x.src n → Fits x.dst (12 + n) → RefusedAt s.cfg .read x.src.toNat n k →
      FailsWriting .chunkPut s 9 1 (BitVec.ofNat 32 (x.src.toNat + k)) 0 x.dst.toNat (12 + n)) ∧
    (∀ k, Fits x.src n → Fits x.dst (12 + n) → Completes s.cfg .read x.src.toNat n →
      RefusedAt s.cfg .write x.dst.toNat (12 + n) k →
      FailsWriting .chunkPut s 9 2 (BitVec.ofNat 32 (x.dst.toNat + k)) 0 x.dst.toNat (12 + n)) ∧
    (Fits x.src n → Fits x.dst (12 + n) → Completes s.cfg .read x.src.toNat n →
      Completes s.cfg .write x.dst.toNat (12 + n) →
      AnswersWith .chunkPut s { f s.regs with done := true, busy := false } x.dst.toNat (12 + n) (fun _ => True) ∧
      (Apart x.src.toNat n x.dst.toNat (12 + n) →
        Finishes .chunkPut s (Memory.store s.mem x.dst.toNat (be32 x.len ++ be32 x.tag ++ b ++ be32 c)) f))

/-- R134: what ChunkRead answers, its checks in order, for every stream and every memory. -/
def Obligations.ChunkReadRule : Prop :=
  ∀ (v : View) (p stop : Nat),
    let n := chunkLen v.mem p
    let c := crc32 (be32 (chunkTag v.mem p) ++ chunkBody v.mem p)
    (stop < p + 8 → chunkRead v p stop = .error (framingErr .trunc (BitVec.ofNat 32 p) 0)) ∧
    (∀ k, p + 8 ≤ stop → RefusedAt v.cfg .read p 8 k → chunkRead v p stop = .error (busErr .read (p + k))) ∧
    (p + 8 ≤ stop → Completes v.cfg .read p 8 → stop < p + 12 + n →
      chunkRead v p stop = .error (framingErr .trunc (BitVec.ofNat 32 p) 0)) ∧
    (∀ k, p + 12 + n ≤ stop → Completes v.cfg .read p 8 → RefusedAt v.cfg .read (p + 8) (n + 4) k →
      chunkRead v p stop = .error (busErr .read (p + 8 + k))) ∧
    (p + 12 + n ≤ stop → Completes v.cfg .read p (12 + n) → storedCrc v.mem p ≠ c →
      chunkRead v p stop = .error (framingErr .crc (BitVec.ofNat 32 p) c)) ∧
    (GoodChunk v.cfg v.mem p stop →
      chunkRead v p stop = .ok ⟨n, chunkTag v.mem p, p + 8, c, p + 12 + n, chunkBody v.mem p⟩)

/-- R139, R135: CHUNK_GET on a good chunk of any tag, and on one that ChunkRead rejects. -/
def Obligations.ChunkGetRule : Prop :=
  decode 0x00000013 = .ok .chunkGet ∧ ∀ s : State,
    let x := s.operands
    let p := x.src.toNat
    let t := chunkTag s.mem p
    (GoodChunk s.cfg s.mem p x.srcEnd.toNat →
      Finishes .chunkGet s s.mem (fun r => { r with
        tag := t, blen := BitVec.ofNat 32 (chunkLen s.mem p), body := x.src + 8, crc := storedCrc s.mem p,
        src := x.src + 12 + BitVec.ofNat 32 (chunkLen s.mem p),
        kind := if t = s.cfg.tagDesc then .descriptor else if t = 0x49444154 then .data
          else if t = 0x49454E44 then .terminator else .other })) ∧
    (∀ e, chunkRead s.view p x.srcEnd.toNat = .error e →
      Fails .chunkGet s (errCode e.kind).toNat (errDetail e.kind).toNat e.addr e.data)

/-- R141, R140: IHDR_PUT writes the 25-byte header chunk of the fixed profile, with its exceptions in order. -/
def Obligations.IhdrPutRule : Prop :=
  decode 0x00000014 = .ok .ihdrPut ∧ ∀ s : State,
    let x := s.operands
    let b : List Byte := be32 x.width ++ be32 x.height ++ [0x08, 0x02, 0x00, 0x00, 0x00]
    let c := crc32 ([0x49, 0x48, 0x44, 0x52] ++ b)
    (x.width = 0 ∨ x.height = 0 → Fails .ihdrPut s 2 6 0 0) ∧
    (x.width ≠ 0 → x.height ≠ 0 →
      (¬ Fits x.dst 25 → Fails .ihdrPut s 8 1 x.dst 0) ∧
      (∀ k, Fits x.dst 25 → RefusedAt s.cfg .write x.dst.toNat 25 k →
        FailsWriting .ihdrPut s 9 2 (BitVec.ofNat 32 (x.dst.toNat + k)) 0 x.dst.toNat 25) ∧
      (Fits x.dst 25 → Completes s.cfg .write x.dst.toNat 25 →
        Finishes .ihdrPut s
          (Memory.store s.mem x.dst.toNat ([0x00, 0x00, 0x00, 0x0D, 0x49, 0x48, 0x44, 0x52] ++ b ++ be32 c))
          (fun r => { r with crc := c, dst := x.dst + 25 })))

/-- R142: IHDR_GET on a good header chunk of the fixed profile unpacks WIDTH and HEIGHT and starts a new file. -/
def Obligations.IhdrGetCompletes : Prop :=
  decode 0x00000015 = .ok .ihdrGet ∧ ∀ s : State,
    let x := s.operands
    let p := x.src.toNat
    let w := u32be (Memory.bytes s.mem (p + 8) 4) 0
    let h := u32be (Memory.bytes s.mem (p + 12) 4) 0
    GoodChunk s.cfg s.mem p x.srcEnd.toNat → chunkTag s.mem p = 0x49484452 → chunkLen s.mem p = 13 → w ≠ 0 → h ≠ 0 →
    Memory.bytes s.mem (p + 16) 5 = [8, 2, 0, 0, 0] →
    Finishes .ihdrGet s s.mem (fun r => { r with
      width := w, height := h, tag := 0x49484452, blen := 13, body := x.src + 8, crc := storedCrc s.mem p,
      src := x.src + 25, kind := .other, descSeen := false })

/-- R142, R263: IHDR_GET's rejections in order: what ChunkRead rejects, NOT_IHDR, HDRLEN, ZERO_DIM, then the five fixed fields in
wire order, each with the address of the byte and the byte. -/
def Obligations.IhdrGetRejects : Prop :=
  ∀ s : State,
    let x := s.operands
    let p := x.src.toNat
    let t := chunkTag s.mem p
    let n := chunkLen s.mem p
    let w := u32be (Memory.bytes s.mem (p + 8) 4) 0
    let h := u32be (Memory.bytes s.mem (p + 12) 4) 0
    let fld := fun i : Nat => Memory.get s.mem (p + 8 + i)
    let bad := fun (i d : Nat) => Fails .ihdrGet s 2 d (BitVec.ofNat 32 (p + 8 + i)) (BitVec.ofNat 32 (fld i).toNat)
    (∀ e, chunkRead s.view p x.srcEnd.toNat = .error e →
      Fails .ihdrGet s (errCode e.kind).toNat (errDetail e.kind).toNat e.addr e.data) ∧
    (GoodChunk s.cfg s.mem p x.srcEnd.toNat →
      (t ≠ 0x49484452 → Fails .ihdrGet s 5 1 x.src t) ∧
      (t = 0x49484452 → n ≠ 13 → Fails .ihdrGet s 1 6 x.src (BitVec.ofNat 32 n)) ∧
      (t = 0x49484452 → n = 13 → w = 0 ∨ h = 0 → Fails .ihdrGet s 2 6 x.src 0) ∧
      (t = 0x49484452 → n = 13 → w ≠ 0 → h ≠ 0 →
        (fld 8 ≠ 8 → bad 8 1) ∧
        (fld 8 = 8 → fld 9 ≠ 2 → bad 9 2) ∧
        (fld 8 = 8 → fld 9 = 2 → fld 10 ≠ 0 → bad 10 3) ∧
        (fld 8 = 8 → fld 9 = 2 → fld 10 = 0 → fld 11 ≠ 0 → bad 11 4) ∧
        (fld 8 = 8 → fld 9 = 2 → fld 10 = 0 → fld 11 = 0 → fld 12 ≠ 0 → bad 12 5)))

/-- R144, R143: DESC_PUT writes the 17-byte descriptor chunk, with its exceptions in order. -/
def Obligations.DescPutRule : Prop :=
  decode 0x00000016 = .ok .descPut ∧ ∀ s : State,
    let x := s.operands
    let b : List Byte := be32 x.pieceH ++ [0x01]
    let c := crc32 (be32 s.cfg.tagDesc ++ b)
    (x.pieceH = 0 → Fails .descPut s 3 4 0 0) ∧
    (x.pieceH ≠ 0 → x.height.toNat % x.pieceH.toNat ≠ 0 →
      Fails .descPut s 3 3 0 (BitVec.ofNat 32 (x.height.toNat % x.pieceH.toNat))) ∧
    (x.pieceH ≠ 0 → x.height.toNat % x.pieceH.toNat = 0 →
      (¬ Fits x.dst 17 → Fails .descPut s 8 1 x.dst 0) ∧
      (∀ k, Fits x.dst 17 → RefusedAt s.cfg .write x.dst.toNat 17 k →
        FailsWriting .descPut s 9 2 (BitVec.ofNat 32 (x.dst.toNat + k)) 0 x.dst.toNat 17) ∧
      (Fits x.dst 17 → Completes s.cfg .write x.dst.toNat 17 →
        Finishes .descPut s
          (Memory.store s.mem x.dst.toNat ([0x00, 0x00, 0x00, 0x05] ++ be32 s.cfg.tagDesc ++ b ++ be32 c))
          (fun r => { r with crc := c, dst := x.dst + 17 })))

/-- R145: HDR_SCAN skips any number of unrecognised good chunks, counts them, and stops past the descriptor. -/
def Obligations.HdrScanStopsAtDescriptor : Prop :=
  ∀ (s : State) (k q : Nat),
    let x := s.operands
    let ph := u32be (Memory.bytes s.mem (q + 8) 4) 0
    SkipsTo s.cfg s.mem x.srcEnd.toNat k x.src.toNat q → GoodChunk s.cfg s.mem q x.srcEnd.toNat →
    chunkTag s.mem q = s.cfg.tagDesc → x.descSeen = false → chunkLen s.mem q = 5 →
    (Memory.get s.mem (q + 12)).getLsbD 0 = true → ph ≠ 0 →
    Finishes .hdrScan s s.mem (fun r => { r with
      pieceH := ph, descSeen := true, kind := .descriptor, tag := s.cfg.tagDesc, blen := 5,
      body := BitVec.ofNat 32 (q + 8), crc := storedCrc s.mem q, src := BitVec.ofNat 32 (q + 17),
      skipcnt := BitVec.ofNat 32 k })

/-- R145: HDR_SCAN stops at the first data chunk without consuming it: with a descriptor seen PIECE_H stays; without one it is
HEIGHT where DESC_OPT = 1, and UnsupportedDescriptor(MISSING) where DESC_OPT = 0. -/
def Obligations.HdrScanStopsAtData : Prop :=
  ∀ (s : State) (k q : Nat),
    let x := s.operands
    let stop := fun (ph : Word) (r : Regs) => { r with
      pieceH := ph, kind := .data, tag := 0x49444154, blen := BitVec.ofNat 32 (chunkLen s.mem q),
      body := BitVec.ofNat 32 (q + 8), crc := storedCrc s.mem q, src := BitVec.ofNat 32 q, skipcnt := BitVec.ofNat 32 k }
    s.cfg.wellFormed = true → SkipsTo s.cfg s.mem x.srcEnd.toNat k x.src.toNat q →
    GoodChunk s.cfg s.mem q x.srcEnd.toNat → chunkTag s.mem q = 0x49444154 →
    (x.descSeen = true → Finishes .hdrScan s s.mem (stop s.regs.pieceH)) ∧
    (x.descSeen = false → x.descOpt = true → Finishes .hdrScan s s.mem (stop x.height)) ∧
    (x.descSeen = false → x.descOpt = false → Fails .hdrScan s 3 1 (BitVec.ofNat 32 q) 0)

/-- R145, R264, R266: HDR_SCAN's rejections, at the first chunk it does not skip: what ChunkRead rejects, a second descriptor, a
header or a terminator, and a descriptor of the wrong length, flag or height, in that order. -/
def Obligations.HdrScanRejects : Prop :=
  ∀ (s : State) (k q : Nat),
    let x := s.operands
    let t := chunkTag s.mem q
    let n := chunkLen s.mem q
    let fl := Memory.get s.mem (q + 12)
    s.cfg.wellFormed = true → SkipsTo s.cfg s.mem x.srcEnd.toNat k x.src.toNat q →
    (∀ e, chunkRead s.view q x.srcEnd.toNat = .error e →
      Fails .hdrScan s (errCode e.kind).toNat (errDetail e.kind).toNat e.addr e.data) ∧
    (GoodChunk s.cfg s.mem q x.srcEnd.toNat →
      (t = s.cfg.tagDesc → x.descSeen = true → Fails .hdrScan s 5 2 (BitVec.ofNat 32 q) t) ∧
      (t = 0x49484452 ∨ t = 0x49454E44 → Fails .hdrScan s 5 2 (BitVec.ofNat 32 q) t) ∧
      (t = s.cfg.tagDesc → x.descSeen = false →
        (n ≠ 5 → Fails .hdrScan s 3 5 (BitVec.ofNat 32 q) (BitVec.ofNat 32 n)) ∧
        (n = 5 → fl.getLsbD 0 = false →
          Fails .hdrScan s 3 2 (BitVec.ofNat 32 (q + 12)) (BitVec.ofNat 32 fl.toNat)) ∧
        (n = 5 → fl.getLsbD 0 = true → u32be (Memory.bytes s.mem (q + 8) 4) 0 = 0 →
          Fails .hdrScan s 3 4 (BitVec.ofNat 32 (q + 8)) 0)))

/-- R314 (derived there): HDR_SCAN issued again where it stopped at a data chunk stops there again with the same results. -/
def Obligations.HdrScanIsIdempotentAtData : Prop :=
  ∀ (s t : State) (w : Word), s.cfg.wellFormed = true →
    GoodChunk s.cfg s.mem s.regs.src.toNat s.regs.srcEnd.toNat → chunkTag s.mem s.regs.src.toNat = 0x49444154 →
    s.regs.descSeen = true ∨ s.regs.descOpt = true →
    exec .hdrScan (s.accept w) = .next t → exec .hdrScan (t.accept w) = .next t

/-- R146: DATA_GET takes a data chunk or an empty terminator, and rejects everything else, in order. -/
def Obligations.DataGetRule : Prop :=
  decode 0x00000018 = .ok .dataGet ∧ ∀ s : State,
    let x := s.operands
    let p := x.src.toNat
    let t := chunkTag s.mem p
    let n := chunkLen s.mem p
    let took := fun (k : Kind) (r : Regs) => { r with
      tag := t, blen := BitVec.ofNat 32 n, body := x.src + 8, crc := storedCrc s.mem p,
      src := x.src + 12 + BitVec.ofNat 32 n, kind := k }
    (∀ e, chunkRead s.view p x.srcEnd.toNat = .error e →
      Fails .dataGet s (errCode e.kind).toNat (errDetail e.kind).toNat e.addr e.data) ∧
    (GoodChunk s.cfg s.mem p x.srcEnd.toNat →
      (t = 0x49444154 → Finishes .dataGet s s.mem (took .data)) ∧
      (t = 0x49454E44 → n = 0 → Finishes .dataGet s s.mem (took .terminator)) ∧
      (t = 0x49454E44 → n ≠ 0 → Fails .dataGet s 1 7 x.src (BitVec.ofNat 32 n)) ∧
      (t ≠ 0x49444154 → t ≠ 0x49454E44 → Fails .dataGet s 5 3 x.src t))

/-! ### Splitter and merger -/

/-- R181: BAND_CFG sets PIECE_H to HEIGHT / NPIECES where it divides and the framed band fits 32 bits, with its exceptions in
order. -/
def Obligations.BandCfgRule : Prop :=
  decode 0x00000020 = .ok .bandCfg ∧ ∀ s : State,
    let x := s.operands
    let h := x.height.toNat
    let n := x.npieces.toNat
    (x.width = 0 ∨ x.height = 0 → Fails .bandCfg s 2 6 0 0) ∧
    (x.width ≠ 0 → x.height ≠ 0 →
      (n = 0 → Fails .bandCfg s 3 4 0 0) ∧
      (n ≠ 0 → h % n ≠ 0 → Fails .bandCfg s 3 3 0 (BitVec.ofNat 32 (h % n))) ∧
      (n ≠ 0 → h % n = 0 → 4294967296 ≤ (3 * x.width.toNat + 1) * (h / n) → Fails .bandCfg s 8 2 0 0) ∧
      (n ≠ 0 → h % n = 0 → (3 * x.width.toNat + 1) * (h / n) < 4294967296 →
        Finishes .bandCfg s s.mem (fun r => { r with pieceH := BitVec.ofNat 32 (h / n) })))

/-- R182: SCAN_FRAME's checks before any access, in order. -/
def Obligations.ScanFrameChecks : Prop :=
  ∀ s : State,
    let x := s.operands
    let rb := 3 * x.width.toNat
    let rows := x.pieceH.toNat
    let out := (rb + 1) * rows
    (x.width = 0 → Fails .scanFrame s 2 6 0 0) ∧
    (x.width ≠ 0 → x.pieceH = 0 → Fails .scanFrame s 3 4 0 0) ∧
    (x.width ≠ 0 → x.pieceH ≠ 0 →
      (4294967296 ≤ out → Fails .scanFrame s 8 2 0 0) ∧
      (out < 4294967296 → ¬ Fits x.src (rb * rows) → Fails .scanFrame s 8 1 x.src 0) ∧
      (out < 4294967296 → Fits x.src (rb * rows) → ¬ Fits x.dst out → Fails .scanFrame s 8 1 x.dst 0) ∧
      (out < 4294967296 → Fits x.src (rb * rows) → Fits x.dst out → 4294967296 ≤ x.adlLen.toNat + out →
        Fails .scanFrame s 8 2 0 0))

/-- R182, R211, R89: SCAN_FRAME writes each row behind a filter byte 0, and runs ADL over the framed bytes. Where the buffers
overlap only the output bytes are unspecified, and ADL runs over the source bytes as they stood before the command: U3 says that
register results are computed from those, and that a later row finds them too is the model's reading (log 5). -/
def Obligations.ScanFrameCompletes : Prop :=
  ∀ s : State,
    let x := s.operands
    let rb := 3 * x.width.toNat
    let rows := x.pieceH.toNat
    let out := (rb + 1) * rows
    x.width ≠ 0 → x.pieceH ≠ 0 → out < 4294967296 → Fits x.src (rb * rows) → Fits x.dst out →
    x.adlLen.toNat + out < 4294967296 → Completes s.cfg .read x.src.toNat (rb * rows) →
    Completes s.cfg .write x.dst.toNat out →
    AnswersWith .scanFrame s
      { s.regs with
        adl := adlerUpdate x.adl (framedRows s.mem rb x.src.toNat rows), adlLen := x.adlLen + BitVec.ofNat 32 out,
        src := x.src + BitVec.ofNat 32 (rb * rows), dst := x.dst + BitVec.ofNat 32 out, done := true, busy := false }
      x.dst.toNat out
      (fun t => Apart x.src.toNat (rb * rows) x.dst.toNat out → ∀ r, r < rows →
        Memory.get t.mem (x.dst.toNat + r * (rb + 1)) = 0 ∧
        ∀ j, j < rb →
          Memory.get t.mem (x.dst.toNat + r * (rb + 1) + 1 + j) = Memory.get s.mem (x.src.toNat + r * rb + j))

/-- R182, R272, R275: SCAN_FRAME's bus errors row by row. The rows before row `r` pass. A refused read of the first row comes
before any write (log 4), so no byte changes; every later refusal leaves the output range unspecified. -/
def Obligations.ScanFrameBusErrors : Prop :=
  ∀ (s : State) (r k : Nat),
    let x := s.operands
    let rb := 3 * x.width.toNat
    let rows := x.pieceH.toNat
    let out := (rb + 1) * rows
    x.width ≠ 0 → out < 4294967296 → Fits x.src (rb * rows) → Fits x.dst out →
    x.adlLen.toNat + out < 4294967296 → r < rows → Completes s.cfg .read x.src.toNat (r * rb) →
    Completes s.cfg .write x.dst.toNat (r * (rb + 1)) →
    (r = 0 → RefusedAt s.cfg .read x.src.toNat rb k →
      Fails .scanFrame s 9 1 (BitVec.ofNat 32 (x.src.toNat + k)) 0) ∧
    (0 < r → RefusedAt s.cfg .read (x.src.toNat + r * rb) rb k →
      FailsWriting .scanFrame s 9 1 (BitVec.ofNat 32 (x.src.toNat + r * rb + k)) 0 x.dst.toNat out) ∧
    (Completes s.cfg .read (x.src.toNat + r * rb) rb → RefusedAt s.cfg .write (x.dst.toNat + r * (rb + 1)) (rb + 1) k →
      FailsWriting .scanFrame s 9 2 (BitVec.ofNat 32 (x.dst.toNat + r * (rb + 1) + k)) 0 x.dst.toNat out)

/-- R184, R89: MERGE_PIECE. Without F the two header bytes are stripped, with L the four trailer bytes are replaced by ACC; its
exceptions in order. Where the source buffer and the output overlap the registers are the same. -/
def Obligations.MergePieceRule : Prop :=
  decode 0x00000022 = .ok (.mergePiece false false) ∧ decode 0x00000122 = .ok (.mergePiece true false) ∧
  decode 0x00000222 = .ok (.mergePiece false true) ∧ decode 0x00000322 = .ok (.mergePiece true true) ∧
  ∀ (s : State) (f l : Bool),
    let x := s.operands
    let k := x.len.toNat
    let hs := if f = true then 0 else 2
    let ts := if l = true then 4 else 0
    let b := Memory.bytes s.mem (x.src.toNat + hs) (k - hs - ts)
    let body := if l = true then b ++ be32 x.acc else b
    let m := k - hs
    let c := crc32 ([0x49, 0x44, 0x41, 0x54] ++ body)
    let g := fun r : Regs => { r with crc := c, src := x.src + x.len, dst := x.dst + 12 + BitVec.ofNat 32 m }
    (l = true → x.accValid = false → Fails (.mergePiece f l) s 7 1 0 0) ∧
    (l = false ∨ x.accValid = true →
      (k < hs + ts → Fails (.mergePiece f l) s 1 4 x.src x.len) ∧
      (hs + ts ≤ k →
        (¬ Fits x.src k → Fails (.mergePiece f l) s 8 1 x.src 0) ∧
        (Fits x.src k → ¬ Fits x.dst (12 + m) → Fails (.mergePiece f l) s 8 1 x.dst 0) ∧
        (∀ j, Fits x.src k → Fits x.dst (12 + m) → RefusedAt s.cfg .read (x.src.toNat + hs) (k - hs - ts) j →
          FailsWriting (.mergePiece f l) s 9 1 (BitVec.ofNat 32 (x.src.toNat + hs + j)) 0 x.dst.toNat (12 + m)) ∧
        (∀ j, Fits x.src k → Fits x.dst (12 + m) → Completes s.cfg .read (x.src.toNat + hs) (k - hs - ts) →
          RefusedAt s.cfg .write x.dst.toNat (12 + m) j →
          FailsWriting (.mergePiece f l) s 9 2 (BitVec.ofNat 32 (x.dst.toNat + j)) 0 x.dst.toNat (12 + m)) ∧
        (Fits x.src k → Fits x.dst (12 + m) → Completes s.cfg .read (x.src.toNat + hs) (k - hs - ts) →
          Completes s.cfg .write x.dst.toNat (12 + m) →
          AnswersWith (.mergePiece f l) s { g s.regs with done := true, busy := false } x.dst.toNat (12 + m)
            (fun _ => True) ∧
          (Apart x.src.toNat k x.dst.toNat (12 + m) →
            Finishes (.mergePiece f l) s
              (Memory.store s.mem x.dst.toNat
                (be32 (BitVec.ofNat 32 m) ++ [0x49, 0x44, 0x41, 0x54] ++ body ++ be32 c)) g))))

/-- R185, R89: SPLIT_PIECE. With F the two header bytes are dropped, with L the four trailer bytes go to TRAILER; its exceptions
in order, the reads before the write. Where the body and the output overlap the registers are the same. -/
def Obligations.SplitPieceRule : Prop :=
  decode 0x00000023 = .ok (.splitPiece false false) ∧ decode 0x00000123 = .ok (.splitPiece true false) ∧
  decode 0x00000223 = .ok (.splitPiece false true) ∧ decode 0x00000323 = .ok (.splitPiece true true) ∧
  ∀ (s : State) (f l : Bool),
    let x := s.operands
    let k := x.blen.toNat
    let hs := if f = true then 2 else 0
    let ts := if l = true then 4 else 0
    let m := k - hs - ts
    let d := Memory.bytes s.mem (x.body.toNat + hs) m
    let tr := u32be (Memory.bytes s.mem (x.body.toNat + k - 4) 4) 0
    let g := fun r : Regs => { r with trailer := if l = true then tr else r.trailer, dst := x.dst + BitVec.ofNat 32 m }
    (k < hs + ts → Fails (.splitPiece f l) s 1 4 x.body x.blen) ∧
    (hs + ts ≤ k →
      (¬ Fits x.body k → Fails (.splitPiece f l) s 8 1 x.body 0) ∧
      (Fits x.body k → ¬ Fits x.dst m → Fails (.splitPiece f l) s 8 1 x.dst 0) ∧
      (∀ j, Fits x.body k → Fits x.dst m → RefusedAt s.cfg .read (x.body.toNat + hs) (m + ts) j →
        FailsWriting (.splitPiece f l) s 9 1 (BitVec.ofNat 32 (x.body.toNat + hs + j)) 0 x.dst.toNat m) ∧
      (∀ j, Fits x.body k → Fits x.dst m → Completes s.cfg .read (x.body.toNat + hs) (m + ts) →
        RefusedAt s.cfg .write x.dst.toNat m j →
        FailsWriting (.splitPiece f l) s 9 2 (BitVec.ofNat 32 (x.dst.toNat + j)) 0 x.dst.toNat m) ∧
      (Fits x.body k → Fits x.dst m → Completes s.cfg .read (x.body.toNat + hs) (m + ts) →
        Completes s.cfg .write x.dst.toNat m →
        AnswersWith (.splitPiece f l) s { g s.regs with done := true, busy := false } x.dst.toNat m (fun _ => True) ∧
        (Apart x.body.toNat k x.dst.toNat m →
          Finishes (.splitPiece f l) s (Memory.store s.mem x.dst.toNat d) g)))

/-- R272, R83 (that a refused read comes before any write is the model's reading, log 4): a read that CHUNK_PUT, MERGE_PIECE or
SPLIT_PIECE is refused leaves every byte of memory as it was. -/
def Obligations.RefusedReadsKeepMemory : Prop :=
  ∀ s : State,
    let x := s.operands
    (∀ k, Fits x.src x.len.toNat → Fits x.dst (12 + x.len.toNat) → RefusedAt s.cfg .read x.src.toNat x.len.toNat k →
      Fails .chunkPut s 9 1 (BitVec.ofNat 32 (x.src.toNat + k)) 0) ∧
    (∀ (f l : Bool) (j : Nat),
      let k := x.len.toNat
      let hs := if f = true then 0 else 2
      let ts := if l = true then 4 else 0
      l = false ∨ x.accValid = true → hs + ts ≤ k → Fits x.src k → Fits x.dst (12 + (k - hs)) →
      RefusedAt s.cfg .read (x.src.toNat + hs) (k - hs - ts) j →
      Fails (.mergePiece f l) s 9 1 (BitVec.ofNat 32 (x.src.toNat + hs + j)) 0) ∧
    (∀ (f l : Bool) (j : Nat),
      let k := x.blen.toNat
      let hs := if f = true then 2 else 0
      let ts := if l = true then 4 else 0
      hs + ts ≤ k → Fits x.body k → Fits x.dst (k - hs - ts) → RefusedAt s.cfg .read (x.body.toNat + hs) (k - hs) j →
      Fails (.splitPiece f l) s 9 1 (BitVec.ofNat 32 (x.body.toNat + hs + j)) 0)

/-- R186: SCAN_UNFRAME's checks before any access, in order. -/
def Obligations.ScanUnframeChecks : Prop :=
  ∀ s : State,
    let x := s.operands
    let k := x.len.toNat
    let rb := 3 * x.width.toNat
    let st := rb + 1
    (x.width = 0 → Fails .scanUnframe s 2 6 0 0) ∧
    (x.width ≠ 0 → 4294967296 ≤ st → Fails .scanUnframe s 8 2 0 0) ∧
    (x.width ≠ 0 → st < 4294967296 → k % st ≠ 0 → Fails .scanUnframe s 1 5 x.src (BitVec.ofNat 32 (k % st))) ∧
    (x.width ≠ 0 → st < 4294967296 → k % st = 0 →
      (¬ Fits x.src k → Fails .scanUnframe s 8 1 x.src 0) ∧
      (Fits x.src k → ¬ Fits x.dst (k / st * rb) → Fails .scanUnframe s 8 1 x.dst 0) ∧
      (Fits x.src k → Fits x.dst (k / st * rb) → 4294967296 ≤ x.adlLen.toNat + k → Fails .scanUnframe s 8 2 0 0))

/-- R186, R211, R89: SCAN_UNFRAME on rows whose filter bytes are all 0 writes the pixel bytes one row after the other, and runs
ADL over the LEN bytes it consumed. Where the buffers overlap the filter bytes checked and the bytes ADL runs over are those that
stood before the command: U3 says that register results are computed from those, and that a later row finds them too is the
model's reading (log 5). -/
def Obligations.ScanUnframeCompletes : Prop :=
  ∀ s : State,
    let x := s.operands
    let k := x.len.toNat
    let rb := 3 * x.width.toNat
    let st := rb + 1
    let rows := k / st
    x.width ≠ 0 → st < 4294967296 → k % st = 0 → Fits x.src k → Fits x.dst (rows * rb) →
    x.adlLen.toNat + k < 4294967296 → Completes s.cfg .read x.src.toNat k →
    Completes s.cfg .write x.dst.toNat (rows * rb) →
    (∀ r, r < rows → Memory.get s.mem (x.src.toNat + r * st) = 0) →
    AnswersWith .scanUnframe s
      { s.regs with
        adl := adlerUpdate x.adl (Memory.bytes s.mem x.src.toNat k), adlLen := x.adlLen + x.len, src := x.src + x.len,
        dst := x.dst + BitVec.ofNat 32 (rows * rb), done := true, busy := false }
      x.dst.toNat (rows * rb)
      (fun t => Apart x.src.toNat k x.dst.toNat (rows * rb) → ∀ r, r < rows → ∀ j, j < rb →
        Memory.get t.mem (x.dst.toNat + r * rb + j) = Memory.get s.mem (x.src.toNat + r * st + 1 + j))

/-- R186, R265, R272, R275: SCAN_UNFRAME's errors row by row. The rows before row `r` pass. The first filter byte that is not 0
is UnsupportedFilter with its address and value. An error in the first row before its write leaves memory as it was (log 4);
every later one leaves the output range unspecified. Where the buffers overlap the filter bytes are those that stood before the
command (the model's reading of U3, log 5). -/
def Obligations.ScanUnframeRowErrors : Prop :=
  ∀ (s : State) (r : Nat),
    let x := s.operands
    let k := x.len.toNat
    let rb := 3 * x.width.toNat
    let st := rb + 1
    let rows := k / st
    let at_ := x.src.toNat + r * st
    let fl := Memory.get s.mem at_
    x.width ≠ 0 → st < 4294967296 → k % st = 0 → Fits x.src k → Fits x.dst (rows * rb) →
    x.adlLen.toNat + k < 4294967296 → r < rows → Completes s.cfg .read x.src.toNat (r * st) →
    Completes s.cfg .write x.dst.toNat (r * rb) →
    (∀ i, i < r → Memory.get s.mem (x.src.toNat + i * st) = 0) →
    (memOK s.cfg .read at_ = false →
      (r = 0 → Fails .scanUnframe s 9 1 (BitVec.ofNat 32 at_) 0) ∧
      (0 < r → FailsWriting .scanUnframe s 9 1 (BitVec.ofNat 32 at_) 0 x.dst.toNat (rows * rb))) ∧
    (memOK s.cfg .read at_ = true → fl ≠ 0 →
      (r = 0 → Fails .scanUnframe s 4 0 (BitVec.ofNat 32 at_) (BitVec.ofNat 32 fl.toNat)) ∧
      (0 < r → FailsWriting .scanUnframe s 4 0 (BitVec.ofNat 32 at_) (BitVec.ofNat 32 fl.toNat) x.dst.toNat (rows * rb))) ∧
    (∀ j, memOK s.cfg .read at_ = true → fl = 0 → RefusedAt s.cfg .read (at_ + 1) rb j →
      (r = 0 → Fails .scanUnframe s 9 1 (BitVec.ofNat 32 (at_ + 1 + j)) 0) ∧
      (0 < r → FailsWriting .scanUnframe s 9 1 (BitVec.ofNat 32 (at_ + 1 + j)) 0 x.dst.toNat (rows * rb))) ∧
    (∀ j, Completes s.cfg .read at_ st → fl = 0 → RefusedAt s.cfg .write (x.dst.toNat + r * rb) rb j →
      FailsWriting .scanUnframe s 9 2 (BitVec.ofNat 32 (x.dst.toNat + r * rb + j)) 0 x.dst.toNat (rows * rb))

/-! ### Checksum combiner -/

/-- R215, R216, R219: CMB_INIT, CMB_LOAD and ADL_INIT. -/
def Obligations.ChecksumStarts : Prop :=
  decode 0x00000030 = .ok .cmbInit ∧ decode 0x00000031 = .ok .cmbLoad ∧ decode 0x00000034 = .ok .adlInit ∧ ∀ s : State,
    Finishes .cmbInit s s.mem (fun r => { r with acc := 0, accValid := false }) ∧
    Finishes .cmbLoad s s.mem (fun r => { r with acc := s.operands.opa, accValid := true }) ∧
    Finishes .adlInit s s.mem (fun r => { r with adl := 0x00000001, adlLen := 0 })

/-- R217, R218, R220, R213: CMB_FOLD and ADL_FOLD take the operand unchanged with no prior checksum and combine otherwise;
CMB_PAIR combines without touching the fold; NCANON is set, and never cleared, by a combination with a half of 65521 or more
(ADL_FOLD examines ACC only). -/
def Obligations.CombiningCommands : Prop :=
  decode 0x00000032 = .ok .cmbFold ∧ decode 0x00000033 = .ok .cmbPair ∧ decode 0x00000035 = .ok .adlFold ∧ ∀ s : State,
    let x := s.operands
    (x.accValid = false →
      Finishes .cmbFold s s.mem (fun r => { r with acc := x.opa, accValid := true }) ∧
      Finishes .adlFold s s.mem (fun r => { r with acc := x.adl, accValid := true })) ∧
    (x.accValid = true →
      Finishes .cmbFold s s.mem (fun r => { r with
        acc := combine x.acc x.opa x.oplen, accValid := true,
        ncanon := r.ncanon || !decide (Canonical x.acc ∧ Canonical x.opa) }) ∧
      Finishes .adlFold s s.mem (fun r => { r with
        acc := combine x.acc x.adl x.adlLen, accValid := true, ncanon := r.ncanon || !decide (Canonical x.acc) })) ∧
    Finishes .cmbPair s s.mem (fun r => { r with
      res := combine x.opa x.opb x.oplen, ncanon := r.ncanon || !decide (Canonical x.opa ∧ Canonical x.opb) })

/-- R221: TRL_CHK compares ADL (S) or ACC with TRAILER, with its exceptions in order. -/
def Obligations.TrlChkRule : Prop :=
  decode 0x00000036 = .ok (.trlChk false false) ∧ decode 0x00000436 = .ok (.trlChk true false) ∧
  decode 0x00000836 = .ok (.trlChk false true) ∧ decode 0x00000C36 = .ok (.trlChk true true) ∧
  ∀ (s : State) (sel e : Bool),
    let x := s.operands
    let v := if sel = true then x.adl else x.acc
    (sel = false → x.accValid = false → Fails (.trlChk sel e) s 7 1 0 0) ∧
    (sel = true ∨ x.accValid = true →
      (v ≠ x.trailer → e = true → Fails (.trlChk sel e) s 1 8 0 v) ∧
      (v ≠ x.trailer → e = false → Finishes (.trlChk sel e) s s.mem (fun r => { r with trlMatch := false })) ∧
      (v = x.trailer → Finishes (.trlChk sel e) s s.mem (fun r => { r with trlMatch := true })))

/-- R212: the combination, half by half, on any operands, and both halves of every result below 65521. -/
def Obligations.CombineFormula : Prop :=
  ∀ c1 c2 n : Word,
    let lo1 := c1.toNat % 65536
    let hi1 := c1.toNat / 65536
    let lo2 := c2.toNat % 65536
    let hi2 := c2.toNat / 65536
    let r := n.toNat % 65521
    (combine c1 c2 n).toNat % 65536 = (lo1 + lo2 + 65521 - 1) % 65521 ∧
    (combine c1 c2 n).toNat / 65536 = (hi1 + hi2 + r * lo1 + 65521 - r) % 65521 ∧ Canonical (combine c1 c2 n)

/-- R214 laws 1 and 6 (derived there): combining the checksums of A and B with the length of B gives the checksum of A ++ B, by the
closed form of R210; so the left-to-right fold of any segments gives the checksum of their concatenation. -/
def Obligations.CombineConcatenates : Prop :=
  (∀ a b : List Byte, b.length < 4294967296 →
    combine (adlerOf a) (adlerOf b) (BitVec.ofNat 32 b.length) = adlerOf (a ++ b)) ∧
  (∀ (first : List Byte) (segs : List (List Byte)), (∀ g ∈ segs, g.length < 4294967296) →
    segs.foldl (fun c g => combine c (adlerOf g) (BitVec.ofNat 32 g.length)) (adlerOf first) = adlerOf (first ++ segs.flatten))

/-- R211 (general knowledge there): the incremental update from the checksum of the empty string, and from any checksum, agrees
with the closed form of R210. -/
def Obligations.AdlerIncremental : Prop :=
  (∀ s : List Byte, adlerUpdate 0x00000001 s = adlerOf s) ∧
  (∀ s t : List Byte, adlerUpdate (adlerOf s) t = adlerOf (s ++ t))

/-! ### Sequences of commands, and rules of the whole machine -/

/-- R148 (derived there): changing any one byte of a good chunk's tag, body or CRC field makes CHUNK_GET fail with
FramingError(CRC), whatever the byte and the chunk; ERRDATA is the CRC of the changed chunk. R130 (its parameters are general
knowledge there): the CRC, here and in every statement about chunks, is the one of its loop, with its check value. -/
def Obligations.ChangedByteIsDetected : Prop :=
  let round := fun c : Word => if c.getLsbD 0 = true then (c >>> 1) ^^^ 0xEDB88320 else c >>> 1
  let byte := fun (c : Word) (b : Byte) => Nat.repeat round 8 (c ^^^ b.zeroExtend 32)
  (∀ bs : List Byte, crc32 bs = bs.foldl byte 0xFFFFFFFF ^^^ 0xFFFFFFFF) ∧
  crc32 [0x31, 0x32, 0x33, 0x34, 0x35, 0x36, 0x37, 0x38, 0x39] = 0xCBF43926 ∧
  ∀ (s : State) (a : Nat) (v : Byte),
    let p := s.operands.src.toNat
    let m := Memory.set s.mem a v
    GoodChunk s.cfg s.mem p s.operands.srcEnd.toNat → p + 4 ≤ a → a < p + 12 + chunkLen s.mem p → v ≠ Memory.get s.mem a →
    Fails .chunkGet { s with mem := m } 1 2 s.operands.src (crc32 (be32 (chunkTag m p) ++ chunkBody m p))

/-- R132, R134, R138, R139: a chunk that CHUNK_PUT wrote is one that CHUNK_GET reads back: the same tag, length and CRC, and BODY
points at the same bytes. -/
def Obligations.ChunkRoundTrip : Prop :=
  ∀ s t u : State,
    let x := s.operands
    let n := x.len.toNat
    Fits x.src n → Fits x.dst (12 + n) → Completes s.cfg .read x.src.toNat n → Completes s.cfg .write x.dst.toNat (12 + n) →
    Apart x.src.toNat n x.dst.toNat (12 + n) → exec .chunkPut s = .next t →
    u.mem = t.mem → Completes u.cfg .read x.dst.toNat (12 + n) → u.operands.src = x.dst →
    x.dst.toNat + 12 + n ≤ u.operands.srcEnd.toNat →
    ∃ w, exec .chunkGet u = .next w ∧ w.regs.done = true ∧ w.regs.tag = x.tag ∧ w.regs.blen = x.len ∧
      w.regs.crc = t.regs.crc ∧ w.regs.src = t.regs.dst ∧
      Memory.bytes w.mem w.regs.body.toNat n = Memory.bytes s.mem x.src.toNat n

/-- R188 (derived there): the band that SCAN_FRAME framed, read back by SCAN_UNFRAME, gives the pixel bytes, and runs ADL over the
same bytes. -/
def Obligations.FrameRoundTrip : Prop :=
  ∀ s t u : State,
    let x := s.operands
    let y := u.operands
    let rb := 3 * x.width.toNat
    let rows := x.pieceH.toNat
    let out := (rb + 1) * rows
    x.width ≠ 0 → x.pieceH ≠ 0 → out < 4294967296 → Fits x.src (rb * rows) → Fits x.dst out →
    x.adlLen.toNat + out < 4294967296 → Completes s.cfg .read x.src.toNat (rb * rows) →
    Completes s.cfg .write x.dst.toNat out → Apart x.src.toNat (rb * rows) x.dst.toNat out →
    exec .scanFrame s = .next t →
    u.mem = t.mem → y.width = x.width → y.src = x.dst → y.len.toNat = out → Fits y.dst (rb * rows) →
    y.adlLen.toNat + out < 4294967296 → Completes u.cfg .read x.dst.toNat out →
    Completes u.cfg .write y.dst.toNat (rb * rows) → Apart x.dst.toNat out y.dst.toNat (rb * rows) →
    ∃ w, exec .scanUnframe u = .next w ∧ w.regs.done = true ∧
      Memory.bytes w.mem y.dst.toNat (rb * rows) = Memory.bytes s.mem x.src.toNat (rb * rows) ∧
      (y.adl = x.adl → w.regs.adl = t.regs.adl)

/-- R301: the invariant holds after reset. -/
def Obligations.InvariantAtReset : Prop := State.reset.Inv

/-- R35, R54, R56, R61, R243 to R247: every step of the block, the host, a codec or the reset keeps the invariant: memory in its
canonical form, the latch full exactly while BUSY = 1 and agreeing with the registers, ADL canonical, DONE and ERR never both
set, ACC 0 with no prior checksum, ERRINFO's top byte 0. -/
def Obligations.StepKeepsInvariant : Prop := ∀ s t : State, s.Inv → step s = .next t → t.Inv

/-- R246: a command's result is a function of the snapshot and the memory bytes it reads. Two memories that agree on the ranges
the command reads give the same registers, and the command reaches the same output range. -/
def Obligations.ResultDependsOnBytesRead : Prop :=
  ∀ (i : Instr) (s t u : State) (m : Memory),
    (∀ r ∈ (reportOf i s.view).input, ∀ a, r.has a = true → Memory.get m a = Memory.get s.mem a) →
    exec i s = .next t → exec i { s with mem := m } = .next u →
    u.regs = t.regs ∧ (reportOf i { s with mem := m }.view).output = (reportOf i s.view).output

/-- R100 (the extent of a command's buffers is the model's reading, log 7): while a CHUNK_PUT that passes its range checks is in
flight, another agent that writes a byte of its input or output, or reads one of its output, is a HostRace; a write apart from
both goes through, at an address MemOK refuses too, since the model's MemOK is the block's port's alone (log 13), and at one
inside the register window, which is plain memory to such an access (log 24). -/
def Obligations.HostRaceFaults : Prop :=
  ∀ (s : State) (l : Latch) (g : Agent) (a : Nat) (bs : List Byte) (rest : List Event),
    let x := l.regs
    let n := x.len.toNat
    s.cfg.wellFormed = true → s.latch = some l → decode l.word = .ok .chunkPut → Fits x.src n → Fits x.dst (12 + n) →
    bs ≠ [] → a + bs.length ≤ 4294967296 →
    (s.sched = .memWrite g a bs :: rest →
      (Apart x.src.toNat n a bs.length ∧ Apart x.dst.toNat (12 + n) a bs.length →
        step s = .next { s with sched := rest, mem := Memory.store s.mem a bs }) ∧
      (¬ (Apart x.src.toNat n a bs.length ∧ Apart x.dst.toNat (12 + n) a bs.length) → step s = .fault .hostRace)) ∧
    (s.sched = .memRead g a bs.length :: rest → ¬ Apart x.dst.toNat (12 + n) a bs.length → step s = .fault .hostRace)

/-- R7: a configuration whose tags are not pairwise distinct is refused, at every step (the model's reading, log 17). Under any
other, an idle block (R303) with an empty schedule stays as it is: that such a state still answers a step, the same state, is the
model's choice (log 8). -/
def Obligations.TagClashRefusedIdleStays : Prop :=
  ∀ s : State,
    (s.cfg.tagDesc = 0x49484452 ∨ s.cfg.tagDesc = 0x49444154 ∨ s.cfg.tagDesc = 0x49454E44 →
      step s = .refused .tagsNotDistinct) ∧
    (s.cfg.wellFormed = true → s.latch = none → s.sched = [] → step s = .next s)
end

