-- ==== Sys2Proof/Laws/Memory.lean ====
section
/-! SUPPORT. The laws of memory: a read after a write, writes elsewhere, and that every memory operation keeps the canonical
form. -/

namespace Sys2Proof.Machine

/-! ### Read after write -/

theorem Memory.lookup_set_self (m : Memory) (a : Nat) (v : Byte) : Memory.lookup (Memory.set m a v) a = some v := by
  induction m with
  | nil => simp [Memory.set, Memory.lookup]
  | cons c rest ih =>
    unfold Memory.set
    split
    · simp [Memory.lookup]
    · split
      · simp [Memory.lookup]
      · have : c.1 ≠ a := by omega
        simp [Memory.lookup, this, ih]

theorem Memory.lookup_set_other (m : Memory) {a b : Nat} (v : Byte) (h : b ≠ a) :
    Memory.lookup (Memory.set m a v) b = Memory.lookup m b := by
  induction m with
  | nil => simp [Memory.set, Memory.lookup, h.symm]
  | cons c rest ih =>
    unfold Memory.set
    split
    · simp [Memory.lookup, h.symm]
    · split
      · have : c.1 ≠ b := by omega
        simp [Memory.lookup, this, h.symm]
      · simp [Memory.lookup, ih]

@[simp] theorem Memory.get_set_self (m : Memory) (a : Nat) (v : Byte) : Memory.get (Memory.set m a v) a = v := by
  simp [Memory.get, Memory.lookup_set_self]

theorem Memory.get_set_other (m : Memory) {a b : Nat} (v : Byte) (h : b ≠ a) :
    Memory.get (Memory.set m a v) b = Memory.get m b := by
  simp [Memory.get, Memory.lookup_set_other m v h]

@[simp] theorem Memory.store_nil (m : Memory) (a : Nat) : Memory.store m a [] = m := rfl

theorem Memory.get_store_outside (m : Memory) (a : Nat) (bs : List Byte) {c : Nat} (h : c < a ∨ a + bs.length ≤ c) :
    Memory.get (Memory.store m a bs) c = Memory.get m c := by
  induction bs generalizing m a with
  | nil => rfl
  | cons b rest ih =>
    simp only [List.length_cons] at h
    simp only [Memory.store]
    rw [ih (Memory.set m a b) (a + 1) (by omega), Memory.get_set_other m b (by omega)]

theorem Memory.get_store_inside (m : Memory) (a : Nat) (bs : List Byte) {k : Nat} (h : k < bs.length) :
    Memory.get (Memory.store m a bs) (a + k) = bs[k] := by
  induction bs generalizing m a k with
  | nil => simp at h
  | cons b rest ih =>
    simp only [Memory.store]
    cases k with
    | zero => rw [Memory.get_store_outside _ _ _ (by omega)]; simp
    | succ j =>
      have := ih (Memory.set m a b) (a + 1) (k := j) (by simpa using h)
      rw [show a + (j + 1) = a + 1 + j by omega, this]
      rfl

/-! ### Byte strings read from memory -/

@[simp] theorem Memory.bytes_length (m : Memory) (a n : Nat) : (Memory.bytes m a n).length = n := by
  induction n generalizing a with
  | zero => rfl
  | succ k ih => simp [Memory.bytes, ih]

theorem Memory.bytes_getElem (m : Memory) (a n k : Nat) (h : k < (Memory.bytes m a n).length) :
    (Memory.bytes m a n)[k] = Memory.get m (a + k) := by
  induction n generalizing a k with
  | zero => simp at h
  | succ j ih =>
    cases k with
    | zero => rfl
    | succ i =>
      have := ih (a + 1) i (by simpa [Memory.bytes] using h)
      simp only [Memory.bytes, List.getElem_cons_succ, this]
      congr 1
      omega

theorem Memory.bytes_append (m : Memory) (a n k : Nat) :
    Memory.bytes m a (n + k) = Memory.bytes m a n ++ Memory.bytes m (a + n) k := by
  induction n generalizing a with
  | zero => simp [Memory.bytes]
  | succ j ih =>
    rw [show j + 1 + k = (j + k) + 1 by omega]
    simp only [Memory.bytes, ih, List.cons_append]
    rw [show a + 1 + j = a + (j + 1) by omega]

theorem Memory.bytes_take (m : Memory) (a n k : Nat) : (Memory.bytes m a (n + k)).take n = Memory.bytes m a n := by
  rw [Memory.bytes_append, List.take_left' (by simp)]

theorem Memory.bytes_drop (m : Memory) (a n k : Nat) : (Memory.bytes m a (n + k)).drop n = Memory.bytes m (a + n) k := by
  rw [Memory.bytes_append, List.drop_left' (by simp)]

theorem Memory.bytes_congr {m m' : Memory} {a n : Nat} (h : ∀ k, k < n → Memory.get m (a + k) = Memory.get m' (a + k)) :
    Memory.bytes m a n = Memory.bytes m' a n := by
  induction n generalizing a with
  | zero => rfl
  | succ j ih =>
    simp only [Memory.bytes]
    rw [show Memory.get m a = Memory.get m' a from h 0 (by omega)]
    rw [ih fun k hk => by simpa [Nat.add_assoc, Nat.add_comm 1 k] using h (k + 1) (by omega)]

theorem Memory.bytes_store_self (m : Memory) (a : Nat) (bs : List Byte) :
    Memory.bytes (Memory.store m a bs) a bs.length = bs := by
  apply List.ext_getElem (by simp)
  intro k h1 h2
  rw [Memory.bytes_getElem, Memory.get_store_inside _ _ _ h2]

@[simp] theorem freeBytes_length (d a n : Nat) : (freeBytes d a n).length = n := by
  induction n generalizing a with
  | zero => rfl
  | succ k ih => simp [freeBytes, ih]

theorem freeBytes_getElem (d a n : Nat) {k : Nat} (h : k < (freeBytes d a n).length) :
    (freeBytes d a n)[k] = Config.freeByte d (a + k) := by
  induction n generalizing a k with
  | zero => simp [freeBytes] at h
  | succ j ih =>
    cases k with
    | zero => rfl
    | succ i => simp only [freeBytes, List.getElem_cons_succ, ih, Nat.add_assoc, Nat.add_comm 1 i]

/-! ### The canonical form -/

theorem Memory.rising_mono {lo lo' : Nat} (m : Memory) (h : lo' ≤ lo) (hm : Memory.rising lo m = true) :
    Memory.rising lo' m = true := by
  cases m with
  | nil => rfl
  | cons c rest =>
    simp only [Memory.rising, Bool.and_eq_true, decide_eq_true_eq] at hm ⊢
    exact ⟨⟨by omega, hm.1.2⟩, hm.2⟩

theorem Memory.rising_set {lo a : Nat} (m : Memory) (v : Byte) (hm : Memory.rising lo m = true) (hlo : lo ≤ a)
    (ha : a < dmaSize) : Memory.rising lo (Memory.set m a v) = true := by
  induction m generalizing lo with
  | nil => simp [Memory.set, Memory.rising, hlo, ha]
  | cons c rest ih =>
    simp only [Memory.rising, Bool.and_eq_true, decide_eq_true_eq] at hm
    unfold Memory.set
    split
    · simp only [Memory.rising, Bool.and_eq_true, decide_eq_true_eq]
      exact ⟨⟨hlo, ha⟩, ⟨by omega, hm.1.2⟩, hm.2⟩
    · split
      · next h => subst h; simp [Memory.rising, hlo, ha, hm.2]
      · simp only [Memory.rising, Bool.and_eq_true, decide_eq_true_eq]
        exact ⟨hm.1, ih hm.2 (by omega)⟩

theorem Memory.wf_set (m : Memory) {a : Nat} (v : Byte) (hm : Memory.wf m = true) (ha : a < dmaSize) :
    Memory.wf (Memory.set m a v) = true :=
  Memory.rising_set m v hm (Nat.zero_le a) ha

/-- Storing a byte string that ends in the DMA space keeps the canonical form. -/
theorem Memory.wf_store (m : Memory) {a : Nat} (bs : List Byte) (hm : Memory.wf m = true) (ha : a + bs.length ≤ dmaSize) :
    Memory.wf (Memory.store m a bs) = true := by
  induction bs generalizing m a with
  | nil => exact hm
  | cons b rest ih =>
    simp only [List.length_cons] at ha
    exact ih _ (Memory.wf_set m b hm (by omega)) (by omega)

theorem Memory.wf_reset : Memory.wf State.reset.mem = true := rfl

end Sys2Proof.Machine
end

