-- ==== Sys2Proof/Laws/State.lean ====
section
/-! SUPPORT. One lemma per field per update of the registers and of the state, so that no later proof unfolds a record update. -/

namespace Sys2Proof.Machine

/-! ### Regs.setChunk -/

@[simp] theorem Regs.setChunk_irqDoneEn (r : Regs) (c : Chunk) : (r.setChunk c).irqDoneEn = r.irqDoneEn := rfl

@[simp] theorem Regs.setChunk_irqErrEn (r : Regs) (c : Chunk) : (r.setChunk c).irqErrEn = r.irqErrEn := rfl

@[simp] theorem Regs.setChunk_descOpt (r : Regs) (c : Chunk) : (r.setChunk c).descOpt = r.descOpt := rfl

@[simp] theorem Regs.setChunk_busy (r : Regs) (c : Chunk) : (r.setChunk c).busy = r.busy := rfl

@[simp] theorem Regs.setChunk_done (r : Regs) (c : Chunk) : (r.setChunk c).done = r.done := rfl

@[simp] theorem Regs.setChunk_err (r : Regs) (c : Chunk) : (r.setChunk c).err = r.err := rfl

@[simp] theorem Regs.setChunk_accValid (r : Regs) (c : Chunk) : (r.setChunk c).accValid = r.accValid := rfl

@[simp] theorem Regs.setChunk_descSeen (r : Regs) (c : Chunk) : (r.setChunk c).descSeen = r.descSeen := rfl

@[simp] theorem Regs.setChunk_kind (r : Regs) (c : Chunk) : (r.setChunk c).kind = r.kind := rfl

@[simp] theorem Regs.setChunk_trlMatch (r : Regs) (c : Chunk) : (r.setChunk c).trlMatch = r.trlMatch := rfl

@[simp] theorem Regs.setChunk_cmdovr (r : Regs) (c : Chunk) : (r.setChunk c).cmdovr = r.cmdovr := rfl

@[simp] theorem Regs.setChunk_ncanon (r : Regs) (c : Chunk) : (r.setChunk c).ncanon = r.ncanon := rfl

@[simp] theorem Regs.setChunk_cmd (r : Regs) (c : Chunk) : (r.setChunk c).cmd = r.cmd := rfl

@[simp] theorem Regs.setChunk_errinfo (r : Regs) (c : Chunk) : (r.setChunk c).errinfo = r.errinfo := rfl

@[simp] theorem Regs.setChunk_erraddr (r : Regs) (c : Chunk) : (r.setChunk c).erraddr = r.erraddr := rfl

@[simp] theorem Regs.setChunk_errdata (r : Regs) (c : Chunk) : (r.setChunk c).errdata = r.errdata := rfl

@[simp] theorem Regs.setChunk_src (r : Regs) (c : Chunk) : (r.setChunk c).src = r.src := rfl

@[simp] theorem Regs.setChunk_srcEnd (r : Regs) (c : Chunk) : (r.setChunk c).srcEnd = r.srcEnd := rfl

@[simp] theorem Regs.setChunk_dst (r : Regs) (c : Chunk) : (r.setChunk c).dst = r.dst := rfl

@[simp] theorem Regs.setChunk_len (r : Regs) (c : Chunk) : (r.setChunk c).len = r.len := rfl

@[simp] theorem Regs.setChunk_tag (r : Regs) (c : Chunk) : (r.setChunk c).tag = c.tag := rfl

@[simp] theorem Regs.setChunk_body (r : Regs) (c : Chunk) : (r.setChunk c).body = BitVec.ofNat 32 c.bodyAt := rfl

@[simp] theorem Regs.setChunk_blen (r : Regs) (c : Chunk) : (r.setChunk c).blen = BitVec.ofNat 32 c.len := rfl

@[simp] theorem Regs.setChunk_crc (r : Regs) (c : Chunk) : (r.setChunk c).crc = c.crc := rfl

@[simp] theorem Regs.setChunk_width (r : Regs) (c : Chunk) : (r.setChunk c).width = r.width := rfl

@[simp] theorem Regs.setChunk_height (r : Regs) (c : Chunk) : (r.setChunk c).height = r.height := rfl

@[simp] theorem Regs.setChunk_npieces (r : Regs) (c : Chunk) : (r.setChunk c).npieces = r.npieces := rfl

@[simp] theorem Regs.setChunk_pieceH (r : Regs) (c : Chunk) : (r.setChunk c).pieceH = r.pieceH := rfl

@[simp] theorem Regs.setChunk_opa (r : Regs) (c : Chunk) : (r.setChunk c).opa = r.opa := rfl

@[simp] theorem Regs.setChunk_opb (r : Regs) (c : Chunk) : (r.setChunk c).opb = r.opb := rfl

@[simp] theorem Regs.setChunk_oplen (r : Regs) (c : Chunk) : (r.setChunk c).oplen = r.oplen := rfl

@[simp] theorem Regs.setChunk_acc (r : Regs) (c : Chunk) : (r.setChunk c).acc = r.acc := rfl

@[simp] theorem Regs.setChunk_res (r : Regs) (c : Chunk) : (r.setChunk c).res = r.res := rfl

@[simp] theorem Regs.setChunk_adl (r : Regs) (c : Chunk) : (r.setChunk c).adl = r.adl := rfl

@[simp] theorem Regs.setChunk_adlLen (r : Regs) (c : Chunk) : (r.setChunk c).adlLen = r.adlLen := rfl

@[simp] theorem Regs.setChunk_trailer (r : Regs) (c : Chunk) : (r.setChunk c).trailer = r.trailer := rfl

@[simp] theorem Regs.setChunk_skipcnt (r : Regs) (c : Chunk) : (r.setChunk c).skipcnt = r.skipcnt := rfl

/-! ### Regs.noteCanon -/

@[simp] theorem Regs.noteCanon_irqDoneEn (r : Regs) (b : Bool) : (r.noteCanon b).irqDoneEn = r.irqDoneEn := rfl

@[simp] theorem Regs.noteCanon_irqErrEn (r : Regs) (b : Bool) : (r.noteCanon b).irqErrEn = r.irqErrEn := rfl

@[simp] theorem Regs.noteCanon_descOpt (r : Regs) (b : Bool) : (r.noteCanon b).descOpt = r.descOpt := rfl

@[simp] theorem Regs.noteCanon_busy (r : Regs) (b : Bool) : (r.noteCanon b).busy = r.busy := rfl

@[simp] theorem Regs.noteCanon_done (r : Regs) (b : Bool) : (r.noteCanon b).done = r.done := rfl

@[simp] theorem Regs.noteCanon_err (r : Regs) (b : Bool) : (r.noteCanon b).err = r.err := rfl

@[simp] theorem Regs.noteCanon_accValid (r : Regs) (b : Bool) : (r.noteCanon b).accValid = r.accValid := rfl

@[simp] theorem Regs.noteCanon_descSeen (r : Regs) (b : Bool) : (r.noteCanon b).descSeen = r.descSeen := rfl

@[simp] theorem Regs.noteCanon_kind (r : Regs) (b : Bool) : (r.noteCanon b).kind = r.kind := rfl

@[simp] theorem Regs.noteCanon_trlMatch (r : Regs) (b : Bool) : (r.noteCanon b).trlMatch = r.trlMatch := rfl

@[simp] theorem Regs.noteCanon_cmdovr (r : Regs) (b : Bool) : (r.noteCanon b).cmdovr = r.cmdovr := rfl

@[simp] theorem Regs.noteCanon_ncanon (r : Regs) (b : Bool) : (r.noteCanon b).ncanon = (r.ncanon || b) := rfl

@[simp] theorem Regs.noteCanon_cmd (r : Regs) (b : Bool) : (r.noteCanon b).cmd = r.cmd := rfl

@[simp] theorem Regs.noteCanon_errinfo (r : Regs) (b : Bool) : (r.noteCanon b).errinfo = r.errinfo := rfl

@[simp] theorem Regs.noteCanon_erraddr (r : Regs) (b : Bool) : (r.noteCanon b).erraddr = r.erraddr := rfl

@[simp] theorem Regs.noteCanon_errdata (r : Regs) (b : Bool) : (r.noteCanon b).errdata = r.errdata := rfl

@[simp] theorem Regs.noteCanon_src (r : Regs) (b : Bool) : (r.noteCanon b).src = r.src := rfl

@[simp] theorem Regs.noteCanon_srcEnd (r : Regs) (b : Bool) : (r.noteCanon b).srcEnd = r.srcEnd := rfl

@[simp] theorem Regs.noteCanon_dst (r : Regs) (b : Bool) : (r.noteCanon b).dst = r.dst := rfl

@[simp] theorem Regs.noteCanon_len (r : Regs) (b : Bool) : (r.noteCanon b).len = r.len := rfl

@[simp] theorem Regs.noteCanon_tag (r : Regs) (b : Bool) : (r.noteCanon b).tag = r.tag := rfl

@[simp] theorem Regs.noteCanon_body (r : Regs) (b : Bool) : (r.noteCanon b).body = r.body := rfl

@[simp] theorem Regs.noteCanon_blen (r : Regs) (b : Bool) : (r.noteCanon b).blen = r.blen := rfl

@[simp] theorem Regs.noteCanon_crc (r : Regs) (b : Bool) : (r.noteCanon b).crc = r.crc := rfl

@[simp] theorem Regs.noteCanon_width (r : Regs) (b : Bool) : (r.noteCanon b).width = r.width := rfl

@[simp] theorem Regs.noteCanon_height (r : Regs) (b : Bool) : (r.noteCanon b).height = r.height := rfl

@[simp] theorem Regs.noteCanon_npieces (r : Regs) (b : Bool) : (r.noteCanon b).npieces = r.npieces := rfl

@[simp] theorem Regs.noteCanon_pieceH (r : Regs) (b : Bool) : (r.noteCanon b).pieceH = r.pieceH := rfl

@[simp] theorem Regs.noteCanon_opa (r : Regs) (b : Bool) : (r.noteCanon b).opa = r.opa := rfl

@[simp] theorem Regs.noteCanon_opb (r : Regs) (b : Bool) : (r.noteCanon b).opb = r.opb := rfl

@[simp] theorem Regs.noteCanon_oplen (r : Regs) (b : Bool) : (r.noteCanon b).oplen = r.oplen := rfl

@[simp] theorem Regs.noteCanon_acc (r : Regs) (b : Bool) : (r.noteCanon b).acc = r.acc := rfl

@[simp] theorem Regs.noteCanon_res (r : Regs) (b : Bool) : (r.noteCanon b).res = r.res := rfl

@[simp] theorem Regs.noteCanon_adl (r : Regs) (b : Bool) : (r.noteCanon b).adl = r.adl := rfl

@[simp] theorem Regs.noteCanon_adlLen (r : Regs) (b : Bool) : (r.noteCanon b).adlLen = r.adlLen := rfl

@[simp] theorem Regs.noteCanon_trailer (r : Regs) (b : Bool) : (r.noteCanon b).trailer = r.trailer := rfl

@[simp] theorem Regs.noteCanon_skipcnt (r : Regs) (b : Bool) : (r.noteCanon b).skipcnt = r.skipcnt := rfl

/-! ### Regs.clearStatus -/

@[simp] theorem Regs.clearStatus_irqDoneEn (r : Regs) (v : Word) : (r.clearStatus v).irqDoneEn = r.irqDoneEn := rfl

@[simp] theorem Regs.clearStatus_irqErrEn (r : Regs) (v : Word) : (r.clearStatus v).irqErrEn = r.irqErrEn := rfl

@[simp] theorem Regs.clearStatus_descOpt (r : Regs) (v : Word) : (r.clearStatus v).descOpt = r.descOpt := rfl

@[simp] theorem Regs.clearStatus_busy (r : Regs) (v : Word) : (r.clearStatus v).busy = r.busy := rfl

@[simp] theorem Regs.clearStatus_done (r : Regs) (v : Word) : (r.clearStatus v).done = (r.done && !v.getLsbD 1) := rfl

@[simp] theorem Regs.clearStatus_err (r : Regs) (v : Word) : (r.clearStatus v).err = (r.err && !v.getLsbD 2) := rfl

@[simp] theorem Regs.clearStatus_accValid (r : Regs) (v : Word) : (r.clearStatus v).accValid = r.accValid := rfl

@[simp] theorem Regs.clearStatus_descSeen (r : Regs) (v : Word) : (r.clearStatus v).descSeen = r.descSeen := rfl

@[simp] theorem Regs.clearStatus_kind (r : Regs) (v : Word) : (r.clearStatus v).kind = r.kind := rfl

@[simp] theorem Regs.clearStatus_trlMatch (r : Regs) (v : Word) : (r.clearStatus v).trlMatch = r.trlMatch := rfl

@[simp] theorem Regs.clearStatus_cmdovr (r : Regs) (v : Word) : (r.clearStatus v).cmdovr = (r.cmdovr && !v.getLsbD 8) := rfl

@[simp] theorem Regs.clearStatus_ncanon (r : Regs) (v : Word) : (r.clearStatus v).ncanon = (r.ncanon && !v.getLsbD 9) := rfl

@[simp] theorem Regs.clearStatus_cmd (r : Regs) (v : Word) : (r.clearStatus v).cmd = r.cmd := rfl

@[simp] theorem Regs.clearStatus_errinfo (r : Regs) (v : Word) : (r.clearStatus v).errinfo = r.errinfo := rfl

@[simp] theorem Regs.clearStatus_erraddr (r : Regs) (v : Word) : (r.clearStatus v).erraddr = r.erraddr := rfl

@[simp] theorem Regs.clearStatus_errdata (r : Regs) (v : Word) : (r.clearStatus v).errdata = r.errdata := rfl

@[simp] theorem Regs.clearStatus_src (r : Regs) (v : Word) : (r.clearStatus v).src = r.src := rfl

@[simp] theorem Regs.clearStatus_srcEnd (r : Regs) (v : Word) : (r.clearStatus v).srcEnd = r.srcEnd := rfl

@[simp] theorem Regs.clearStatus_dst (r : Regs) (v : Word) : (r.clearStatus v).dst = r.dst := rfl

@[simp] theorem Regs.clearStatus_len (r : Regs) (v : Word) : (r.clearStatus v).len = r.len := rfl

@[simp] theorem Regs.clearStatus_tag (r : Regs) (v : Word) : (r.clearStatus v).tag = r.tag := rfl

@[simp] theorem Regs.clearStatus_body (r : Regs) (v : Word) : (r.clearStatus v).body = r.body := rfl

@[simp] theorem Regs.clearStatus_blen (r : Regs) (v : Word) : (r.clearStatus v).blen = r.blen := rfl

@[simp] theorem Regs.clearStatus_crc (r : Regs) (v : Word) : (r.clearStatus v).crc = r.crc := rfl

@[simp] theorem Regs.clearStatus_width (r : Regs) (v : Word) : (r.clearStatus v).width = r.width := rfl

@[simp] theorem Regs.clearStatus_height (r : Regs) (v : Word) : (r.clearStatus v).height = r.height := rfl

@[simp] theorem Regs.clearStatus_npieces (r : Regs) (v : Word) : (r.clearStatus v).npieces = r.npieces := rfl

@[simp] theorem Regs.clearStatus_pieceH (r : Regs) (v : Word) : (r.clearStatus v).pieceH = r.pieceH := rfl

@[simp] theorem Regs.clearStatus_opa (r : Regs) (v : Word) : (r.clearStatus v).opa = r.opa := rfl

@[simp] theorem Regs.clearStatus_opb (r : Regs) (v : Word) : (r.clearStatus v).opb = r.opb := rfl

@[simp] theorem Regs.clearStatus_oplen (r : Regs) (v : Word) : (r.clearStatus v).oplen = r.oplen := rfl

@[simp] theorem Regs.clearStatus_acc (r : Regs) (v : Word) : (r.clearStatus v).acc = r.acc := rfl

@[simp] theorem Regs.clearStatus_res (r : Regs) (v : Word) : (r.clearStatus v).res = r.res := rfl

@[simp] theorem Regs.clearStatus_adl (r : Regs) (v : Word) : (r.clearStatus v).adl = r.adl := rfl

@[simp] theorem Regs.clearStatus_adlLen (r : Regs) (v : Word) : (r.clearStatus v).adlLen = r.adlLen := rfl

@[simp] theorem Regs.clearStatus_trailer (r : Regs) (v : Word) : (r.clearStatus v).trailer = r.trailer := rfl

@[simp] theorem Regs.clearStatus_skipcnt (r : Regs) (v : Word) : (r.clearStatus v).skipcnt = r.skipcnt := rfl

/-! ### Regs.complete -/

@[simp] theorem Regs.complete_irqDoneEn (r : Regs) (f : Regs → Regs) : (r.complete f).irqDoneEn = (f r).irqDoneEn := rfl

@[simp] theorem Regs.complete_irqErrEn (r : Regs) (f : Regs → Regs) : (r.complete f).irqErrEn = (f r).irqErrEn := rfl

@[simp] theorem Regs.complete_descOpt (r : Regs) (f : Regs → Regs) : (r.complete f).descOpt = (f r).descOpt := rfl

@[simp] theorem Regs.complete_busy (r : Regs) (f : Regs → Regs) : (r.complete f).busy = false := rfl

@[simp] theorem Regs.complete_done (r : Regs) (f : Regs → Regs) : (r.complete f).done = true := rfl

@[simp] theorem Regs.complete_err (r : Regs) (f : Regs → Regs) : (r.complete f).err = (f r).err := rfl

@[simp] theorem Regs.complete_accValid (r : Regs) (f : Regs → Regs) : (r.complete f).accValid = (f r).accValid := rfl

@[simp] theorem Regs.complete_descSeen (r : Regs) (f : Regs → Regs) : (r.complete f).descSeen = (f r).descSeen := rfl

@[simp] theorem Regs.complete_kind (r : Regs) (f : Regs → Regs) : (r.complete f).kind = (f r).kind := rfl

@[simp] theorem Regs.complete_trlMatch (r : Regs) (f : Regs → Regs) : (r.complete f).trlMatch = (f r).trlMatch := rfl

@[simp] theorem Regs.complete_cmdovr (r : Regs) (f : Regs → Regs) : (r.complete f).cmdovr = (f r).cmdovr := rfl

@[simp] theorem Regs.complete_ncanon (r : Regs) (f : Regs → Regs) : (r.complete f).ncanon = (f r).ncanon := rfl

@[simp] theorem Regs.complete_cmd (r : Regs) (f : Regs → Regs) : (r.complete f).cmd = (f r).cmd := rfl

@[simp] theorem Regs.complete_errinfo (r : Regs) (f : Regs → Regs) : (r.complete f).errinfo = (f r).errinfo := rfl

@[simp] theorem Regs.complete_erraddr (r : Regs) (f : Regs → Regs) : (r.complete f).erraddr = (f r).erraddr := rfl

@[simp] theorem Regs.complete_errdata (r : Regs) (f : Regs → Regs) : (r.complete f).errdata = (f r).errdata := rfl

@[simp] theorem Regs.complete_src (r : Regs) (f : Regs → Regs) : (r.complete f).src = (f r).src := rfl

@[simp] theorem Regs.complete_srcEnd (r : Regs) (f : Regs → Regs) : (r.complete f).srcEnd = (f r).srcEnd := rfl

@[simp] theorem Regs.complete_dst (r : Regs) (f : Regs → Regs) : (r.complete f).dst = (f r).dst := rfl

@[simp] theorem Regs.complete_len (r : Regs) (f : Regs → Regs) : (r.complete f).len = (f r).len := rfl

@[simp] theorem Regs.complete_tag (r : Regs) (f : Regs → Regs) : (r.complete f).tag = (f r).tag := rfl

@[simp] theorem Regs.complete_body (r : Regs) (f : Regs → Regs) : (r.complete f).body = (f r).body := rfl

@[simp] theorem Regs.complete_blen (r : Regs) (f : Regs → Regs) : (r.complete f).blen = (f r).blen := rfl

@[simp] theorem Regs.complete_crc (r : Regs) (f : Regs → Regs) : (r.complete f).crc = (f r).crc := rfl

@[simp] theorem Regs.complete_width (r : Regs) (f : Regs → Regs) : (r.complete f).width = (f r).width := rfl

@[simp] theorem Regs.complete_height (r : Regs) (f : Regs → Regs) : (r.complete f).height = (f r).height := rfl

@[simp] theorem Regs.complete_npieces (r : Regs) (f : Regs → Regs) : (r.complete f).npieces = (f r).npieces := rfl

@[simp] theorem Regs.complete_pieceH (r : Regs) (f : Regs → Regs) : (r.complete f).pieceH = (f r).pieceH := rfl

@[simp] theorem Regs.complete_opa (r : Regs) (f : Regs → Regs) : (r.complete f).opa = (f r).opa := rfl

@[simp] theorem Regs.complete_opb (r : Regs) (f : Regs → Regs) : (r.complete f).opb = (f r).opb := rfl

@[simp] theorem Regs.complete_oplen (r : Regs) (f : Regs → Regs) : (r.complete f).oplen = (f r).oplen := rfl

@[simp] theorem Regs.complete_acc (r : Regs) (f : Regs → Regs) : (r.complete f).acc = (f r).acc := rfl

@[simp] theorem Regs.complete_res (r : Regs) (f : Regs → Regs) : (r.complete f).res = (f r).res := rfl

@[simp] theorem Regs.complete_adl (r : Regs) (f : Regs → Regs) : (r.complete f).adl = (f r).adl := rfl

@[simp] theorem Regs.complete_adlLen (r : Regs) (f : Regs → Regs) : (r.complete f).adlLen = (f r).adlLen := rfl

@[simp] theorem Regs.complete_trailer (r : Regs) (f : Regs → Regs) : (r.complete f).trailer = (f r).trailer := rfl

@[simp] theorem Regs.complete_skipcnt (r : Regs) (f : Regs → Regs) : (r.complete f).skipcnt = (f r).skipcnt := rfl

/-! ### State.failedRegs -/

@[simp] theorem State.failedRegs_irqDoneEn (s : State) (code detail : Nat) (a d : Word) :
    (s.failedRegs code detail a d).irqDoneEn = s.regs.irqDoneEn := rfl

@[simp] theorem State.failedRegs_irqErrEn (s : State) (code detail : Nat) (a d : Word) :
    (s.failedRegs code detail a d).irqErrEn = s.regs.irqErrEn := rfl

@[simp] theorem State.failedRegs_descOpt (s : State) (code detail : Nat) (a d : Word) :
    (s.failedRegs code detail a d).descOpt = s.regs.descOpt := rfl

@[simp] theorem State.failedRegs_busy (s : State) (code detail : Nat) (a d : Word) :
    (s.failedRegs code detail a d).busy = false := rfl

@[simp] theorem State.failedRegs_done (s : State) (code detail : Nat) (a d : Word) :
    (s.failedRegs code detail a d).done = s.regs.done := rfl

@[simp] theorem State.failedRegs_err (s : State) (code detail : Nat) (a d : Word) :
    (s.failedRegs code detail a d).err = true := rfl

@[simp] theorem State.failedRegs_accValid (s : State) (code detail : Nat) (a d : Word) :
    (s.failedRegs code detail a d).accValid = s.regs.accValid := rfl

@[simp] theorem State.failedRegs_descSeen (s : State) (code detail : Nat) (a d : Word) :
    (s.failedRegs code detail a d).descSeen = s.regs.descSeen := rfl

@[simp] theorem State.failedRegs_kind (s : State) (code detail : Nat) (a d : Word) :
    (s.failedRegs code detail a d).kind = s.regs.kind := rfl

@[simp] theorem State.failedRegs_trlMatch (s : State) (code detail : Nat) (a d : Word) :
    (s.failedRegs code detail a d).trlMatch = s.regs.trlMatch := rfl

@[simp] theorem State.failedRegs_cmdovr (s : State) (code detail : Nat) (a d : Word) :
    (s.failedRegs code detail a d).cmdovr = s.regs.cmdovr := rfl

@[simp] theorem State.failedRegs_ncanon (s : State) (code detail : Nat) (a d : Word) :
    (s.failedRegs code detail a d).ncanon = s.regs.ncanon := rfl

@[simp] theorem State.failedRegs_cmd (s : State) (code detail : Nat) (a d : Word) :
    (s.failedRegs code detail a d).cmd = s.regs.cmd := rfl

@[simp] theorem State.failedRegs_errinfo (s : State) (code detail : Nat) (a d : Word) :
    (s.failedRegs code detail a d).errinfo = BitVec.ofNat 32 (code + 256 * detail + 65536 * (s.word.toNat % 256)) := rfl

@[simp] theorem State.failedRegs_erraddr (s : State) (code detail : Nat) (a d : Word) :
    (s.failedRegs code detail a d).erraddr = a := rfl

@[simp] theorem State.failedRegs_errdata (s : State) (code detail : Nat) (a d : Word) :
    (s.failedRegs code detail a d).errdata = d := rfl

@[simp] theorem State.failedRegs_src (s : State) (code detail : Nat) (a d : Word) :
    (s.failedRegs code detail a d).src = s.regs.src := rfl

@[simp] theorem State.failedRegs_srcEnd (s : State) (code detail : Nat) (a d : Word) :
    (s.failedRegs code detail a d).srcEnd = s.regs.srcEnd := rfl

@[simp] theorem State.failedRegs_dst (s : State) (code detail : Nat) (a d : Word) :
    (s.failedRegs code detail a d).dst = s.regs.dst := rfl

@[simp] theorem State.failedRegs_len (s : State) (code detail : Nat) (a d : Word) :
    (s.failedRegs code detail a d).len = s.regs.len := rfl

@[simp] theorem State.failedRegs_tag (s : State) (code detail : Nat) (a d : Word) :
    (s.failedRegs code detail a d).tag = s.regs.tag := rfl

@[simp] theorem State.failedRegs_body (s : State) (code detail : Nat) (a d : Word) :
    (s.failedRegs code detail a d).body = s.regs.body := rfl

@[simp] theorem State.failedRegs_blen (s : State) (code detail : Nat) (a d : Word) :
    (s.failedRegs code detail a d).blen = s.regs.blen := rfl

@[simp] theorem State.failedRegs_crc (s : State) (code detail : Nat) (a d : Word) :
    (s.failedRegs code detail a d).crc = s.regs.crc := rfl

@[simp] theorem State.failedRegs_width (s : State) (code detail : Nat) (a d : Word) :
    (s.failedRegs code detail a d).width = s.regs.width := rfl

@[simp] theorem State.failedRegs_height (s : State) (code detail : Nat) (a d : Word) :
    (s.failedRegs code detail a d).height = s.regs.height := rfl

@[simp] theorem State.failedRegs_npieces (s : State) (code detail : Nat) (a d : Word) :
    (s.failedRegs code detail a d).npieces = s.regs.npieces := rfl

@[simp] theorem State.failedRegs_pieceH (s : State) (code detail : Nat) (a d : Word) :
    (s.failedRegs code detail a d).pieceH = s.regs.pieceH := rfl

@[simp] theorem State.failedRegs_opa (s : State) (code detail : Nat) (a d : Word) :
    (s.failedRegs code detail a d).opa = s.regs.opa := rfl

@[simp] theorem State.failedRegs_opb (s : State) (code detail : Nat) (a d : Word) :
    (s.failedRegs code detail a d).opb = s.regs.opb := rfl

@[simp] theorem State.failedRegs_oplen (s : State) (code detail : Nat) (a d : Word) :
    (s.failedRegs code detail a d).oplen = s.regs.oplen := rfl

@[simp] theorem State.failedRegs_acc (s : State) (code detail : Nat) (a d : Word) :
    (s.failedRegs code detail a d).acc = s.regs.acc := rfl

@[simp] theorem State.failedRegs_res (s : State) (code detail : Nat) (a d : Word) :
    (s.failedRegs code detail a d).res = s.regs.res := rfl

@[simp] theorem State.failedRegs_adl (s : State) (code detail : Nat) (a d : Word) :
    (s.failedRegs code detail a d).adl = s.regs.adl := rfl

@[simp] theorem State.failedRegs_adlLen (s : State) (code detail : Nat) (a d : Word) :
    (s.failedRegs code detail a d).adlLen = s.regs.adlLen := rfl

@[simp] theorem State.failedRegs_trailer (s : State) (code detail : Nat) (a d : Word) :
    (s.failedRegs code detail a d).trailer = s.regs.trailer := rfl

@[simp] theorem State.failedRegs_skipcnt (s : State) (code detail : Nat) (a d : Word) :
    (s.failedRegs code detail a d).skipcnt = s.regs.skipcnt := rfl

/-! ### State.spoil -/

@[simp] theorem State.spoil_empty (s : State) : s.spoil Range.empty = s := rfl

@[simp] theorem State.spoil_regs (s : State) (r : Range) : (s.spoil r).regs = s.regs := by unfold State.spoil; split <;> rfl

@[simp] theorem State.spoil_latch (s : State) (r : Range) : (s.spoil r).latch = s.latch := by unfold State.spoil; split <;> rfl

@[simp] theorem State.spoil_cfg (s : State) (r : Range) : (s.spoil r).cfg = s.cfg := by unfold State.spoil; split <;> rfl

@[simp] theorem State.spoil_sched (s : State) (r : Range) : (s.spoil r).sched = s.sched := by unfold State.spoil; split <;> rfl

@[simp] theorem State.spoil_reply (s : State) (r : Range) : (s.spoil r).reply = s.reply := by unfold State.spoil; split <;> rfl

/-- Spoiling a range changes no byte outside it (R272). -/
theorem State.get_spoil_outside (s : State) (r : Range) {a : Nat} (h : a < r.base ∨ r.base + r.len ≤ a) :
    Memory.get (s.spoil r).mem a = Memory.get s.mem a := by
  unfold State.spoil
  split
  · rfl
  · exact Memory.get_store_outside _ _ _ (by simpa using h)

/-- Spoiling a range makes every byte of it a free value (R272, R302). -/
theorem State.get_spoil_inside (s : State) (r : Range) {a : Nat} (h : ¬ (a < r.base ∨ r.base + r.len ≤ a)) :
    Memory.get (s.spoil r).mem a = Config.freeByte s.draws a := by
  obtain ⟨k, rfl⟩ : ∃ k, a = r.base + k := ⟨a - r.base, by omega⟩
  unfold State.spoil
  rw [if_neg (by omega)]
  exact (Memory.get_store_inside _ _ _ (by simp; omega)).trans (freeBytes_getElem _ _ _ _)

/-- Spoiling a range that ends in the DMA space keeps the canonical form. -/
theorem State.wf_spoil (s : State) (r : Range) (hm : Memory.wf s.mem = true) (h : r.base + r.len ≤ dmaSize) :
    Memory.wf (s.spoil r).mem = true := by
  unfold State.spoil
  split
  · exact hm
  · exact Memory.wf_store _ _ hm (by simpa using h)

/-! ### State.takeError -/

@[simp] theorem State.takeError_latch (s : State) (e : Err) (o : Range) : (s.takeError e o).latch = none := rfl

@[simp] theorem State.takeError_cfg (s : State) (e : Err) (o : Range) : (s.takeError e o).cfg = s.cfg := by simp [State.takeError]

@[simp] theorem State.takeError_sched (s : State) (e : Err) (o : Range) : (s.takeError e o).sched = s.sched := by simp [State.takeError]

@[simp] theorem State.takeError_reply (s : State) (e : Err) (o : Range) : (s.takeError e o).reply = s.reply := by simp [State.takeError]

@[simp] theorem State.takeError_mem (s : State) (e : Err) (o : Range) : (s.takeError e o).mem = (s.spoil o).mem := rfl

@[simp] theorem State.takeError_draws (s : State) (e : Err) (o : Range) : (s.takeError e o).draws = (s.spoil o).draws := rfl

/-! ### State.accept -/

@[simp] theorem State.accept_latch (s : State) (w : Word) : (s.accept w).latch = some ⟨w, s.regs⟩ := rfl

@[simp] theorem State.accept_cfg (s : State) (w : Word) : (s.accept w).cfg = s.cfg := rfl

@[simp] theorem State.accept_sched (s : State) (w : Word) : (s.accept w).sched = s.sched := rfl

@[simp] theorem State.accept_reply (s : State) (w : Word) : (s.accept w).reply = s.reply := rfl

@[simp] theorem State.accept_mem (s : State) (w : Word) : (s.accept w).mem = s.mem := rfl

@[simp] theorem State.accept_draws (s : State) (w : Word) : (s.accept w).draws = s.draws := rfl

/-! ### State.resetBlock -/

@[simp] theorem State.resetBlock_regs (s : State) (o : Range) : (s.resetBlock o).regs = Regs.reset := rfl

@[simp] theorem State.resetBlock_latch (s : State) (o : Range) : (s.resetBlock o).latch = none := rfl

@[simp] theorem State.resetBlock_cfg (s : State) (o : Range) : (s.resetBlock o).cfg = s.cfg := by simp [State.resetBlock]

@[simp] theorem State.resetBlock_sched (s : State) (o : Range) : (s.resetBlock o).sched = s.sched := by simp [State.resetBlock]

@[simp] theorem State.resetBlock_reply (s : State) (o : Range) : (s.resetBlock o).reply = s.reply := by simp [State.resetBlock]

@[simp] theorem State.resetBlock_mem (s : State) (o : Range) : (s.resetBlock o).mem = (s.spoil o).mem := rfl

@[simp] theorem State.resetBlock_draws (s : State) (o : Range) : (s.resetBlock o).draws = (s.spoil o).draws := rfl

theorem State.takeError_regs (s : State) (e : Err) (o : Range) :
    (s.takeError e o).regs = { s.regs with
      errinfo := errInfo e.kind s.word, erraddr := e.addr, errdata := e.data, err := true, busy := false } := rfl

@[simp] theorem State.accept_operands (s : State) (w : Word) : (s.accept w).operands = s.regs := rfl

@[simp] theorem State.accept_word (s : State) (w : Word) : (s.accept w).word = w := rfl

@[simp] theorem State.view_x (s : State) : s.view.x = s.operands := rfl

@[simp] theorem State.view_cfg (s : State) : s.view.cfg = s.cfg := rfl

@[simp] theorem State.view_mem (s : State) : s.view.mem = s.mem := rfl

theorem State.accept_regs (s : State) (w : Word) :
    (s.accept w).regs = { s.regs with cmd := w, done := false, busy := true } := rfl

end Sys2Proof.Machine
end

