-- ==== Sys2Proof/Laws/Ops.lean ====
section
/-! SUPPORT. One lemma per shared operation: what it can answer, for the proofs to cite. -/

namespace Sys2Proof.Machine

/-! ### The DMA port -/

theorem firstRefused_none_iff (p : Params) (d : Dir) (a n : Nat) : firstRefused p d a n = none ↔ Completes p d a n := by
  induction n generalizing a with
  | zero => simp [firstRefused, Completes]
  | succ k ih =>
    unfold firstRefused
    split
    · next h =>
      rw [ih]
      constructor
      · intro hk j hj
        cases j with
        | zero => exact h
        | succ i => rw [show a + (i + 1) = a + 1 + i by omega]; exact hk i (by omega)
      · intro hk j hj
        rw [show a + 1 + j = a + (j + 1) by omega]; exact hk (j + 1) (by omega)
    · next h =>
      simp only [reduceCtorEq, false_iff]
      intro hk
      exact h (hk 0 (by omega))

theorem firstRefused_some (p : Params) (d : Dir) (a n b : Nat) :
    firstRefused p d a n = some b ↔ ∃ k, b = a + k ∧ RefusedAt p d a n k := by
  induction n generalizing a with
  | zero => simp [firstRefused, RefusedAt]
  | succ m ih =>
    unfold firstRefused
    split
    · next h =>
      rw [ih]
      constructor
      · rintro ⟨k, rfl, hk, hb, hj⟩
        refine ⟨k + 1, by omega, by omega, by rw [show a + (k + 1) = a + 1 + k by omega]; exact hb, fun j hlt => ?_⟩
        cases j with
        | zero => exact h
        | succ i => rw [show a + (i + 1) = a + 1 + i by omega]; exact hj i (by omega)
      · rintro ⟨k, rfl, hk, hb, hj⟩
        cases k with
        | zero => simp [h] at hb
        | succ i =>
          refine ⟨i, by omega, by omega, by rw [show a + 1 + i = a + (i + 1) by omega]; exact hb, fun j hlt => ?_⟩
          rw [show a + 1 + j = a + (j + 1) by omega]; exact hj (j + 1) (by omega)
    · next h =>
      simp only [Option.some.injEq]
      constructor
      · rintro rfl
        exact ⟨0, rfl, by omega, by simpa using h, fun j hj => by omega⟩
      · rintro ⟨k, rfl, -, -, hj⟩
        cases k with
        | zero => rfl
        | succ i => exact absurd (hj 0 (by omega)) h

theorem memRead_ok (v : View) {a n : Nat} (h : Completes v.cfg .read a n) : memRead v a n = .ok (Memory.bytes v.mem a n) := by
  simp [memRead, (firstRefused_none_iff _ _ _ _).2 h]

theorem memRead_refused (v : View) {a n k : Nat} (h : RefusedAt v.cfg .read a n k) :
    memRead v a n = .error (busErr .read (a + k)) := by
  simp [memRead, (firstRefused_some _ _ _ _ _).2 ⟨k, rfl, h⟩]

theorem memRead_eq_ok (v : View) {a n : Nat} {bs : List Byte} (h : memRead v a n = .ok bs) :
    Completes v.cfg .read a n ∧ bs = Memory.bytes v.mem a n := by
  unfold memRead at h
  split at h
  · cases h
  · next hn => cases h; exact ⟨(firstRefused_none_iff _ _ _ _).1 hn, rfl⟩

theorem wraps_false_iff (a : Word) (n : Nat) : wraps a n = false ↔ Fits a n := by
  have := a.isLt
  unfold Fits wraps dmaSize
  rw [Bool.and_eq_false_iff, decide_eq_false_iff_not, decide_eq_false_iff_not]
  omega

theorem wraps_true_iff (a : Word) (n : Nat) : wraps a n = true ↔ ¬ Fits a n := by
  rw [← wraps_false_iff]; cases wraps a n <;> simp

theorem meets_false_iff (r q : Range) : r.meets q = false ↔ Apart r.base r.len q.base q.len := by
  unfold Apart Range.meets
  constructor
  · intro h
    simp only [Bool.and_eq_false_iff, decide_eq_false_iff_not] at h
    omega
  · intro h
    simp only [Bool.and_eq_false_iff, decide_eq_false_iff_not]
    omega

/-! ### Completing a command -/

/-- Every meaning is one completion with the command's report. -/
theorem exec_eq (i : Instr) (s : State) : exec i s = .next (s.conclude (reportOf i s.view)) := by
  cases i <;> rfl

theorem conclude_error (s : State) (r : Report) {e : Err} (h : r.result = .error e) :
    s.conclude r = s.takeError e r.output := by
  simp [State.conclude, h]

theorem conclude_regs (s : State) (r : Report) {c : Commit} (h : r.result = .ok c) :
    (s.conclude r).regs = s.regs.complete c.regs := by
  simp only [State.conclude, h]
  split <;> rfl

theorem conclude_apart (s : State) (r : Report) {c : Commit} (h : r.result = .ok c) (ho : r.overlaps = false) :
    s.conclude r = { s with
      mem := Memory.store s.mem r.output.base c.bytes, regs := s.regs.complete c.regs, latch := none } := by
  simp [State.conclude, h, ho]

theorem conclude_overlap (s : State) (r : Report) {c : Commit} (h : r.result = .ok c) (ho : r.overlaps = true) :
    s.conclude r = { s.spoil r.output with regs := s.regs.complete c.regs, latch := none } := by
  simp [State.conclude, h, ho]

@[simp] theorem conclude_latch (s : State) (r : Report) : (s.conclude r).latch = none := by
  unfold State.conclude; split
  · rfl
  · split <;> rfl

@[simp] theorem conclude_cfg (s : State) (r : Report) : (s.conclude r).cfg = s.cfg := by
  unfold State.conclude; split
  · simp
  · split <;> simp

@[simp] theorem conclude_sched (s : State) (r : Report) : (s.conclude r).sched = s.sched := by
  unfold State.conclude; split
  · simp
  · split <;> simp

@[simp] theorem conclude_reply (s : State) (r : Report) : (s.conclude r).reply = s.reply := by
  unfold State.conclude; split
  · simp
  · split <;> simp

/-- The bytes a report commits fill its output range exactly, or there are none. -/
def Report.fits (r : Report) : Prop := ∀ c, r.result = .ok c → c.bytes.length = r.output.len

/-- A completion changes no byte outside the report's output range. -/
theorem conclude_get_outside (s : State) (r : Report) (hf : r.fits) {a : Nat} (h : Outside r.output.base r.output.len a) :
    Memory.get (s.conclude r).mem a = Memory.get s.mem a := by
  unfold State.conclude
  split
  · exact State.get_spoil_outside s _ h
  · next c hc =>
    split
    · exact State.get_spoil_outside s _ h
    · exact Memory.get_store_outside _ _ _ (by rw [hf c hc]; exact h)

/-- A completion keeps the canonical form when its output range ends in the DMA space. -/
theorem conclude_wf (s : State) (r : Report) (hf : r.fits) (hm : Memory.wf s.mem = true)
    (h : r.output.base + r.output.len ≤ dmaSize) : Memory.wf (s.conclude r).mem = true := by
  unfold State.conclude
  split
  · exact State.wf_spoil s _ hm h
  · next c hc =>
    split
    · exact State.wf_spoil s _ hm h
    · exact Memory.wf_store _ _ hm (by rw [hf c hc]; exact h)

/-! ### Errors -/

/-- A concatenation of two bit vectors as a number. -/
theorem toNat_append_add {n m : Nat} (x : BitVec n) (y : BitVec m) : (x ++ y).toNat = x.toNat * 2 ^ m + y.toNat := by
  rw [BitVec.toNat_append, ← Nat.shiftLeft_add_eq_or_of_lt y.isLt, Nat.shiftLeft_eq]

/-- ERRINFO as a number (R270): `code | detail << 8 | w[7:0] << 16`. -/
theorem errInfo_eq (k : ErrKind) (w : Word) :
    errInfo k w = BitVec.ofNat 32 ((errCode k).toNat + 256 * (errDetail k).toNat + 65536 * (w.toNat % 256)) := by
  apply BitVec.eq_of_toNat_eq
  have h1 := (errCode k).isLt
  have h2 := (errDetail k).isLt
  have h3 : w.toNat % 256 < 256 := Nat.mod_lt _ (by decide)
  have h0 : (0 : Byte).toNat = 0 := rfl
  simp only [errInfo, toNat_append_add, BitVec.toNat_ofNat, BitVec.extractLsb'_toNat, Nat.shiftRight_zero]
  omega

/-- An error before the first write, in the numbers the spec gives it. -/
theorem takeError_empty (s : State) (e : Err) :
    s.takeError e Range.empty = s.failed (errCode e.kind).toNat (errDetail e.kind).toNat e.addr e.data := by
  simp only [State.failed, State.failedRegs, ← errInfo_eq]
  rfl

end Sys2Proof.Machine
end

