-- ==== Sys2Proof/Laws/Reports.lean ====
section
/-! SUPPORT. What a command answers, read off the form of its report: one lemma per form. -/

namespace Sys2Proof.Machine

variable {i : Instr} {s : State}

/-! ### The fields of the forms -/

@[simp] theorem Report.refuse_target (e : Err) : (Report.refuse e).target = Range.empty := rfl

@[simp] theorem Report.refuse_output (e : Err) : (Report.refuse e).output = Range.empty := rfl

@[simp] theorem Report.refuse_input (e : Err) : (Report.refuse e).input = [] := rfl

@[simp] theorem Report.refuse_result (e : Err) : (Report.refuse e).result = .error e := rfl

@[simp] theorem Report.stops_input (rs : List Range) (o : Range) (e : Err) : (Report.stops rs o e).input = rs := rfl

@[simp] theorem Report.stops_target (rs : List Range) (o : Range) (e : Err) : (Report.stops rs o e).target = o := rfl

@[simp] theorem Report.stops_output (rs : List Range) (o : Range) (e : Err) : (Report.stops rs o e).output = Range.empty := rfl

@[simp] theorem Report.stops_result (rs : List Range) (o : Range) (e : Err) : (Report.stops rs o e).result = .error e := rfl

@[simp] theorem Report.assign_target (f : Regs → Regs) : (Report.assign f).target = Range.empty := rfl

@[simp] theorem Report.assign_output (f : Regs → Regs) : (Report.assign f).output = Range.empty := rfl

@[simp] theorem Report.assign_input (f : Regs → Regs) : (Report.assign f).input = [] := rfl

@[simp] theorem Report.reads_input (rs : List Range) (x : Except Err (Regs → Regs)) : (Report.reads rs x).input = rs := by
  cases x <;> rfl

@[simp] theorem Report.reads_output (rs : List Range) (x : Except Err (Regs → Regs)) :
    (Report.reads rs x).output = Range.empty := by
  cases x <;> rfl

@[simp] theorem Report.reads_target (rs : List Range) (x : Except Err (Regs → Regs)) :
    (Report.reads rs x).target = Range.empty := by
  cases x <;> rfl

@[simp] theorem Report.writes_input (p : Params) (rs : List Range) (a : Nat) (bs : List Byte) (f : Regs → Regs) :
    (Report.writes p rs a bs f).input = rs := by
  unfold Report.writes; split <;> rfl

@[simp] theorem Report.writes_output (p : Params) (rs : List Range) (a : Nat) (bs : List Byte) (f : Regs → Regs) :
    (Report.writes p rs a bs f).output = ⟨a, bs.length⟩ := by
  unfold Report.writes; split <;> rfl

@[simp] theorem Report.writes_target (p : Params) (rs : List Range) (a : Nat) (bs : List Byte) (f : Regs → Regs) :
    (Report.writes p rs a bs f).target = ⟨a, bs.length⟩ := by
  unfold Report.writes; split <;> rfl

theorem Report.writes_completes {p : Params} {a : Nat} {bs : List Byte} (rs : List Range) (f : Regs → Regs)
    (h : Completes p .write a bs.length) :
    Report.writes p rs a bs f = ⟨rs, ⟨a, bs.length⟩, ⟨a, bs.length⟩, .ok ⟨bs, f⟩⟩ := by
  unfold Report.writes; rw [(firstRefused_none_iff p .write a bs.length).2 h]

theorem Report.writes_refused {p : Params} {a k : Nat} {bs : List Byte} (rs : List Range) (f : Regs → Regs)
    (h : RefusedAt p .write a bs.length k) :
    Report.writes p rs a bs f = ⟨rs, ⟨a, bs.length⟩, ⟨a, bs.length⟩, .error (busErr .write (a + k))⟩ := by
  unfold Report.writes; rw [(firstRefused_some p .write a bs.length (a + k)).2 ⟨k, rfl, h⟩]

/-- An overlap is a byte shared with some input range (R89). -/
theorem Report.overlaps_false_iff (r : Report) :
    r.overlaps = false ↔ ∀ q ∈ r.input, Apart q.base q.len r.output.base r.output.len := by
  simp [Report.overlaps, meets_false_iff]

@[simp] theorem Report.overlaps_empty (rs : List Range) (o : Range) (x : Except Err Commit) :
    Report.overlaps ⟨rs, o, Range.empty, x⟩ = false := by
  rw [Report.overlaps_false_iff]; intro q _; exact .inr (.inl rfl)

/-! ### Answers -/

/-- A command that errs before its first write. -/
theorem exec_errs {e : Err} (hr : (reportOf i s.view).result = .error e) (ho : (reportOf i s.view).output = Range.empty) :
    exec i s = .next (s.failed (errCode e.kind).toNat (errDetail e.kind).toNat e.addr e.data) := by
  rw [exec_eq, conclude_error _ _ hr, ho, takeError_empty]

theorem exec_refuses {e : Err} (h : reportOf i s.view = .refuse e) :
    exec i s = .next (s.failed (errCode e.kind).toNat (errDetail e.kind).toNat e.addr e.data) :=
  exec_errs (by rw [h]; rfl) (by rw [h]; rfl)

theorem exec_reads_errs {rs : List Range} {e : Err} (h : reportOf i s.view = .reads rs (.error e)) :
    exec i s = .next (s.failed (errCode e.kind).toNat (errDetail e.kind).toNat e.addr e.data) :=
  exec_errs (by rw [h]; rfl) (by rw [h]; rfl)

/-- A writing command that errs before its first write. -/
theorem exec_stops {rs : List Range} {o : Range} {e : Err} (h : reportOf i s.view = .stops rs o e) :
    exec i s = .next (s.failed (errCode e.kind).toNat (errDetail e.kind).toNat e.addr e.data) :=
  exec_errs (by rw [h]; rfl) (by rw [h]; rfl)

/-- A command that errs after its first write: the output range is unspecified. -/
theorem exec_errs_writing {e : Err} {a n : Nat} (hr : (reportOf i s.view).result = .error e)
    (ho : (reportOf i s.view).output = ⟨a, n⟩) :
    FailsWriting i s (errCode e.kind).toNat (errDetail e.kind).toNat e.addr e.data a n := by
  refine ⟨_, exec_eq i s, ?_, conclude_latch _ _, fun b hb => ?_, trivial⟩
  · rw [conclude_error _ _ hr]
    simp only [State.failedRegs, ← errInfo_eq]
    rfl
  · rw [conclude_error _ _ hr, State.takeError_mem, ho]
    exact State.get_spoil_outside s ⟨a, n⟩ hb

theorem exec_assigns {f : Regs → Regs} (h : reportOf i s.view = .assign f) : Finishes i s s.mem f := by
  show exec i s = _
  rw [exec_eq, h]; rfl

theorem exec_reads {rs : List Range} {f : Regs → Regs} (h : reportOf i s.view = .reads rs (.ok f)) :
    Finishes i s s.mem f := by
  have hc := conclude_apart s (Report.reads rs (.ok f)) (c := ⟨[], f⟩) rfl (Report.overlaps_empty rs _ _)
  show exec i s = _
  rw [exec_eq, h, hc]
  rfl

/-- A command that commits: its registers, and every byte outside its output range. -/
theorem exec_commits {c : Commit} {a n : Nat} (hr : (reportOf i s.view).result = .ok c)
    (ho : (reportOf i s.view).output = ⟨a, n⟩) (hl : c.bytes.length = n) :
    AnswersWith i s { c.regs s.regs with done := true, busy := false } a n (fun _ => True) := by
  refine ⟨_, exec_eq i s, ?_, conclude_latch _ _, fun b hb => ?_, trivial⟩
  · rw [conclude_regs _ _ hr]; rfl
  · refine conclude_get_outside s _ (fun d hd => ?_) (by rw [ho]; exact hb)
    rw [hr] at hd; cases hd; rw [hl, ho]

/-- A command that commits with no overlap stores its bytes. -/
theorem exec_stores {c : Commit} {a n : Nat} (hr : (reportOf i s.view).result = .ok c)
    (ho : (reportOf i s.view).output = ⟨a, n⟩)
    (ha : ∀ q ∈ (reportOf i s.view).input, Apart q.base q.len a n) :
    Finishes i s (Memory.store s.mem a c.bytes) c.regs := by
  show exec i s = _
  rw [exec_eq, conclude_apart s _ hr ((Report.overlaps_false_iff _).2 (by rw [ho]; exact ha)), ho]
  rfl

theorem exec_writes_refused {p : Params} {rs : List Range} {a k n : Nat} {bs : List Byte} {f : Regs → Regs}
    (h : reportOf i s.view = .writes p rs a bs f) (hn : bs.length = n) (hk : RefusedAt p .write a n k) :
    FailsWriting i s 9 2 (BitVec.ofNat 32 (a + k)) 0 a n := by
  subst hn
  rw [Report.writes_refused rs f hk] at h
  exact exec_errs_writing (e := busErr .write (a + k)) (by rw [h]) (by rw [h])

theorem exec_writes {p : Params} {rs : List Range} {a n : Nat} {bs : List Byte} {f : Regs → Regs}
    (h : reportOf i s.view = .writes p rs a bs f) (hn : bs.length = n) (hk : Completes p .write a n) :
    AnswersWith i s { f s.regs with done := true, busy := false } a n (fun _ => True) := by
  subst hn
  rw [Report.writes_completes rs f hk] at h
  exact exec_commits (c := ⟨bs, f⟩) (by rw [h]) (by rw [h]) rfl

theorem exec_writes_apart {p : Params} {rs : List Range} {a n : Nat} {bs : List Byte} {f : Regs → Regs}
    (h : reportOf i s.view = .writes p rs a bs f) (hn : bs.length = n) (hk : Completes p .write a n)
    (ha : ∀ q ∈ rs, Apart q.base q.len a n) : Finishes i s (Memory.store s.mem a bs) f := by
  subst hn
  rw [Report.writes_completes rs f hk] at h
  exact exec_stores (c := ⟨bs, f⟩) (by rw [h]) (by rw [h]) (by rw [h]; exact ha)

end Sys2Proof.Machine
end

