-- ==== Sys2Proof/Laws/Chunks.lean ====
section
/-! SUPPORT. The byte strings of a chunk: big-endian fields (rule R11), and what ChunkRead answers (rule R134). -/

namespace Sys2Proof.Machine

/-! ### Big-endian fields -/

@[simp] theorem be32_length (v : Word) : (be32 v).length = 4 := rfl

/-- A field read back from its own four bytes (R11). -/
theorem u32be_be32 (v : Word) (rest : List Byte) : u32be (be32 v ++ rest) 0 = v := by
  apply BitVec.eq_of_toNat_eq
  have := v.isLt
  simp only [u32be, be32, byteAt, List.cons_append, List.nil_append, List.getD_eq_getElem?_getD, List.getElem?_cons_zero,
    List.getElem?_cons_succ, Option.getD_some, Nat.zero_add, toNat_append_add, BitVec.extractLsb'_toNat, Nat.shiftRight_eq_div_pow]
  omega

/-- The four bytes of a field are those it was read from (R11). -/
theorem be32_u32be (a b c d : Byte) : be32 (u32be [a, b, c, d] 0) = [a, b, c, d] := by
  have hd : ∀ k, (u32be [a, b, c, d] 0).extractLsb' (8 * k) 8 = [d, c, b, a].getD k 0 ∨ 4 ≤ k := by
    intro k
    by_cases hk : 4 ≤ k
    · exact .inr hk
    · left
      have h : (u32be [a, b, c, d] 0).toNat = ((a.toNat * 256 + b.toNat) * 256 + c.toNat) * 256 + d.toNat := by
        show (a ++ b ++ c ++ d).toNat = _
        simp only [toNat_append_add, Nat.reducePow]
      have ha := a.isLt
      have hb := b.isLt
      have hc := c.isLt
      have hd := d.isLt
      apply BitVec.eq_of_toNat_eq
      rw [BitVec.extractLsb'_toNat, h, Nat.shiftRight_eq_div_pow]
      have : k = 0 ∨ k = 1 ∨ k = 2 ∨ k = 3 := by omega
      rcases this with rfl | rfl | rfl | rfl <;> simp <;> omega
  simp only [be32, List.cons.injEq, and_true]
  refine ⟨?_, ?_, ?_, ?_⟩
  · simpa using hd 3
  · simpa using hd 2
  · simpa using hd 1
  · simpa using hd 0

theorem be32_bytes (m : Memory) (a : Nat) : be32 (u32be (Memory.bytes m a 4) 0) = Memory.bytes m a 4 :=
  be32_u32be _ _ _ _

/-- A byte of a string read from memory. -/
theorem byteAt_bytes (m : Memory) (a : Nat) {n i : Nat} (h : i < n) : byteAt (Memory.bytes m a n) i = Memory.get m (a + i) := by
  unfold byteAt
  rw [List.getD_eq_getElem _ _ (by simpa using h), Memory.bytes_getElem]

/-- A field inside a string read from memory is the field at its own address. -/
theorem u32be_bytes (m : Memory) (a : Nat) {n i : Nat} (h : i + 4 ≤ n) :
    u32be (Memory.bytes m a n) i = u32be (Memory.bytes m (a + i) 4) 0 := by
  simp only [u32be]
  rw [byteAt_bytes m a (by omega), byteAt_bytes m a (by omega), byteAt_bytes m a (by omega), byteAt_bytes m a (by omega),
    byteAt_bytes m _ (by omega), byteAt_bytes m _ (by omega), byteAt_bytes m _ (by omega), byteAt_bytes m _ (by omega)]
  rfl

/-! ### Access ranges -/

theorem Completes.sub {p : Params} {d : Dir} {a n b k : Nat} (h : Completes p d a n) (h1 : a ≤ b) (h2 : b + k ≤ a + n) :
    Completes p d b k := by
  intro j hj
  have := h (b - a + j) (by omega)
  rwa [show a + (b - a + j) = b + j by omega] at this

/-- A range either completes or has a first refused byte. -/
theorem completes_or_refused (p : Params) (d : Dir) (a n : Nat) : Completes p d a n ∨ ∃ k, RefusedAt p d a n k := by
  cases h : firstRefused p d a n with
  | none => exact .inl ((firstRefused_none_iff p d a n).1 h)
  | some b =>
    obtain ⟨k, -, hk⟩ := (firstRefused_some p d a n b).1 h
    exact .inr ⟨k, hk⟩

/-! ### ChunkRead -/

theorem chunkTag_of_header (m : Memory) (p : Nat) : u32be (Memory.bytes m p 8) 4 = chunkTag m p := u32be_bytes m p (by omega)

theorem chunkLen_of_header (m : Memory) (p : Nat) : (u32be (Memory.bytes m p 8) 0).toNat = chunkLen m p := by
  rw [u32be_bytes m p (by omega)]; rfl

/-- ChunkRead past its two length checks: only the CRC is left to compare. -/
theorem chunkRead_whole (v : View) {p stop : Nat} (h : p + 12 + chunkLen v.mem p ≤ stop)
    (hc : Completes v.cfg .read p (12 + chunkLen v.mem p)) :
    chunkRead v p stop =
      if crc32 (be32 (chunkTag v.mem p) ++ chunkBody v.mem p) ≠ storedCrc v.mem p then
        .error (framingErr .crc (BitVec.ofNat 32 p) (crc32 (be32 (chunkTag v.mem p) ++ chunkBody v.mem p)))
      else .ok ⟨chunkLen v.mem p, chunkTag v.mem p, p + 8, crc32 (be32 (chunkTag v.mem p) ++ chunkBody v.mem p),
        p + 12 + chunkLen v.mem p, chunkBody v.mem p⟩ := by
  unfold chunkRead
  rw [if_neg (by omega), memRead_ok v (hc.sub (Nat.le_refl p) (by omega))]
  simp only [chunkLen_of_header, chunkTag_of_header]
  rw [if_neg (by omega), memRead_ok v (hc.sub (by omega) (by omega))]
  simp only [Memory.bytes_take]
  rw [show (Memory.bytes v.mem p 8).drop 4 = be32 (chunkTag v.mem p) from by
      rw [be32_bytes]; exact Memory.bytes_drop v.mem p 4 4,
    show u32be (Memory.bytes v.mem (p + 8) (chunkLen v.mem p + 4)) (chunkLen v.mem p) = storedCrc v.mem p from
      u32be_bytes v.mem (p + 8) (by omega)]

/-- ChunkRead on a good chunk. -/
theorem chunkRead_good (v : View) {p stop : Nat} (h : GoodChunk v.cfg v.mem p stop) :
    chunkRead v p stop = .ok ⟨chunkLen v.mem p, chunkTag v.mem p, p + 8, storedCrc v.mem p, p + 12 + chunkLen v.mem p,
      chunkBody v.mem p⟩ := by
  obtain ⟨h1, h2, h3⟩ := h
  rw [chunkRead_whole v h1 h2, if_neg (by rw [← h3]; exact fun h => h rfl), ← h3]

/-- ChunkRead answers a chunk only where a good chunk stands. -/
theorem chunkRead_ok_good (v : View) {p stop : Nat} {c : Chunk} (h : chunkRead v p stop = .ok c) :
    GoodChunk v.cfg v.mem p stop := by
  unfold chunkRead at h
  split at h
  · cases h
  · next h8 =>
    split at h
    · cases h
    · next hd he =>
      obtain ⟨hc1, rfl⟩ := memRead_eq_ok v he
      simp only [chunkLen_of_header] at h
      split at h
      · cases h
      · next hn =>
        split at h
        · cases h
        · next r hr =>
          obtain ⟨hc2, -⟩ := memRead_eq_ok v hr
          have hcomp : Completes v.cfg .read p (12 + chunkLen v.mem p) := by
            intro j hj
            by_cases hj8 : j < 8
            · exact hc1 j hj8
            · have := hc2 (j - 8) (by omega)
              rwa [show p + 8 + (j - 8) = p + j by omega] at this
          have hw := chunkRead_whole v (p := p) (stop := stop) (by omega) hcomp
          refine ⟨by omega, hcomp, ?_⟩
          by_contra hne
          rw [if_pos (fun e => hne e.symm)] at hw
          unfold chunkRead at hw
          rw [if_neg h8, he] at hw
          simp only [chunkLen_of_header] at hw
          rw [if_neg hn, hr] at hw
          simp only at hw h
          rw [hw] at h
          cases h

theorem chunkRead_trunc (v : View) {p stop : Nat} (h : stop < p + 8) :
    chunkRead v p stop = .error (framingErr .trunc (BitVec.ofNat 32 p) 0) := by
  unfold chunkRead; rw [if_pos h]

end Sys2Proof.Machine
end

