-- ==== Sys2Proof/Laws/Rows.lean ====
section
/-! SUPPORT. The row loops of SCAN_FRAME and SCAN_UNFRAME (rules R182 and R186): what they answer, and the bytes they make. -/

namespace Sys2Proof.Machine

/-! ### SCAN_FRAME -/

@[simp] theorem framedRows_length (m : Memory) (rb src rows : Nat) : (framedRows m rb src rows).length = (rb + 1) * rows := by
  induction rows generalizing src with
  | zero => rfl
  | succ k ih => simp [framedRows, ih, Nat.mul_add]; omega

/-- All rows complete: the loop answers the framed bytes. -/
theorem frameRows_ok (v : View) {rb rows src dst : Nat} (hr : Completes v.cfg .read src (rb * rows))
    (hw : Completes v.cfg .write dst ((rb + 1) * rows)) :
    frameRows v rb rows src dst = .ok (framedRows v.mem rb src rows) := by
  induction rows generalizing src dst with
  | zero => rfl
  | succ k ih =>
    have e1 : rb * (k + 1) = rb + rb * k := by rw [Nat.mul_add]; omega
    have e2 : (rb + 1) * (k + 1) = (rb + 1) + (rb + 1) * k := by rw [Nat.mul_add]; omega
    rw [e1] at hr
    rw [e2] at hw
    unfold frameRows
    rw [memRead_ok v (hr.sub (Nat.le_refl _) (by omega))]
    simp only [(firstRefused_none_iff v.cfg .write dst (rb + 1)).2 (hw.sub (Nat.le_refl _) (by omega))]
    rw [ih (hr.sub (by omega) (by omega)) (hw.sub (by omega) (by omega))]
    rfl

/-- A read refused in row `r`, the rows before it passing. -/
theorem frameRows_read_refused (v : View) {rb rows src dst r k : Nat} (h : r < rows)
    (hr : Completes v.cfg .read src (r * rb)) (hw : Completes v.cfg .write dst (r * (rb + 1)))
    (hk : RefusedAt v.cfg .read (src + r * rb) rb k) :
    frameRows v rb rows src dst = .error (busErr .read (src + r * rb + k)) := by
  induction r generalizing rows src dst with
  | zero =>
    cases rows with
    | zero => omega
    | succ n =>
      simp only [Nat.zero_mul, Nat.add_zero] at hk ⊢
      unfold frameRows
      rw [memRead_refused v hk]
  | succ i ih =>
    cases rows with
    | zero => omega
    | succ n =>
      have e1 : (i + 1) * rb = rb + i * rb := by rw [Nat.add_mul]; omega
      have e2 : (i + 1) * (rb + 1) = (rb + 1) + i * (rb + 1) := by rw [Nat.add_mul]; omega
      rw [e1] at hr
      rw [e2] at hw
      rw [e1, ← Nat.add_assoc] at hk ⊢
      unfold frameRows
      rw [memRead_ok v (hr.sub (Nat.le_refl _) (by omega))]
      simp only [(firstRefused_none_iff v.cfg .write dst (rb + 1)).2 (hw.sub (Nat.le_refl _) (by omega))]
      rw [ih (by omega) (hr.sub (by omega) (by omega)) (hw.sub (by omega) (by omega)) hk]

/-- A write refused in row `r`, the rows before it passing. -/
theorem frameRows_write_refused (v : View) {rb rows src dst r k : Nat} (h : r < rows)
    (hr : Completes v.cfg .read src (r * rb + rb)) (hw : Completes v.cfg .write dst (r * (rb + 1)))
    (hk : RefusedAt v.cfg .write (dst + r * (rb + 1)) (rb + 1) k) :
    frameRows v rb rows src dst = .error (busErr .write (dst + r * (rb + 1) + k)) := by
  induction r generalizing rows src dst with
  | zero =>
    cases rows with
    | zero => omega
    | succ n =>
      simp only [Nat.zero_mul, Nat.add_zero, Nat.zero_add] at hk hr ⊢
      unfold frameRows
      rw [memRead_ok v hr]
      simp only [(firstRefused_some v.cfg .write dst (rb + 1) (dst + k)).2 ⟨k, rfl, hk⟩]
  | succ i ih =>
    cases rows with
    | zero => omega
    | succ n =>
      have e1 : (i + 1) * rb = rb + i * rb := by rw [Nat.add_mul]; omega
      have e2 : (i + 1) * (rb + 1) = (rb + 1) + i * (rb + 1) := by rw [Nat.add_mul]; omega
      rw [e1] at hr
      rw [e2] at hw
      rw [e2, ← Nat.add_assoc] at hk ⊢
      unfold frameRows
      rw [memRead_ok v (hr.sub (Nat.le_refl _) (by omega))]
      simp only [(firstRefused_none_iff v.cfg .write dst (rb + 1)).2 (hw.sub (Nat.le_refl _) (by omega))]
      rw [ih (by omega) (hr.sub (by omega) (by omega)) (hw.sub (by omega) (by omega)) hk]

/-- The filter byte of row `r` of the framed bytes is 0. -/
theorem framedRows_filter (m : Memory) {rb src rows r : Nat} (h : r < rows) :
    (framedRows m rb src rows)[r * (rb + 1)]? = some 0 := by
  induction r generalizing rows src with
  | zero =>
    cases rows with
    | zero => omega
    | succ n => simp [framedRows]
  | succ i ih =>
    cases rows with
    | zero => omega
    | succ n =>
      rw [framedRows, List.getElem?_append_right (by simp [Nat.add_mul])]
      rw [show (i + 1) * (rb + 1) - (0 :: Memory.bytes m src rb).length = i * (rb + 1) by simp [Nat.add_mul]]
      exact ih (by omega)

/-- Pixel byte `j` of row `r` of the framed bytes is the source's. -/
theorem framedRows_pixel (m : Memory) {rb src rows r j : Nat} (h : r < rows) (hj : j < rb) :
    (framedRows m rb src rows)[r * (rb + 1) + 1 + j]? = some (Memory.get m (src + r * rb + j)) := by
  induction r generalizing rows src with
  | zero =>
    cases rows with
    | zero => omega
    | succ n =>
      rw [framedRows, List.getElem?_append_left (by simp; omega), show 0 * (rb + 1) + 1 + j = j + 1 by omega,
        List.getElem?_cons_succ, List.getElem?_eq_getElem (by simpa using hj), Memory.bytes_getElem]
      simp
  | succ i ih =>
    cases rows with
    | zero => omega
    | succ n =>
      have e : (i + 1) * (rb + 1) = (rb + 1) + i * (rb + 1) := by rw [Nat.add_mul]; omega
      have e1 : (i + 1) * rb = rb + i * rb := by rw [Nat.add_mul]; omega
      rw [framedRows, List.getElem?_append_right (by simp; omega)]
      rw [show (i + 1) * (rb + 1) + 1 + j - (0 :: Memory.bytes m src rb).length = i * (rb + 1) + 1 + j by simp; omega]
      rw [ih (by omega), e1, ← Nat.add_assoc]

/-! ### SCAN_UNFRAME -/

/-- The pixel bytes of `rows` framed rows at `src`: each row's bytes after its filter byte. -/
def pixelRows (m : Memory) (rb src rows : Nat) : List Byte :=
  match rows with
  | 0 => []
  | k + 1 => Memory.bytes m (src + 1) rb ++ pixelRows m rb (src + (rb + 1)) k

@[simp] theorem pixelRows_length (m : Memory) (rb src rows : Nat) : (pixelRows m rb src rows).length = rows * rb := by
  induction rows generalizing src with
  | zero => simp [pixelRows]
  | succ k ih => simp [pixelRows, ih, Nat.add_mul]; omega

/-- Pixel byte `j` of row `r` is the byte after the row's filter byte. -/
theorem pixelRows_pixel (m : Memory) {rb src rows r j : Nat} (h : r < rows) (hj : j < rb) :
    (pixelRows m rb src rows)[r * rb + j]? = some (Memory.get m (src + r * (rb + 1) + 1 + j)) := by
  induction r generalizing rows src with
  | zero =>
    cases rows with
    | zero => omega
    | succ n =>
      rw [pixelRows, List.getElem?_append_left (by simp; omega), show 0 * rb + j = j by omega,
        List.getElem?_eq_getElem (by simpa using hj), Memory.bytes_getElem]
      simp
  | succ i ih =>
    cases rows with
    | zero => omega
    | succ n =>
      have e : (i + 1) * rb = rb + i * rb := by rw [Nat.add_mul]; omega
      have e1 : (i + 1) * (rb + 1) = (rb + 1) + i * (rb + 1) := by rw [Nat.add_mul]; omega
      rw [pixelRows, List.getElem?_append_right (by simp; omega)]
      rw [show (i + 1) * rb + j - (Memory.bytes m (src + 1) rb).length = i * rb + j by simp; omega]
      rw [ih (by omega), e1, ← Nat.add_assoc src (rb + 1)]

/-- A row whose filter byte is 0. -/
theorem unframeRow_ok (v : View) {rb src : Nat} (hr : Completes v.cfg .read src (rb + 1)) (hf : Memory.get v.mem src = 0) :
    unframeRow v rb src = .ok (Memory.bytes v.mem (src + 1) rb) := by
  unfold unframeRow
  rw [memRead_ok v (hr.sub (Nat.le_refl _) (by omega))]
  simp only [byteAt_bytes v.mem src (show 0 < 1 by omega), Nat.add_zero, hf]
  rw [if_neg (by simp), memRead_ok v (hr.sub (by omega) (by omega))]

/-- All rows pass: the loop answers the pixel bytes. -/
theorem unframeRows_ok (v : View) {rb rows src dst : Nat} (hr : Completes v.cfg .read src (rows * (rb + 1)))
    (hw : Completes v.cfg .write dst (rows * rb)) (hf : ∀ r, r < rows → Memory.get v.mem (src + r * (rb + 1)) = 0) :
    unframeRows v rb rows src dst = .ok (pixelRows v.mem rb src rows) := by
  induction rows generalizing src dst with
  | zero => rfl
  | succ k ih =>
    have e1 : (k + 1) * (rb + 1) = (rb + 1) + k * (rb + 1) := by rw [Nat.add_mul]; omega
    have e2 : (k + 1) * rb = rb + k * rb := by rw [Nat.add_mul]; omega
    rw [e1] at hr
    rw [e2] at hw
    unfold unframeRows
    rw [unframeRow_ok v (hr.sub (Nat.le_refl _) (by omega)) (by simpa using hf 0 (by omega))]
    simp only [(firstRefused_none_iff v.cfg .write dst rb).2 (hw.sub (Nat.le_refl _) (by omega))]
    rw [ih (hr.sub (by omega) (by omega)) (hw.sub (by omega) (by omega)) fun r h => by
      have := hf (r + 1) (by omega)
      rwa [show src + (r + 1) * (rb + 1) = src + (rb + 1) + r * (rb + 1) by rw [Nat.add_mul]; omega] at this]
    rfl

/-- The rows before row `r` pass: the loop answers what row `r` makes of it. -/
theorem unframeRows_reaches (v : View) {rb rows src dst r : Nat} {e : Err} (h : r < rows)
    (hr : Completes v.cfg .read src (r * (rb + 1))) (hw : Completes v.cfg .write dst (r * rb))
    (hf : ∀ i, i < r → Memory.get v.mem (src + i * (rb + 1)) = 0)
    (he : unframeRows v rb (rows - r) (src + r * (rb + 1)) (dst + r * rb) = .error e) :
    unframeRows v rb rows src dst = .error e := by
  induction r generalizing rows src dst with
  | zero => simpa using he
  | succ i ih =>
    cases rows with
    | zero => omega
    | succ n =>
      have e1 : (i + 1) * (rb + 1) = (rb + 1) + i * (rb + 1) := by rw [Nat.add_mul]; omega
      have e2 : (i + 1) * rb = rb + i * rb := by rw [Nat.add_mul]; omega
      rw [e1] at hr
      rw [e2] at hw
      rw [e1, e2, ← Nat.add_assoc src (rb + 1), ← Nat.add_assoc dst rb, Nat.succ_sub_succ] at he
      unfold unframeRows
      rw [unframeRow_ok v (hr.sub (Nat.le_refl _) (by omega)) (by simpa using hf 0 (by omega))]
      simp only [(firstRefused_none_iff v.cfg .write dst rb).2 (hw.sub (Nat.le_refl _) (by omega))]
      rw [ih (by omega) (hr.sub (by omega) (by omega)) (hw.sub (by omega) (by omega)) (fun r h => by
        have := hf (r + 1) (by omega)
        rwa [show src + (r + 1) * (rb + 1) = src + (rb + 1) + r * (rb + 1) by rw [Nat.add_mul]; omega] at this) he]

end Sys2Proof.Machine
end

