-- ==== Sys2Proof/Laws/Extent.lean ====
section
/-! SUPPORT. The extent of a command: the output range its report can name (rules R88, R133, R272), and that what it commits
fills that range. -/

namespace Sys2Proof.Machine

@[simp] theorem chunkBytes_length (t : Word) (b : List Byte) : (chunkBytes t b).length = 12 + b.length := by
  simp [chunkBytes]; omega

theorem not_wraps {a : Word} {n : Nat} (h : ¬ wraps a n = true) : Fits a n :=
  (wraps_false_iff a n).1 (by simpa using h)

/-- The report's output range is the range of no byte, or the command's whole range at DST, which fits below 2^32; what the
command reaches to write is all of it or none. -/
def Report.within (r : Report) (x : Regs) (n : Nat) : Prop :=
  r.fits ∧ (r.target = Range.empty ∨ (r.target = ⟨x.dst.toNat, n⟩ ∧ Fits x.dst n)) ∧
    (r.output = Range.empty ∨ r.output = r.target)

theorem Report.refuse_within (e : Err) (x : Regs) (n : Nat) : (Report.refuse e).within x n :=
  ⟨fun c h => by simp at h, .inl rfl, .inl rfl⟩

theorem Report.stops_within (rs : List Range) (e : Err) {x : Regs} {n : Nat} (hx : Fits x.dst n) :
    (Report.stops rs ⟨x.dst.toNat, n⟩ e).within x n :=
  ⟨fun c h => by simp at h, .inr ⟨rfl, hx⟩, .inl rfl⟩

theorem Report.assign_within (f : Regs → Regs) (x : Regs) (n : Nat) : (Report.assign f).within x n :=
  ⟨fun c h => by simp only [Report.assign, Except.ok.injEq] at h; subst h; rfl, .inl rfl, .inl rfl⟩

theorem Report.reads_within (rs : List Range) (y : Except Err (Regs → Regs)) (x : Regs) (n : Nat) :
    (Report.reads rs y).within x n := by
  refine ⟨fun c h => ?_, .inl (Report.reads_target rs y), .inl (Report.reads_output rs y)⟩
  cases y with
  | error e => simp [Report.reads] at h
  | ok f => simp only [Report.reads, Except.ok.injEq] at h; subst h; rfl

theorem Report.writes_within (p : Params) (rs : List Range) (bs : List Byte) (f : Regs → Regs) {x : Regs} {n : Nat}
    (hn : bs.length = n) (hx : Fits x.dst n) : (Report.writes p rs x.dst.toNat bs f).within x n := by
  subst hn
  refine ⟨fun c h => ?_, .inr ⟨Report.writes_target _ _ _ _ _, hx⟩, .inr ?_⟩
  swap; · rw [Report.writes_output, Report.writes_target]
  rw [Report.writes_output]
  unfold Report.writes at h
  split at h
  · simp at h
  · simp only [Except.ok.injEq] at h; subst h; rfl

theorem frameRows_length (v : View) {rb rows src dst : Nat} {bs : List Byte} (h : frameRows v rb rows src dst = .ok bs) :
    bs.length = (rb + 1) * rows := by
  induction rows generalizing src dst bs with
  | zero => cases h; rfl
  | succ k ih =>
    unfold frameRows at h
    split at h
    · cases h
    · next row hrow =>
      split at h
      · cases h
      · split at h
        · cases h
        · next rest hrest =>
          cases h
          have := ih hrest
          rw [(memRead_eq_ok v hrow).2]
          simp [this, Nat.mul_add]; omega

theorem unframeRow_length (v : View) {rb src : Nat} {bs : List Byte} (h : unframeRow v rb src = .ok bs) : bs.length = rb := by
  unfold unframeRow at h
  split at h
  · cases h
  · split at h
    · cases h
    · rw [(memRead_eq_ok v h).2]; simp

theorem unframeRows_length (v : View) {rb rows src dst : Nat} {bs : List Byte} (h : unframeRows v rb rows src dst = .ok bs) :
    bs.length = rows * rb := by
  induction rows generalizing src dst bs with
  | zero => cases h; simp
  | succ k ih =>
    unfold unframeRows at h
    split at h
    · cases h
    · next row hrow =>
      split at h
      · cases h
      · split at h
        · cases h
        · next rest hrest =>
          cases h
          simp [ih hrest, unframeRow_length v hrow, Nat.add_mul]; omega

theorem reportScanFrame_within (v : View) : (reportScanFrame v).within v.x (outputSpan .scanFrame v.x) := by
  unfold reportScanFrame
  dsimp only
  split; · exact Report.refuse_within _ _ _
  split; · exact Report.refuse_within _ _ _
  split; · exact Report.refuse_within _ _ _
  split; · exact Report.refuse_within _ _ _
  split; · exact Report.refuse_within _ _ _
  next hd =>
  split; · exact Report.refuse_within _ _ _
  split; · exact Report.stops_within _ _ (not_wraps hd)
  split
  · exact ⟨fun c h => by simp at h, .inr ⟨rfl, not_wraps hd⟩, .inr rfl⟩
  · next bs hbs =>
    refine ⟨fun c h => ?_, .inr ⟨rfl, not_wraps hd⟩, .inr rfl⟩
    simp only [Except.ok.injEq] at h
    subst h
    exact frameRows_length v hbs

theorem reportScanUnframe_within (v : View) : (reportScanUnframe v).within v.x (outputSpan .scanUnframe v.x) := by
  unfold reportScanUnframe
  dsimp only
  split; · exact Report.refuse_within _ _ _
  split; · exact Report.refuse_within _ _ _
  split; · exact Report.refuse_within _ _ _
  split; · exact Report.refuse_within _ _ _
  split; · exact Report.refuse_within _ _ _
  next hd =>
  split; · exact Report.refuse_within _ _ _
  have hspan : outputSpan .scanUnframe v.x = v.x.len.toNat / (3 * v.x.width.toNat + 1) * (3 * v.x.width.toNat) := rfl
  rw [hspan]
  generalize v.x.len.toNat / (3 * v.x.width.toNat + 1) = rows at hd ⊢
  have hd := not_wraps hd
  cases rows with
  | zero =>
    refine ⟨fun c h => ?_, .inr ⟨rfl, hd⟩, .inl rfl⟩
    simp only [unframeRows, Except.ok.injEq] at h
    subst h; rfl
  | succ k =>
    simp only [unframeOutput]
    split
    · next hrow =>
      refine ⟨fun c h => ?_, .inr ⟨rfl, hd⟩, .inl rfl⟩
      simp only [unframeRows, hrow, reduceCtorEq] at h
    · refine ⟨fun c h => ?_, .inr ⟨rfl, hd⟩, .inr rfl⟩
      split at h
      · simp at h
      · next bs hbs =>
        simp only [Except.ok.injEq] at h
        subst h
        exact unframeRows_length v hbs

theorem reportMergePiece_within (f l : Bool) (v : View) :
    (reportMergePiece f l v).within v.x (outputSpan (.mergePiece f l) v.x) := by
  unfold reportMergePiece
  dsimp only
  split; · exact Report.refuse_within _ _ _
  split; · exact Report.refuse_within _ _ _
  next hk =>
  split; · exact Report.refuse_within _ _ _
  split; · exact Report.refuse_within _ _ _
  next hd =>
  split; · exact Report.stops_within _ _ (not_wraps hd)
  next b hb =>
  refine Report.writes_within _ _ _ _ ?_ (not_wraps hd)
  rw [(memRead_eq_ok v hb).2, chunkBytes_length]
  have : outputSpan (.mergePiece f l) v.x = 12 + (v.x.len.toNat - mergeHead f) := rfl
  rw [this]
  cases l <;> simp only [mergedBody, tailBytes, List.length_append, Memory.bytes_length, be32_length, if_true] at hk ⊢
  · simp
  · omega

theorem reportSplitPiece_within (f l : Bool) (v : View) :
    (reportSplitPiece f l v).within v.x (outputSpan (.splitPiece f l) v.x) := by
  unfold reportSplitPiece
  dsimp only
  split; · exact Report.refuse_within _ _ _
  split; · exact Report.refuse_within _ _ _
  split; · exact Report.refuse_within _ _ _
  next hd =>
  split; · exact Report.stops_within _ _ (not_wraps hd)
  next d hdd =>
  split; · exact Report.stops_within _ _ (not_wraps hd)
  refine Report.writes_within _ _ _ _ ?_ (not_wraps hd)
  rw [(memRead_eq_ok v hdd).2]
  simp [outputSpan]

/-- The buffers of a CHUNK_PUT that passes its range checks, whatever its source reads (R138). -/
theorem reportChunkPut_ranges (v : View) (hs : Fits v.x.src v.x.len.toNat) (hd : Fits v.x.dst (12 + v.x.len.toNat)) :
    (reportChunkPut v).input = [⟨v.x.src.toNat, v.x.len.toNat⟩] ∧
    (reportChunkPut v).target = ⟨v.x.dst.toNat, 12 + v.x.len.toNat⟩ := by
  unfold reportChunkPut
  rw [← wraps_false_iff] at hs hd
  simp only [hs, hd, Bool.false_eq_true, ↓reduceIte]
  split
  · exact ⟨rfl, rfl⟩
  · next b hb => simp [chunkBytes_length, (memRead_eq_ok v hb).2]

theorem reportChunkPut_within (v : View) : (reportChunkPut v).within v.x (outputSpan .chunkPut v.x) := by
  unfold reportChunkPut
  dsimp only
  split; · exact Report.refuse_within _ _ _
  split; · exact Report.refuse_within _ _ _
  next hd =>
  split; · exact Report.stops_within _ _ (not_wraps hd)
  next b hb =>
  refine Report.writes_within _ _ _ _ ?_ (not_wraps hd)
  rw [(memRead_eq_ok v hb).2, chunkBytes_length, Memory.bytes_length]
  rfl

/-- Every command: what it commits fills its output range, and that range is the command's own at DST (or empty). -/
theorem reportOf_within (i : Instr) (v : View) : (reportOf i v).within v.x (outputSpan i v.x) := by
  cases i with
  | magicPut =>
    show (reportMagicPut v).within v.x 8
    unfold reportMagicPut
    split
    · exact Report.refuse_within _ _ _
    · next h => exact Report.writes_within _ _ _ _ rfl (not_wraps h)
  | chunkPut => exact reportChunkPut_within v
  | ihdrPut =>
    show (reportIhdrPut v).within v.x 25
    unfold reportIhdrPut
    split; · exact Report.refuse_within _ _ _
    split; · exact Report.refuse_within _ _ _
    next h => exact Report.writes_within _ _ _ _ (by simp [headerBody]) (not_wraps h)
  | descPut =>
    show (reportDescPut v).within v.x 17
    unfold reportDescPut
    dsimp only
    split; · exact Report.refuse_within _ _ _
    split; · exact Report.refuse_within _ _ _
    split; · exact Report.refuse_within _ _ _
    next h => exact Report.writes_within _ _ _ _ (by simp) (not_wraps h)
  | scanFrame => exact reportScanFrame_within v
  | mergePiece f l => exact reportMergePiece_within f l v
  | splitPiece f l => exact reportSplitPiece_within f l v
  | scanUnframe => exact reportScanUnframe_within v
  | magicChk =>
    show (reportMagicChk v).within v.x 0
    unfold reportMagicChk
    dsimp only
    split
    · exact Report.refuse_within _ _ _
    · exact Report.reads_within _ _ _ _
  | chunkGet => exact Report.reads_within _ _ _ _
  | ihdrGet => exact Report.reads_within _ _ _ _
  | hdrScan => exact Report.reads_within _ _ _ _
  | dataGet => exact Report.reads_within _ _ _ _
  | bandCfg =>
    show (reportBandCfg v).within v.x 0
    unfold reportBandCfg
    dsimp only
    split; · exact Report.refuse_within _ _ _
    split; · exact Report.refuse_within _ _ _
    split; · exact Report.refuse_within _ _ _
    split; · exact Report.refuse_within _ _ _
    exact Report.assign_within _ _ _
  | nop => exact Report.assign_within _ _ _
  | cmbInit => exact Report.assign_within _ _ _
  | cmbLoad => exact Report.assign_within _ _ _
  | cmbFold =>
    show (foldInto v v.x.opa v.x.oplen).within v.x 0
    unfold foldInto
    split <;> exact Report.assign_within _ _ _
  | cmbPair => exact Report.assign_within _ _ _
  | adlInit => exact Report.assign_within _ _ _
  | adlFold =>
    show (reportAdlFold v).within v.x 0
    unfold reportAdlFold
    split <;> exact Report.assign_within _ _ _
  | trlChk sel e =>
    show (reportTrlChk sel e v).within v.x 0
    unfold reportTrlChk
    split; · exact Report.refuse_within _ _ _
    split; · exact Report.refuse_within _ _ _
    exact Report.assign_within _ _ _

/-- The output range of every report, as its range checks give it, ends in the DMA space. -/
theorem reportOf_target_bound (i : Instr) (v : View) :
    (reportOf i v).target.base + (reportOf i v).target.len ≤ dmaSize := by
  rcases (reportOf_within i v).2.1 with h | ⟨h, hf⟩
  · rw [h]; decide
  · rw [h]; exact hf

/-- What every report reaches to write ends in the DMA space. -/
theorem reportOf_bound (i : Instr) (v : View) : (reportOf i v).output.base + (reportOf i v).output.len ≤ dmaSize := by
  rcases (reportOf_within i v).2.2 with h | h
  · rw [h]; decide
  · rw [h]; exact reportOf_target_bound i v

/-- A byte outside the command's whole range at DST is outside its output range. -/
theorem reportOf_target_outside (i : Instr) (v : View) {a : Nat} (h : Outside v.x.dst.toNat (outputSpan i v.x) a) :
    Outside (reportOf i v).target.base (reportOf i v).target.len a := by
  rcases (reportOf_within i v).2.1 with e | ⟨e, -⟩ <;> rw [e]
  · exact .inr (Nat.zero_le a)
  · exact h

/-- A byte outside the command's whole range at DST is outside what it reaches to write. -/
theorem reportOf_outside (i : Instr) (v : View) {a : Nat} (h : Outside v.x.dst.toNat (outputSpan i v.x) a) :
    Outside (reportOf i v).output.base (reportOf i v).output.len a := by
  rcases (reportOf_within i v).2.2 with e | e <;> rw [e]
  · exact .inr (Nat.zero_le a)
  · exact reportOf_target_outside i v h

end Sys2Proof.Machine
end

