-- ==== Sys2Proof/Laws/Commits.lean ====
section
/-! SUPPORT. The registers each command assigns when it succeeds, read off its report: one lemma per command. -/

namespace Sys2Proof.Machine

/-- A refusal commits nothing. -/
theorem Report.refuse_commits {e : Err} {c : Commit} (h : (Report.refuse e).result = .ok c) : False := by
  simp at h

/-- An error before the first write commits nothing. -/
theorem Report.stops_commits {rs : List Range} {o : Range} {e : Err} {c : Commit}
    (h : (Report.stops rs o e).result = .ok c) : False := by
  simp at h

/-- What a command that only assigns commits. -/
theorem Report.assign_commits {f : Regs → Regs} {c : Commit} (h : (Report.assign f).result = .ok c) : c.regs = f := by
  simp only [Report.assign, Except.ok.injEq] at h; subst h; rfl

/-- What a reading command commits is its result. -/
theorem Report.reads_commits {rs : List Range} {y : Except Err (Regs → Regs)} {c : Commit}
    (h : (Report.reads rs y).result = .ok c) : y = .ok c.regs := by
  cases y with
  | error e => simp [Report.reads] at h
  | ok f => simp only [Report.reads, Except.ok.injEq] at h; subst h; rfl

/-- What a writing command commits beside its bytes. -/
theorem Report.writes_commits {p : Params} {rs : List Range} {a : Nat} {bs : List Byte} {f : Regs → Regs} {c : Commit}
    (h : (Report.writes p rs a bs f).result = .ok c) : c.regs = f := by
  unfold Report.writes at h
  split at h
  · simp at h
  · simp only [Except.ok.injEq] at h; subst h; rfl

variable {v : View} {c : Commit}

/-- MAGIC_PUT assigns DST (R136). -/
theorem reportMagicPut_commits (h : (reportMagicPut v).result = .ok c) : c.regs = fun r => { r with dst := advance v.x.dst 8 } := by
  unfold reportMagicPut at h
  split at h
  · exact (Report.refuse_commits h).elim
  · exact Report.writes_commits h

/-- MAGIC_CHK assigns SRC (R137). -/
theorem reportMagicChk_commits (h : (reportMagicChk v).result = .ok c) : c.regs = fun r => { r with src := advance v.x.src 8 } := by
  unfold reportMagicChk at h
  dsimp only at h
  split at h
  · exact (Report.refuse_commits h).elim
  · have := Report.reads_commits h
    split at this
    · cases this
    · split at this
      · cases this
      · simp only [Except.ok.injEq] at this; exact this.symm

/-- CHUNK_PUT assigns CRC, SRC and DST (R138). -/
theorem reportChunkPut_commits (h : (reportChunkPut v).result = .ok c) :
    ∃ k, c.regs = fun r => { r with
      crc := k, src := advance v.x.src v.x.len.toNat, dst := advance v.x.dst (12 + v.x.len.toNat) } := by
  unfold reportChunkPut at h
  dsimp only at h
  split at h; · exact (Report.refuse_commits h).elim
  split at h; · exact (Report.refuse_commits h).elim
  split at h
  · exact (Report.stops_commits h).elim
  · exact ⟨_, Report.writes_commits h⟩

/-- CHUNK_GET assigns the chunk's registers, SRC and KIND (R139). -/
theorem reportChunkGet_commits (h : (reportChunkGet v).result = .ok c) :
    ∃ k, c.regs = fun r => { r.setChunk k with src := BitVec.ofNat 32 k.next, kind := classify v.cfg k.tag } := by
  have := Report.reads_commits h
  split at this
  · cases this
  · simp only [Except.ok.injEq] at this; exact ⟨_, this.symm⟩

/-- IHDR_PUT assigns CRC and DST (R141). -/
theorem reportIhdrPut_commits (h : (reportIhdrPut v).result = .ok c) :
    ∃ k, c.regs = fun r => { r with crc := k, dst := advance v.x.dst 25 } := by
  unfold reportIhdrPut at h
  split at h; · exact (Report.refuse_commits h).elim
  split at h; · exact (Report.refuse_commits h).elim
  exact ⟨_, Report.writes_commits h⟩

/-- IHDR_GET assigns the chunk's registers, WIDTH, HEIGHT, SRC, KIND and DESC_SEEN (R142). -/
theorem reportIhdrGet_commits (h : (reportIhdrGet v).result = .ok c) :
    ∃ (k : Chunk) (w g : Word), c.regs = fun r => { r.setChunk k with
      width := w, height := g, src := BitVec.ofNat 32 k.next, kind := .other, descSeen := false } := by
  have := Report.reads_commits h
  split at this
  · cases this
  · split at this
    · cases this
    · simp only [Except.ok.injEq] at this; exact ⟨_, _, _, this.symm⟩

/-- DESC_PUT assigns CRC and DST (R144). -/
theorem reportDescPut_commits (h : (reportDescPut v).result = .ok c) :
    ∃ k, c.regs = fun r => { r with crc := k, dst := advance v.x.dst 17 } := by
  unfold reportDescPut at h
  dsimp only at h
  split at h; · exact (Report.refuse_commits h).elim
  split at h; · exact (Report.refuse_commits h).elim
  split at h; · exact (Report.refuse_commits h).elim
  exact ⟨_, Report.writes_commits h⟩

/-- HDR_SCAN assigns what its stop gives (R145). -/
theorem reportHdrScan_commits (h : (reportHdrScan v).result = .ok c) : ∃ stop, c.regs = scanCommit v stop := by
  have := Report.reads_commits h
  split at this
  · cases this
  · simp only [Except.ok.injEq] at this; exact ⟨_, this.symm⟩

/-- DATA_GET assigns the chunk's registers, SRC and KIND (R146). -/
theorem reportDataGet_commits (h : (reportDataGet v).result = .ok c) :
    ∃ (k : Chunk) (d : Kind), c.regs = fun r => { r.setChunk k with src := BitVec.ofNat 32 k.next, kind := d } := by
  have := Report.reads_commits h
  split at this
  · cases this
  · split at this
    · simp only [Except.ok.injEq] at this; exact ⟨_, _, this.symm⟩
    · split at this
      · split at this
        · cases this
        · simp only [Except.ok.injEq] at this; exact ⟨_, _, this.symm⟩
      · cases this

/-- BAND_CFG assigns PIECE_H (R181). -/
theorem reportBandCfg_commits (h : (reportBandCfg v).result = .ok c) :
    c.regs = fun r => { r with pieceH := BitVec.ofNat 32 (v.x.height.toNat / v.x.npieces.toNat) } := by
  unfold reportBandCfg at h
  dsimp only at h
  split at h; · exact (Report.refuse_commits h).elim
  split at h; · exact (Report.refuse_commits h).elim
  split at h; · exact (Report.refuse_commits h).elim
  split at h; · exact (Report.refuse_commits h).elim
  exact Report.assign_commits h

/-- SCAN_FRAME assigns ADL, ADL_LEN, SRC and DST (R182). -/
theorem reportScanFrame_commits (h : (reportScanFrame v).result = .ok c) :
    ∃ n a d, c.regs = fun r => { r with adl := adlerUpdate v.x.adl c.bytes, adlLen := n, src := a, dst := d } := by
  unfold reportScanFrame at h
  dsimp only at h
  split at h; · exact (Report.refuse_commits h).elim
  split at h; · exact (Report.refuse_commits h).elim
  split at h; · exact (Report.refuse_commits h).elim
  split at h; · exact (Report.refuse_commits h).elim
  split at h; · exact (Report.refuse_commits h).elim
  split at h; · exact (Report.refuse_commits h).elim
  split at h
  · exact (Report.stops_commits h).elim
  · split at h
    · cases h
    · simp only [Except.ok.injEq] at h; subst h; exact ⟨_, _, _, rfl⟩

/-- MERGE_PIECE assigns CRC, SRC and DST (R184). -/
theorem reportMergePiece_commits {f l : Bool} (h : (reportMergePiece f l v).result = .ok c) :
    ∃ k a d, c.regs = fun r => { r with crc := k, src := a, dst := d } := by
  unfold reportMergePiece at h
  dsimp only at h
  split at h; · exact (Report.refuse_commits h).elim
  split at h; · exact (Report.refuse_commits h).elim
  split at h; · exact (Report.refuse_commits h).elim
  split at h; · exact (Report.refuse_commits h).elim
  split at h
  · exact (Report.stops_commits h).elim
  · exact ⟨_, _, _, Report.writes_commits h⟩

/-- SPLIT_PIECE assigns DST, and TRAILER with L (R185). -/
theorem reportSplitPiece_commits {f l : Bool} (h : (reportSplitPiece f l v).result = .ok c) :
    ∃ k d, c.regs = fun r => { r with trailer := if l then k else r.trailer, dst := d } := by
  unfold reportSplitPiece at h
  dsimp only at h
  split at h; · exact (Report.refuse_commits h).elim
  split at h; · exact (Report.refuse_commits h).elim
  split at h; · exact (Report.refuse_commits h).elim
  split at h
  · exact (Report.stops_commits h).elim
  · split at h
    · exact (Report.stops_commits h).elim
    · exact ⟨_, _, Report.writes_commits h⟩

/-- SCAN_UNFRAME assigns ADL, ADL_LEN, SRC and DST (R186). -/
theorem reportScanUnframe_commits (h : (reportScanUnframe v).result = .ok c) :
    ∃ bs n a d, c.regs = fun r => { r with adl := adlerUpdate v.x.adl bs, adlLen := n, src := a, dst := d } := by
  unfold reportScanUnframe at h
  dsimp only at h
  split at h; · exact (Report.refuse_commits h).elim
  split at h; · exact (Report.refuse_commits h).elim
  split at h; · exact (Report.refuse_commits h).elim
  split at h; · exact (Report.refuse_commits h).elim
  split at h; · exact (Report.refuse_commits h).elim
  split at h; · exact (Report.refuse_commits h).elim
  split at h
  · cases h
  · simp only [Except.ok.injEq] at h; subst h; exact ⟨_, _, _, _, rfl⟩

/-- A fold assigns ACC, ACC_VALID and NCANON (R217, R220). -/
theorem foldInto_commits {k n : Word} (h : (foldInto v k n).result = .ok c) :
    ∃ a b, c.regs = fun r => { r.noteCanon b with acc := a, accValid := true } := by
  unfold foldInto at h
  split at h
  · refine ⟨k, false, (Report.assign_commits h).trans ?_⟩
    funext r; simp [Regs.noteCanon]
  · exact ⟨_, _, Report.assign_commits h⟩

/-- ADL_FOLD assigns ACC, ACC_VALID and NCANON (R220). -/
theorem reportAdlFold_commits (h : (reportAdlFold v).result = .ok c) :
    ∃ a b, c.regs = fun r => { r.noteCanon b with acc := a, accValid := true } := by
  unfold reportAdlFold at h
  split at h
  · refine ⟨v.x.adl, false, (Report.assign_commits h).trans ?_⟩
    funext r; simp [Regs.noteCanon]
  · exact ⟨_, _, Report.assign_commits h⟩

/-- TRL_CHK assigns TRL_MATCH (R221). -/
theorem reportTrlChk_commits {s e : Bool} (h : (reportTrlChk s e v).result = .ok c) :
    ∃ b, c.regs = fun r => { r with trlMatch := b } := by
  unfold reportTrlChk at h
  split at h; · exact (Report.refuse_commits h).elim
  split at h; · exact (Report.refuse_commits h).elim
  exact ⟨_, Report.assign_commits h⟩

end Sys2Proof.Machine
end

