-- ==== Sys2Proof/Laws/PerInstr.lean ====
section
/-! SUPPORT. The family EncodesToItsRow: the word of every command is one that some row of the opcode map selects (R114, R119),
one lemma per constructor. -/

namespace Sys2Proof.Laws.EncodesToItsRow

/-- The word of the command is legal: a row of R114 selects it. -/
def Statement (i : Instr) : Prop := legalWord (encode i) = true

theorem nop : Statement .nop := by unfold Statement; decide
theorem magicPut : Statement .magicPut := by unfold Statement; decide
theorem magicChk : Statement .magicChk := by unfold Statement; decide
theorem chunkPut : Statement .chunkPut := by unfold Statement; decide
theorem chunkGet : Statement .chunkGet := by unfold Statement; decide
theorem ihdrPut : Statement .ihdrPut := by unfold Statement; decide
theorem ihdrGet : Statement .ihdrGet := by unfold Statement; decide
theorem descPut : Statement .descPut := by unfold Statement; decide
theorem hdrScan : Statement .hdrScan := by unfold Statement; decide
theorem dataGet : Statement .dataGet := by unfold Statement; decide
theorem bandCfg : Statement .bandCfg := by unfold Statement; decide
theorem scanFrame : Statement .scanFrame := by unfold Statement; decide
theorem mergePiece (f l : Bool) : Statement (.mergePiece f l) := by unfold Statement; revert f l; decide
theorem splitPiece (f l : Bool) : Statement (.splitPiece f l) := by unfold Statement; revert f l; decide
theorem scanUnframe : Statement .scanUnframe := by unfold Statement; decide
theorem cmbInit : Statement .cmbInit := by unfold Statement; decide
theorem cmbLoad : Statement .cmbLoad := by unfold Statement; decide
theorem cmbFold : Statement .cmbFold := by unfold Statement; decide
theorem cmbPair : Statement .cmbPair := by unfold Statement; decide
theorem adlInit : Statement .adlInit := by unfold Statement; decide
theorem adlFold : Statement .adlFold := by unfold Statement; decide
theorem trlChk (s e : Bool) : Statement (.trlChk s e) := by unfold Statement; revert s e; decide

end Sys2Proof.Laws.EncodesToItsRow
end

