-- ==== Sys2Proof/Laws/Scan.lean ====
section
/-! SUPPORT. HDR_SCAN's loop (rule R145 of 40_chunk.md) on a stream that starts with unrecognised chunks, and IHDR_GET's checks
(R142). -/

namespace Sys2Proof.Machine

/-! ### The configuration -/

/-- Under a well-formed configuration the descriptor's tag is none of the other three (R7). -/
theorem Params.wellFormed_tags {p : Params} (h : p.wellFormed = true) :
    tagData ≠ p.tagDesc ∧ tagHdr ≠ p.tagDesc ∧ tagEnd ≠ p.tagDesc := by
  simp only [Params.wellFormed, Bool.and_eq_true, bne_iff_ne, ne_eq] at h
  exact ⟨fun e => h.1.2 e.symm, fun e => h.1.1 e.symm, fun e => h.2 e.symm⟩

/-! ### The skipped chunks -/

/-- Skipped chunks take at least 12 bytes each, and end within the stream. -/
theorem SkipsTo.bound {p : Params} {m : Memory} {stop k a b : Nat} (h : SkipsTo p m stop k a b) :
    a + 12 * k ≤ b ∧ (0 < k → b ≤ stop) := by
  induction k generalizing a with
  | zero => cases h; omega
  | succ j ih =>
    obtain ⟨⟨⟨h1, -⟩, -⟩, h2⟩ := h
    have := ih h2
    refine ⟨by omega, fun _ => ?_⟩
    rcases Nat.eq_zero_or_pos j with rfl | hj
    · cases h2; exact h1
    · exact this.2 hj

/-- An unrecognised chunk is skipped. -/
theorem scanChunk_skip (v : View) (p n : Nat) {c : Chunk} (h1 : c.tag ≠ v.cfg.tagDesc) (h2 : c.tag ≠ tagData)
    (h3 : c.tag ≠ tagHdr) (h4 : c.tag ≠ tagEnd) : scanChunk v p n c = .ok none := by
  unfold scanChunk
  rw [if_neg h1, if_neg h2, if_neg (by rintro (h | h); exacts [h3 h, h4 h])]

/-- A descriptor ends the loop (R145). -/
theorem scanChunk_descriptor {v : View} {p n : Nat} {c : Chunk} (h : c.tag = v.cfg.tagDesc) :
    scanChunk v p n c =
      if v.x.descSeen then .error (chunkTypeErr .scanBad p c.tag)
      else if c.len ≠ 5 then .error (descriptorErr .desclen (BitVec.ofNat 32 p) (BitVec.ofNat 32 c.len))
      else if (byteAt c.body 4).getLsbD 0 = false then
        .error (descriptorErr .flag (BitVec.ofNat 32 (p + 12)) ((byteAt c.body 4).zeroExtend 32))
      else if u32be c.body 0 = 0 then .error (descriptorErr .zero (BitVec.ofNat 32 (p + 8)) 0)
      else .ok (some (.descriptor c n)) := by
  unfold scanChunk; rw [if_pos h]

/-- A data chunk ends the loop (R145). -/
theorem scanChunk_data {v : View} {p n : Nat} {c : Chunk} (h0 : c.tag ≠ v.cfg.tagDesc) (h1 : c.tag = tagData) :
    scanChunk v p n c =
      if v.x.descSeen = false ∧ v.x.descOpt = false then .error (descriptorErr .missing (BitVec.ofNat 32 p) 0)
      else .ok (some (.data c p n)) := by
  unfold scanChunk; rw [if_neg h0, if_pos h1]

/-- The loop walks past `k` skipped chunks and counts them. -/
theorem scanFrom_skips (v : View) {k a b : Nat} (j n : Nat) (h : SkipsTo v.cfg v.mem v.x.srcEnd.toNat k a b) :
    scanFrom v (k + j) a n = scanFrom v j b (n + k) := by
  induction k generalizing a n with
  | zero => cases h; simp
  | succ i ih =>
    obtain ⟨⟨hg, h1, h2, h3, h4⟩, hs⟩ := h
    rw [show i + 1 + j = (i + j) + 1 by omega, scanFrom, chunkRead_good v hg]
    simp only
    rw [scanChunk_skip v a n h1 h2 h3 h4]
    simp only
    rw [ih (n + 1) hs]; congr 1; omega

/-- The fuel of the loop never runs out before the first chunk that is not skipped. -/
theorem scanFrom_reaches (v : View) {k a q : Nat} (h : SkipsTo v.cfg v.mem v.x.srcEnd.toNat k a q) :
    ∃ j, scanFrom v (v.x.srcEnd.toNat + 1) a 0 = scanFrom v (j + 1) q k := by
  have := h.bound
  refine ⟨v.x.srcEnd.toNat - k, ?_⟩
  have e := scanFrom_skips v (v.x.srcEnd.toNat - k + 1) 0 h
  rw [show k + (v.x.srcEnd.toNat - k + 1) = v.x.srcEnd.toNat + 1 by omega, Nat.zero_add] at e
  exact e

/-! ### What HDR_SCAN reports -/

section Scan

variable {v : View} {k q : Nat} (h : SkipsTo v.cfg v.mem v.x.srcEnd.toNat k v.x.src.toNat q)
include h

/-- The first chunk not skipped cannot be read. -/
theorem reportHdrScan_unreadable {e : Err} (hc : chunkRead v q v.x.srcEnd.toNat = .error e) :
    reportHdrScan v = .reads (scanReads v (v.x.srcEnd.toNat + 1) v.x.src.toNat) (.error e) := by
  obtain ⟨j, hj⟩ := scanFrom_reaches v h
  unfold reportHdrScan
  rw [hj, scanFrom, hc]

/-- The first chunk not skipped is rejected. -/
theorem reportHdrScan_rejects {c : Chunk} {e : Err} (hc : chunkRead v q v.x.srcEnd.toNat = .ok c)
    (he : scanChunk v q k c = .error e) :
    reportHdrScan v = .reads (scanReads v (v.x.srcEnd.toNat + 1) v.x.src.toNat) (.error e) := by
  obtain ⟨j, hj⟩ := scanFrom_reaches v h
  unfold reportHdrScan
  rw [hj, scanFrom, hc]
  simp only [he]

/-- The first chunk not skipped is where HDR_SCAN stops. -/
theorem reportHdrScan_stops {c : Chunk} {st : ScanStop} (hc : chunkRead v q v.x.srcEnd.toNat = .ok c)
    (hs : scanChunk v q k c = .ok (some st)) :
    reportHdrScan v = .reads (scanReads v (v.x.srcEnd.toNat + 1) v.x.src.toNat) (.ok (scanCommit v st)) := by
  obtain ⟨j, hj⟩ := scanFrom_reaches v h
  unfold reportHdrScan
  rw [hj, scanFrom, hc]
  simp only [hs]

end Scan

/-! ### IHDR_GET -/

/-- A fixed field that holds another byte (R142). -/
theorem headerField_bad {p : Nat} {body : List Byte} {i : Nat} {want : Byte} {d : ProfileDetail} {rest : Option Err}
    (h : byteAt body i ≠ want) :
    headerField p body i want d rest = some (profileErr d (BitVec.ofNat 32 (p + 8 + i)) ((byteAt body i).zeroExtend 32)) :=
  if_pos h

/-- A fixed field that holds its byte (R142). -/
theorem headerField_ok {p : Nat} {body : List Byte} {i : Nat} {want : Byte} {d : ProfileDetail} {rest : Option Err}
    (h : byteAt body i = want) : headerField p body i want d rest = rest := if_neg (not_not.2 h)

/-- What a header chunk of the fixed profile is (R140, R142). -/
theorem headerFault_none_iff (p : Nat) (c : Chunk) :
    headerFault p c = none ↔ c.tag = tagHdr ∧ c.len = 13 ∧ u32be c.body 0 ≠ 0 ∧ u32be c.body 4 ≠ 0 ∧
      byteAt c.body 8 = 8 ∧ byteAt c.body 9 = 2 ∧ byteAt c.body 10 = 0 ∧ byteAt c.body 11 = 0 ∧ byteAt c.body 12 = 0 := by
  unfold headerFault headerField
  split_ifs <;> simp_all <;> tauto

/-- A header chunk IHDR_GET takes. -/
theorem reportIhdrGet_of_none (v : View) {c : Chunk} (h : chunkRead v v.x.src.toNat v.x.srcEnd.toNat = .ok c)
    (hf : headerFault v.x.src.toNat c = none) :
    reportIhdrGet v = .reads (chunkReads v v.x.src.toNat v.x.srcEnd.toNat) (.ok (fun r => { r.setChunk c with
      width := u32be c.body 0, height := u32be c.body 4, src := BitVec.ofNat 32 c.next, kind := .other,
      descSeen := false })) := by
  unfold reportIhdrGet; rw [h]; dsimp only; rw [hf]

/-- A header chunk IHDR_GET rejects. -/
theorem reportIhdrGet_of_some (v : View) {c : Chunk} {e : Err} (h : chunkRead v v.x.src.toNat v.x.srcEnd.toNat = .ok c)
    (hf : headerFault v.x.src.toNat c = some e) :
    reportIhdrGet v = .reads (chunkReads v v.x.src.toNat v.x.srcEnd.toNat) (.error e) := by
  unfold reportIhdrGet; rw [h]; dsimp only; rw [hf]

end Sys2Proof.Machine
end

