-- ==== Sys2Proof/Laws/Steps.lean ====
section
/-! SUPPORT. What one step is, for each form of its next event (rule R248 of 43_control.md), and a host write to each kind of
offset (R242, R245). -/

namespace Sys2Proof.Machine

variable {s : State}

/-- The next event happens. -/
theorem step_cons {e : Event} {rest : List Event} (hw : s.cfg.wellFormed = true) (hs : s.sched = e :: rest) :
    step s = happen e { s with sched := rest } := by
  unfold step advanceStep; rw [if_neg (by rw [hw]; exact Bool.noConfusion), hs]

/-- With no event left the command in flight completes. -/
theorem step_nil (hw : s.cfg.wellFormed = true) (hs : s.sched = []) : step s = complete s := by
  unfold step advanceStep; rw [if_neg (by rw [hw]; exact Bool.noConfusion), hs]

/-- Completing a legal word is the command's meaning (R246). -/
theorem complete_of_decode {l : Latch} {i : Instr} (h : s.latch = some l) (hd : decode l.word = .ok i) :
    complete s = exec i s := by
  unfold complete; rw [h]; simp only [hd]

/-- Completing an illegal word is IllegalCommand (R267). -/
theorem complete_of_illegal {l : Latch} {d : DecodeError} (h : s.latch = some l) (hd : decode l.word = .error d) :
    complete s = .next (s.takeError (illegalErr d l.word) Range.empty) := by
  unfold complete; rw [h]; simp only [hd]

/-- With no command in flight nothing completes. -/
theorem complete_of_idle (h : s.latch = none) : complete s = .next s := by
  unfold complete; rw [h]

/-- A wait while a command is in flight is its completion, and the wait stands (log 15). -/
theorem happen_wait_busy (h : s.regs.busy = true) : happen .wait s = complete { s with sched := .wait :: s.sched } := by
  unfold happen; exact if_pos h

/-- An aligned 32-bit write of the window reaches its offset. -/
theorem step_regWrite {off : Nat} {v : Word} {rest : List Event} (hw : s.cfg.wellFormed = true) (ho : off < 256)
    (h4 : off % 4 = 0) (hs : s.sched = .regWrite (s.cfg.regBase + off) .w32 v :: rest) :
    step s = .next ({ s with sched := rest }.writeOffset off v) := by
  have hin : (Params.inWindow s.cfg (s.cfg.regBase + off) && alignedWord (s.cfg.regBase + off - s.cfg.regBase) .w32) = true := by
    rw [Nat.add_sub_cancel_left]; simp [Params.inWindow, alignedWord]; omega
  rw [step_cons hw hs]
  show Host.Outcome.next (State.hostWrite _ _ _ _) = _
  unfold State.hostWrite
  rw [if_pos hin, Nat.add_sub_cancel_left]

/-- CTRL with bit 31 clear (R32). -/
theorem writeCtrl_enables {v : Word} (h : v.getLsbD 31 = false) :
    s.writeCtrl v = { s with regs := { s.regs with
      irqDoneEn := v.getLsbD 0, irqErrEn := v.getLsbD 1, descOpt := v.getLsbD 2 } } := by
  unfold State.writeCtrl; rw [if_neg (by rw [h]; exact Bool.noConfusion)]

/-- CTRL with bit 31 set is a reset (R300). -/
theorem writeCtrl_resets {v : Word} (h : v.getLsbD 31 = true) : s.writeCtrl v = s.resetBlock s.buffers.output := by
  unfold State.writeCtrl; rw [if_pos h]

/-- CMD is issued with BUSY = 0 and ERR = 0 (R243). -/
theorem writeCmd_issues {v : Word} (hb : s.regs.busy = false) (he : s.regs.err = false) : s.writeCmd v = s.accept v := by
  unfold State.writeCmd; rw [hb, he]; rfl

/-- CMD is discarded otherwise (R244). -/
theorem writeCmd_discards {v : Word} (h : s.regs.busy = true ∨ s.regs.err = true) :
    s.writeCmd v = { s with regs := { s.regs with cmdovr := true } } := by
  unfold State.writeCmd; rw [if_pos (by simpa using h)]

/-- Any other offset is an RW register's or has no effect, with BUSY = 0 (R242). -/
theorem writeOffset_idle {off : Nat} {v : Word} (hb : s.regs.busy = false) (h1 : off ≠ 0x08) (h2 : off ≠ 0x0C) (h3 : off ≠ 0x10) :
    s.writeOffset off v = { s with regs := writeOperand s.regs off v } := by
  unfold State.writeOffset
  split
  · exact absurd rfl h1
  · exact absurd rfl h2
  · exact absurd rfl h3
  · exact if_neg (by rw [hb]; exact Bool.noConfusion)

/-- The buffers of an idle block are empty. -/
theorem buffers_of_idle (h : s.latch = none) : s.buffers = ⟨[], Range.empty⟩ := by
  unfold State.buffers; rw [h]

/-- The buffers of a legal word in flight are its report's. -/
theorem buffers_of_decode {l : Latch} {i : Instr} (h : s.latch = some l) (hd : decode l.word = .ok i) :
    s.buffers = ⟨(reportOf i s.view).input, (reportOf i s.view).target⟩ := by
  unfold State.buffers; rw [h]; simp only [hd]

end Sys2Proof.Machine
end

