-- ==== Sys2Proof/Tests/Slice0.lean ====
section
/-! SUPPORT. Tests. Expected results are those of 95_test_vectors.md, named by vector (V3b and so on), or the words of the opcode
map (R114). The second half shows, for each statement of Obligations.lean that has hypotheses, states and operands that meet
them, clause by clause. -/

namespace Sys2Proof.Tests

open Sys2Proof Sys2Proof.Machine

set_option Elab.async false

/-! ### Helpers -/

/-- The reset state with registers set by `f`, the byte string `bs` at `a`, and the platform refusing what `holes` hold. -/
def start (f : Regs → Regs) (a : Nat) (bs : List Byte) (holes : List Hole) : State :=
  { State.reset with
    regs := f Regs.reset, mem := Memory.store [] a bs, cfg := { Params.atReset with holes := holes } }

/-- The state with one more byte string in memory. -/
def withBytes (s : State) (a : Nat) (bs : List Byte) : State := { s with mem := Memory.store s.mem a bs }

/-- `exec` answers a next state on which the check holds. -/
def answers (i : Instr) (s : State) (check : State → Bool) : Bool :=
  match exec i s with
  | .next t => check t
  | _ => false

/-- `exec` answers an error with this record, and no register but the error's changes. -/
def failsWith (i : Instr) (s : State) (info addr data : Word) : Bool :=
  answers i s (fun t => t.regs ==
    { s.regs with errinfo := info, erraddr := addr, errdata := data, err := true, busy := false })

/-- `step` answers a next state on which the check holds. -/
def steps (s : State) (check : State → Bool) : Bool :=
  match step s with
  | .next t => check t
  | _ => false

/-- The chunk U of V7: "tEXt", body "abc". -/
def chunkU : List Byte := [0, 0, 0, 3, 0x74, 0x45, 0x58, 0x74, 0x61, 0x62, 0x63, 0xFC, 0x85, 0x9B, 0x88]

/-- The header chunk of V4a. -/
def chunkHdr : List Byte :=
  [0, 0, 0, 0x0D, 0x49, 0x48, 0x44, 0x52, 0, 0, 0, 4, 0, 0, 0, 4, 8, 2, 0, 0, 0, 0x26, 0x93, 0x09, 0x29]

/-- The descriptor chunk of V5a. -/
def chunkDesc : List Byte := [0, 0, 0, 5, 0x70, 0x4C, 0x4C, 0x44, 0, 0, 0, 2, 1, 0x3A, 0xCB, 0x05, 0xBA]

/-- The empty data chunk of V12e. -/
def chunkData : List Byte := [0, 0, 0, 0, 0x49, 0x44, 0x41, 0x54, 0x35, 0xAF, 0x06, 0x1E]

/-- The terminator of V3a. -/
def chunkEnd : List Byte := [0, 0, 0, 0, 0x49, 0x45, 0x4E, 0x44, 0xAE, 0x42, 0x60, 0x82]

/-- One framed row of the test image (V2). -/
def row : List Byte := [0, 0xFF, 0, 0, 0xFF, 0, 0, 0xFF, 0, 0, 0xFF, 0, 0]

/-- A stream at 0x100 of the bytes `bs`. -/
def stream (bs : List Byte) (f : Regs → Regs) : State :=
  start (fun r => f { r with src := 0x100, srcEnd := BitVec.ofNat 32 (0x100 + bs.length) }) 0x100 bs []

/-! ### Decode (R114, R115, R119) -/

theorem test_decode_chunk :
    decode 0x00000000 = .ok .nop ∧ decode 0x00000010 = .ok .magicPut ∧ decode 0x00000011 = .ok .magicChk ∧
    decode 0x00000012 = .ok .chunkPut ∧ decode 0x00000013 = .ok .chunkGet ∧ decode 0x00000014 = .ok .ihdrPut ∧
    decode 0x00000015 = .ok .ihdrGet ∧ decode 0x00000016 = .ok .descPut ∧ decode 0x00000017 = .ok .hdrScan ∧
    decode 0x00000018 = .ok .dataGet := by decide

theorem test_decode_piece :
    decode 0x00000020 = .ok .bandCfg ∧ decode 0x00000021 = .ok .scanFrame ∧
    decode 0x00000122 = .ok (.mergePiece true false) ∧ decode 0x00000222 = .ok (.mergePiece false true) ∧
    decode 0x00000123 = .ok (.splitPiece true false) ∧ decode 0x00000223 = .ok (.splitPiece false true) ∧
    decode 0x00000024 = .ok .scanUnframe := by decide

theorem test_decode_checksum :
    decode 0x00000030 = .ok .cmbInit ∧ decode 0x00000031 = .ok .cmbLoad ∧ decode 0x00000032 = .ok .cmbFold ∧
    decode 0x00000033 = .ok .cmbPair ∧ decode 0x00000034 = .ok .adlInit ∧ decode 0x00000035 = .ok .adlFold ∧
    decode 0x00000436 = .ok (.trlChk true false) ∧ decode 0x00000836 = .ok (.trlChk false true) := by decide

/-- V19 and V12: illegal words, and the order of the two details. -/
theorem test_decode_illegal :
    decode 0x00000001 = .error .badOpc ∧ decode 0x000000FF = .error .badOpc ∧ decode 0xFFFFFF19 = .error .badOpc ∧
    decode 0x00000136 = .error .badFlags ∧ decode 0x00100032 = .error .badFlags ∧ decode 0x80000010 = .error .badFlags ∧
    decode 0x00001022 = .error .badFlags := by decide

theorem test_decodeTableWord :
    decodeTableWord 32 0x00000C36 = some (.trlChk true true) ∧ decodeTableWord 32 0x19 = none := by decide

/-! ### Well-formedness -/

/-- An unallocated OPC, a flag the opcode does not permit, and a reserved bit make an ill-formed word. -/
theorem test_legalWord_refuses :
    legalWord 0x00000019 = false ∧ legalWord 0x00000110 = false ∧ legalWord 0x00000422 = false ∧
    legalWord 0x00001036 = false ∧ legalWord 0x80000000 = false := by decide

theorem test_legalWord_accepts : legalWord 0x00000322 = true ∧ legalWord 0x00000C36 = true := by decide

/-- A configuration whose descriptor tag is one of the other three is ill-formed (R7, U9). -/
theorem test_wellFormed_refuses :
    Params.wellFormed ⟨0x49484452, 0, []⟩ = false ∧ Params.wellFormed ⟨0x49444154, 0, []⟩ = false ∧
    Params.wellFormed ⟨0x49454E44, 0, []⟩ = false ∧ Params.wellFormed Params.atReset = true := by decide

theorem test_memory_wf :
    Memory.wf [(2, 0), (1, 0)] = false ∧ Memory.wf [(1, 0), (1, 0)] = false ∧ Memory.wf [(4294967296, 0)] = false ∧
    Memory.wf (Memory.store (Memory.store [] 5 [1, 2]) 4 [3, 4]) = true := by decide

/-! ### Checksums (V1, V2) -/

theorem test_crc : crc32 [0x31, 0x32, 0x33, 0x34, 0x35, 0x36, 0x37, 0x38, 0x39] = 0xCBF43926 ∧ crc32 [] = 0 := by
  decide +kernel

theorem test_adler : adlerUpdate 1 [0x57, 0x69, 0x6B, 0x69, 0x70, 0x65, 0x64, 0x69, 0x61] = 0x11E60398 := by decide

theorem test_adlerOf : adlerOf [0x61, 0x62, 0x63] = 0x024D0127 ∧ adlerOf [] = 1 := by decide

/-! ### Control and chunk framer -/

/-- V19, first line. -/
theorem test_nop : answers .nop State.reset (fun t => readOffset t.regs 0x0C == 0x002 && t.regs.cmd == 0) = true := by
  decide

/-- V6b. -/
theorem test_magicPut : answers .magicPut (start (fun r => { r with dst := 0xFFFFFFF8 }) 0 [] [])
    (fun t => t.regs.dst == 0 && Memory.bytes t.mem 0xFFFFFFF8 8 == [0x89, 0x50, 0x4E, 0x47, 0x0D, 0x0A, 0x1A, 0x0A]) = true := by
  decide

/-- V6c. -/
theorem test_magicPut_wraps : failsWith .magicPut (start (fun r => { r with dst := 0xFFFFFFF9, cmd := 0x10 }) 0 [] [])
    0x00100108 0xFFFFFFF9 0 = true := by decide

/-- V6d. -/
theorem test_magicChk : answers .magicChk (stream [0x89, 0x50, 0x4E, 0x47, 0x0D, 0x0A, 0x1A, 0x0A] id)
    (fun t => t.regs.src == 0x108 && t.regs.done) = true := by decide

/-- V6f. -/
theorem test_magicChk_magic : failsWith .magicChk (stream [0x89, 0x50, 0x4E, 0x47, 0x0D, 0x0A, 0x1A, 0] (fun r => { r with cmd := 0x11 }))
    0x00110101 0x100 0 = true := by decide

/-- V3b. -/
theorem test_chunkPut : answers .chunkPut
    (start (fun r => { r with tag := 0x74455874, len := 3, src := 0x100, dst := 0x200 }) 0x100 [0x61, 0x62, 0x63] [])
    (fun t => Memory.bytes t.mem 0x200 15 == chunkU && t.regs.crc == 0xFC859B88 && t.regs.src == 0x103 &&
      t.regs.dst == 0x20F) = true := by decide +kernel

/-- V3f. -/
theorem test_chunkPut_bus : failsWith .chunkPut
    (start (fun r => { r with len := 4, src := 0x100, dst := 0x200, cmd := 0x12 }) 0x100 [1, 2, 3, 4] [⟨.read, ⟨0x102, 1⟩⟩])
    0x00120109 0x102 0 = true := by decide

/-- V7a. -/
theorem test_chunkGet : answers .chunkGet (stream chunkU id)
    (fun t => t.regs.tag == 0x74455874 && t.regs.body == 0x108 && t.regs.blen == 3 && t.regs.crc == 0xFC859B88 &&
      t.regs.src == 0x10F && readOffset t.regs 0x0C == 0x002) = true := by decide +kernel

/-- V7c. -/
theorem test_chunkGet_crc : failsWith .chunkGet (withBytes (stream chunkU (fun r => { r with cmd := 0x13 })) 0x108 [0x60])
    0x00130201 0x100 0xFD47F1BF = true := by decide +kernel

/-- V4c. -/
theorem test_ihdrPut : answers .ihdrPut (start (fun r => { r with width := 0xFFFFFFFF, height := 1, dst := 0x100 }) 0 [] [])
    (fun t => Memory.bytes t.mem 0x100 25 ==
        [0, 0, 0, 0x0D, 0x49, 0x48, 0x44, 0x52, 0xFF, 0xFF, 0xFF, 0xFF, 0, 0, 0, 1, 8, 2, 0, 0, 0, 0x8F, 0x3E, 0x81, 0x9D] &&
      t.regs.crc == 0x8F3E819D && t.regs.dst == 0x119) = true := by decide +kernel

/-- V4b. -/
theorem test_ihdrPut_zero : failsWith .ihdrPut (start (fun r => { r with height := 4, cmd := 0x14 }) 0 [] []) 0x00140602 0 0 = true := by
  decide

/-- V8a, the header at 0x100, with DESC_SEEN set before. -/
theorem test_ihdrGet : answers .ihdrGet (stream chunkHdr (fun r => { r with descSeen := true }))
    (fun t => t.regs.width == 4 && t.regs.height == 4 && t.regs.tag == 0x49484452 && t.regs.body == 0x108 &&
      t.regs.blen == 13 && t.regs.crc == 0x26930929 && t.regs.src == 0x119 && readOffset t.regs 0x0C == 0x002) = true := by
  decide +kernel

/-- V8q, the 14-byte header body at 0x100. -/
theorem test_ihdrGet_hdrlen : failsWith .ihdrGet
    (stream [0, 0, 0, 0x0E, 0x49, 0x48, 0x44, 0x52, 0, 0, 0, 4, 0, 0, 0, 4, 8, 2, 0, 0, 0, 0, 0x90, 0x96, 0xE4, 0xE8]
      (fun r => { r with cmd := 0x15 })) 0x00150601 0x100 0x0E = true := by decide +kernel

/-- V5a. -/
theorem test_descPut : answers .descPut (start (fun r => { r with pieceH := 2, height := 4, dst := 0x8021 }) 0 [] [])
    (fun t => Memory.bytes t.mem 0x8021 17 == chunkDesc && t.regs.crc == 0x3ACB05BA && t.regs.dst == 0x8032) = true := by
  decide +kernel

/-- V5d. -/
theorem test_descPut_nondiv : failsWith .descPut (start (fun r => { r with pieceH := 3, height := 4, cmd := 0x16 }) 0 [] [])
    0x00160303 0 1 = true := by decide

/-- V8j: two unknown chunks before the descriptor, the first at 0x100. -/
theorem test_hdrScan : answers .hdrScan (stream (chunkU ++ chunkU ++ chunkDesc) id)
    (fun t => t.regs.skipcnt == 2 && t.regs.pieceH == 2 && t.regs.body == 0x126 && t.regs.src == 0x12F &&
      t.regs.tag == 0x704C4C44 && readOffset t.regs 0x0C == 0x032) = true := by decide +kernel

/-- V8n. -/
theorem test_hdrScan_zero : failsWith .hdrScan
    (stream [0, 0, 0, 5, 0x70, 0x4C, 0x4C, 0x44, 0, 0, 0, 0, 1, 0x08, 0xFD, 0x67, 0x38] (fun r => { r with cmd := 0x17 }))
    0x00170403 0x108 0 = true := by decide +kernel

/-- V9c, the terminator at 0x100. -/
theorem test_dataGet : answers .dataGet (stream chunkEnd id)
    (fun t => t.regs.tag == 0x49454E44 && t.regs.body == 0x108 && t.regs.blen == 0 && t.regs.crc == 0xAE426082 &&
      t.regs.src == 0x10C && readOffset t.regs 0x0C == 0x062) = true := by decide +kernel

/-- V9d. -/
theorem test_dataGet_endlen : failsWith .dataGet
    (stream [0, 0, 0, 1, 0x49, 0x45, 0x4E, 0x44, 0, 0xD1, 0x1A, 0x4F, 0xE1] (fun r => { r with cmd := 0x18 }))
    0x00180701 0x100 1 = true := by decide +kernel

/-! ### Splitter and merger -/

/-- V18, the last SIZE boundary that passes. -/
theorem test_bandCfg : answers .bandCfg (start (fun r => { r with width := 0x55555554, height := 1, npieces := 1 }) 0 [] [])
    (fun t => t.regs.pieceH == 1 && t.regs.done) = true := by decide

/-- V18, N above HEIGHT. -/
theorem test_bandCfg_nondiv : failsWith .bandCfg
    (start (fun r => { r with width := 4, height := 4, npieces := 5, cmd := 0x20 }) 0 [] []) 0x00200303 0 4 = true := by
  decide

/-- V10b. -/
theorem test_scanFrame : answers .scanFrame
    (start (fun r => { r with width := 1, pieceH := 1, src := 0x1000, dst := 0x2000 }) 0x1000 [1, 2, 3] [])
    (fun t => Memory.bytes t.mem 0x2000 4 == [0, 1, 2, 3] && t.regs.adl == 0x000E0007 && t.regs.adlLen == 4 &&
      t.regs.src == 0x1003 && t.regs.dst == 0x2004) = true := by decide

/-- V10f. -/
theorem test_scanFrame_size : failsWith .scanFrame
    (start (fun r => { r with width := 4, pieceH := 2, src := 0x1000, dst := 0x2000, adlLen := 0xFFFFFFF0, cmd := 0x21 }) 0 [] [])
    0x00210208 0 0 = true := by decide

/-- V12g. -/
theorem test_mergePiece : answers (.mergePiece false true)
    (start (fun r => { r with src := 0x3100, len := 6, dst := 0x500, acc := 0xAE930FF1, accValid := true })
      0x3100 [0x78, 0xDA, 3, 0, 0, 0] [])
    (fun t => Memory.bytes t.mem 0x500 16 ==
        [0, 0, 0, 4, 0x49, 0x44, 0x41, 0x54, 0xAE, 0x93, 0x0F, 0xF1, 0xF5, 0xE0, 0x51, 0xDD] &&
      t.regs.src == 0x3106 && t.regs.dst == 0x510) = true := by decide +kernel

/-- V12d. -/
theorem test_mergePiece_short : failsWith (.mergePiece false true)
    (start (fun r => { r with src := 0x3100, len := 5, accValid := true, cmd := 0x222 }) 0 [] [])
    0x00220401 0x3100 5 = true := by decide

/-- V13b, the last data chunk's body at 0x100. -/
theorem test_splitPiece : answers (.splitPiece false true)
    (start (fun r => { r with body := 0x100, blen := 14, dst := 0x200 })
      0x100 [0x63, 0xF8, 0xCF, 0xC0, 0, 0x47, 0x0C, 0xC8, 0x1C, 0, 0xAE, 0x93, 0x0F, 0xF1] [])
    (fun t => Memory.bytes t.mem 0x200 10 == [0x63, 0xF8, 0xCF, 0xC0, 0, 0x47, 0x0C, 0xC8, 0x1C, 0] &&
      t.regs.trailer == 0xAE930FF1 && t.regs.dst == 0x20A) = true := by decide

/-- V13c. -/
theorem test_splitPiece_short : failsWith (.splitPiece true true)
    (start (fun r => { r with body := 0x100, blen := 5, cmd := 0x323 }) 0 [] []) 0x00230401 0x100 5 = true := by
  decide

/-- V14a. -/
theorem test_scanUnframe : answers .scanUnframe
    (start (fun r => { r with width := 4, src := 0x100, len := 0x1A, dst := 0x200 }) 0x100 (row ++ row) [])
    (fun t => Memory.bytes t.mem 0x200 24 == row.drop 1 ++ row.drop 1 && t.regs.src == 0x11A && t.regs.dst == 0x218 &&
      t.regs.adl == 0x6FAA07F9 && t.regs.adlLen == 0x1A) = true := by decide

/-- V14b. -/
theorem test_scanUnframe_filter : failsWith .scanUnframe
    (start (fun r => { r with width := 4, src := 0x100, len := 0x1A, dst := 0x200, cmd := 0x24 }) 0x100 (row ++ (1 :: row.drop 1)) [])
    0x00240004 0x10D 1 = true := by decide

/-! ### Checksum combiner -/

/-- V15f. -/
theorem test_cmbInit : answers .cmbInit (start (fun r => { r with acc := 0xAE930FF1, accValid := true, ncanon := true }) 0 [] [])
    (fun t => t.regs.acc == 0 && readOffset t.regs 0x0C == 0x202) = true := by decide

/-- V15g. -/
theorem test_cmbLoad : answers .cmbLoad (start (fun r => { r with opa := 0x03DA0195 }) 0 [] [])
    (fun t => t.regs.acc == 0x03DA0195 && t.regs.accValid) = true := by decide

/-- V15d. -/
theorem test_cmbFold : answers .cmbFold
    (start (fun r => { r with acc := 0xFFFFFFFF, accValid := true, opa := 0x00010001, oplen := 1 }) 0 [] [])
    (fun t => t.regs.acc == 0x001C000E && readOffset t.regs 0x0C == 0x20A) = true := by decide

/-- V15e. -/
theorem test_cmbFold_first : answers .cmbFold (start (fun r => { r with opa := 0xFFFFFFFF, oplen := 7 }) 0 [] [])
    (fun t => t.regs.acc == 0xFFFFFFFF && readOffset t.regs 0x0C == 0x00A) = true := by decide

/-- V16d. -/
theorem test_cmbPair : answers .cmbPair
    (start (fun r => { r with opa := 0x03DA0195, opb := 0x06280204, oplen := 0xFFFFFFFF }) 0 [] [])
    (fun t => t.regs.res == 0x6B910398 && readOffset t.regs 0x0C == 0x002) = true := by decide

/-- V16f. -/
theorem test_cmbPair_ncanon : answers .cmbPair (start (fun r => { r with opa := 0x0000FFF1, opb := 1 }) 0 [] [])
    (fun t => t.regs.res == 0 && readOffset t.regs 0x0C == 0x202) = true := by decide

/-- V15j. -/
theorem test_adlInit : answers .adlInit (start (fun r => { r with adl := 0x6FAA07F9, adlLen := 0x1A }) 0 [] [])
    (fun t => t.regs.adl == 1 && t.regs.adlLen == 0) = true := by decide

/-- V15h. -/
theorem test_adlFold : answers .adlFold
    (start (fun r => { r with acc := 0x6FAA07F9, accValid := true, adl := 0x6FAA07F9, adlLen := 0x1A }) 0 [] [])
    (fun t => t.regs.acc == 0xAE930FF1 && t.regs.adl == 0x6FAA07F9 && t.regs.adlLen == 0x1A) = true := by decide

/-- V17e. -/
theorem test_trlChk : answers (.trlChk false true)
    (start (fun r => { r with acc := 0xAE930FF1, accValid := true, trailer := 0xAE930FF1 }) 0 [] [])
    (fun t => readOffset t.regs 0x0C == 0x08A) = true := by decide

/-- V17b. -/
theorem test_trlChk_mismatch : failsWith (.trlChk true true)
    (start (fun r => { r with adl := 0xAE930FF1, trailer := 0xAE930FF0, cmd := 0xC36 }) 0 [] [])
    0x00360801 0 0xAE930FF1 = true := by decide

/-! ### The life cycle (V31, V32) -/

/-- V31 step 3: the write to CMD. -/
theorem test_issue : steps { State.reset with sched := [.regWrite 0x10 .w32 0x31] }
    (fun t => readOffset t.regs 0x0C == 0x001 && t.regs.cmd == 0x31 && t.latch.isSome) = true := by decide

/-- V31 step 4, run by the probe's placing: NOP with both interrupt enables. -/
theorem test_completes : steps (State.withFetchWord (start (fun r => { r with irqDoneEn := true, irqErrEn := true }) 0 [] []) 32 0)
    (fun t => readOffset t.regs 0x0C == 0x402 && t.regs.irq) = true := by decide

/-- V31 step 12. -/
theorem test_illegal : steps (State.withFetchWord (start (fun r => { r with irqErrEn := true }) 0 [] []) 32 1)
    (fun t => readOffset t.regs 0x0C == 0x404 && t.regs.errinfo == 0x00010106 && t.regs.errdata == 1) = true := by
  decide

/-- V31 step 15, the unaligned read. -/
theorem test_unaligned : steps { State.reset with sched := [.regRead 0x0E .w32] } (fun t => t.reply == .word 0) = true := by
  decide

/-- R119: the poll that finds BUSY = 0 is a read of STATUS, its answer the last one. -/
theorem test_wait_idle : steps { State.reset with sched := [.wait] } (fun t => t.reply == .word 0 && t.sched.isEmpty) = true := by
  decide

/-- R302: a reset aborts the command, which has neither DONE nor ERR. -/
theorem test_reset_aborts : steps { State.reset.accept 0x10 with sched := [.resetInput] } (fun t =>
    readOffset t.regs 0x0C == 0 && outcomeOf (State.reset.accept 0x10) t == some (.aborted 0x10)) = true := by decide

/-- R323, R251: an external job's failure comes back to the host, the block stays as it is, and the operation fails with it. -/
theorem test_job_fails : steps { State.reset with sched := [.jobEnds false] } (fun t =>
    t.reply == .job false && readOffset t.regs 0x0C == 0 && t.mem == [] &&
      entryOf { State.reset with sched := [.jobEnds false] } t == some (.job false)) = true ∧
    operationFailure [.job true, .command (.done 0), .job false, .command (.failed 1 6 0 1)] = some .jobFailed ∧
    operationFailure [.job true, .command (.done 0)] = none := by decide

/-- R244, R251: a command written with ERR = 1, or with BUSY = 1, never runs, so its operation fails; the same write to an idle
block is no failure. -/
theorem test_discarded_fails :
    entryOf { start (fun r => { r with err := true }) 0 [] [] with sched := [.regWrite 0x10 .w32 0x30] } State.reset =
      some (.discarded 0x30) ∧
    entryOf { State.reset.accept 0 with sched := [.regWrite 0x10 .w32 0x30] } (State.reset.accept 0) = some (.discarded 0x30) ∧
    operationFailure [.command (.done 0), .discarded 0x30] = some .discarded ∧
    entryOf { State.reset with sched := [.regWrite 0x10 .w32 0x30] } (State.reset.accept 0x30) = none :=
  ⟨rfl, rfl, by decide, rfl⟩

/-- V32. -/
theorem test_reset_reads : readOffset State.reset.regs 0x00 = 0x5050434D ∧ readOffset State.reset.regs 0x04 = 1 ∧
    readOffset State.reset.regs 0x64 = 1 ∧ readOffset State.reset.regs 0x0C = 0 := by decide

/-! ### Witnesses: encoding and the life cycle -/

/-- An address the platform refuses to read. -/
def noRead (a : Nat) : List Hole := [⟨.read, ⟨a, 1⟩⟩]

/-- An address the platform refuses to write. -/
def noWrite (a : Nat) : List Hole := [⟨.write, ⟨a, 1⟩⟩]

/-- An idle block with one event to come. -/
def idle (e : Event) : State := { State.reset with sched := [e] }

/-- The block with the word `w` in flight and the events `es` to come. -/
def inFlight (w : Word) (es : List Event) : State := { State.reset.accept w with sched := es }

theorem witness_EncodeOfDecode : decode 0x00000C36 = .ok (.trlChk true true) := by decide

theorem witness_TableSelectsLegalWords : ∃ w : Word, ∃ r ∈ opRows, ∃ q ∈ opRows, w &&& r.mask = r.word ∧ w &&& q.mask = q.word :=
  ⟨0x00000322, ⟨0x22, 0xFFFFFCFF⟩, by decide, ⟨0x22, 0xFFFFFCFF⟩, by decide, by decide, by decide⟩

/-- BAD_OPC beside the map's last row, BAD_FLAGS at TRL_CHK's first unpermitted bit, and TRL_CHK with both flags. -/
theorem witness_DecodeFollowsTheMap :
    (0x00000037 : Word).toNat % 256 ∉ [0x00, 0x10, 0x11, 0x12, 0x13, 0x14, 0x15, 0x16, 0x17, 0x18, 0x20, 0x21, 0x22, 0x23, 0x24,
      0x30, 0x31, 0x32, 0x33, 0x34, 0x35, 0x36] ∧
    (0x00001036 : Word).toNat % 256 = 0x36 ∧ (0x00001036 : Word).getLsbD 12 = true ∧ (0x00000C36 : Word).toNat % 256 = 0x36 ∧
    (∀ k, k < 32 → 8 ≤ k → (0x00000C36 : Word).getLsbD k = true → k = 10 ∨ k = 11) := by decide

/-- With every schedule, and every word, the block is ready to complete. -/
theorem witness_inFlight (w : Word) (es : List Event) : (inFlight w es).cfg.wellFormed = true ∧
    (inFlight w es).latch = some ⟨w, Regs.reset⟩ ∧ (inFlight w es).sched = es ∧ (inFlight w es).regs.busy = true :=
  ⟨rfl, rfl, rfl, rfl⟩

theorem witness_StepRunsTheCommand : ∃ (s : State) (l : Latch) (i : Instr), s.cfg.wellFormed = true ∧ s.latch = some l ∧ decode l.word = .ok i ∧
    s.sched = [.wait] ∧ s.regs.busy = true :=
  ⟨inFlight 0x17 [.wait], ⟨0x17, Regs.reset⟩, .hdrScan, rfl, rfl, by decide, rfl, rfl⟩

theorem witness_IllegalCommandRecorded :
    (∃ (s : State) (l : Latch), s.cfg.wellFormed = true ∧ s.latch = some l ∧ decode l.word = .error .badOpc ∧ s.sched = [.complete]) ∧
    ∃ (s : State) (l : Latch), s.cfg.wellFormed = true ∧ s.latch = some l ∧ decode l.word = .error .badFlags ∧ s.sched = [] :=
  ⟨⟨inFlight 0x01 [.complete], ⟨0x01, Regs.reset⟩, rfl, rfl, by decide, rfl⟩,
    ⟨inFlight 0x80000010 [], ⟨0x80000010, Regs.reset⟩, rfl, rfl, by decide, rfl⟩⟩

theorem witness_CmdWriteIssues : ∃ s : State, ∃ w : Word, s.cfg.wellFormed = true ∧ s.regs.busy = false ∧ s.regs.err = false ∧
    s.sched = [.regWrite (s.cfg.regBase + 0x10) .w32 w] :=
  ⟨idle (.regWrite 0x10 .w32 0xFFFFFFFF), 0xFFFFFFFF, by decide⟩

theorem witness_CmdWriteIsDiscarded :
    (∃ s : State, s.cfg.wellFormed = true ∧ s.regs.busy = true ∧ s.sched = [.regWrite (s.cfg.regBase + 0x10) .w32 0x30]) ∧
    ∃ s : State, s.cfg.wellFormed = true ∧ s.regs.err = true ∧ s.sched = [.regWrite (s.cfg.regBase + 0x10) .w32 0x30] :=
  ⟨⟨inFlight 0 [.regWrite 0x10 .w32 0x30], by decide⟩,
    ⟨{ idle (.regWrite 0x10 .w32 0x30) with regs := { Regs.reset with err := true } }, by decide⟩⟩

/-- Each kind of offset, the first and the last of the window among them. -/
theorem witness_WritesWhileBusy : ∀ p ∈ [(0x08, (7 : Word)), (0x08, 0x80000000), (0x0C, 0x306), (0x10, 0x30), (0, 0), (0xFC, 0)],
    (inFlight 0x31 [.regWrite p.1 .w32 p.2]).cfg.wellFormed = true ∧ (inFlight 0x31 [.regWrite p.1 .w32 p.2]).regs.busy = true ∧
      p.1 < 256 ∧ p.1 % 4 = 0 ∧
      (inFlight 0x31 [.regWrite p.1 .w32 p.2]).sched = [.regWrite (State.reset.cfg.regBase + p.1) .w32 p.2] := by decide

theorem witness_WritesWhileIdle :
    (∀ p ∈ [(0x20, (5 : Word)), (0x24, 5), (0x28, 5), (0x2C, 5), (0x30, 5), (0x34, 5), (0x38, 5), (0x40, 5), (0x44, 5), (0x48, 5),
        (0x4C, 5), (0x50, 5), (0x54, 5), (0x58, 5), (0x08, 7), (0x08, 0x80000000), (0x0C, 0x306), (0x10, 0x30), (0, 0), (0x5C, 0), (0x74, 0),
        (0xFF, 0)],
      (idle (.regWrite p.1 .w32 p.2)).cfg.wellFormed = true ∧ (idle (.regWrite p.1 .w32 p.2)).regs.busy = false ∧
        (idle (.regWrite p.1 .w32 p.2)).regs.err = false ∧
        (idle (.regWrite p.1 .w32 p.2)).sched = [.regWrite (State.reset.cfg.regBase + p.1) .w32 p.2]) ∧
    ∃ s : State, s.cfg.wellFormed = true ∧ s.regs.busy = false ∧ s.regs.err = true ∧
      s.sched = [.regWrite (s.cfg.regBase + 0x10) .w32 0x30] :=
  ⟨by decide, ⟨{ idle (.regWrite 0x10 .w32 0x30) with regs := { Regs.reset with err := true } }, by decide⟩⟩

theorem witness_OddAccessesDoNothing : ∀ p ∈ [(0x20, Width.w16), (0x21, Width.w32), (0xFF, Width.w64), (0, Width.w8)],
    p.1 < 256 ∧ (p.2 ≠ .w32 ∨ p.1 % 4 ≠ 0) ∧ State.reset.cfg.wellFormed = true ∧
      (idle (.regWrite p.1 p.2 1)).sched = [.regWrite (State.reset.cfg.regBase + p.1) p.2 1] ∧
      (idle (.regRead p.1 p.2)).sched = [.regRead (State.reset.cfg.regBase + p.1) p.2] := by decide

theorem witness_ReadOnlyAndReserved :
    (∀ off ∈ [0x00, 0x14, 0x70, 0x74, 0xFC], off % 4 = 0 ∧ off < 256 ∧
      (inFlight 0 [.regWrite off .w32 1]).sched = [.regWrite (State.reset.cfg.regBase + off) .w32 1]) ∧
    (∀ k, k < 32 → k < 3 ∨ k = 31 → (0x00000001 : Word).getLsbD k = (0x7FFFFFF9 : Word).getLsbD k) ∧
    (∀ k, k < 11 → (0x00000006 : Word).getLsbD k = (0xFFFFF806 : Word).getLsbD k) := by decide

theorem witness_HostReadAnswers : ∀ off ∈ [0x00, 0x0C, 0x70, 0xFC], off < 256 ∧ off % 4 = 0 ∧
    (idle (.regRead off .w32)).cfg.wellFormed = true ∧
    (idle (.regRead off .w32)).sched = [.regRead (State.reset.cfg.regBase + off) .w32] := by decide

/-- Idle; an illegal word in flight; a MAGIC_PUT whose output is the first 8 bytes; a CHUNK_PUT of no byte, whose output is the
first 12. -/
theorem witness_ResetSourcesAgree :
    (∀ w ∈ [(0x01 : Word), 0x10, 0x12], (inFlight w []).cfg.wellFormed = true ∧ (inFlight w []).latch = some ⟨w, Regs.reset⟩) ∧
    (0x80000000 : Word).getLsbD 31 = true ∧ State.reset.latch = none ∧ decode 0x01 = .error .badOpc ∧
    decode 0x10 = .ok .magicPut ∧ Outside 0 (outputSpan .magicPut Regs.reset) 8 ∧ ¬ Outside 0 (outputSpan .magicPut Regs.reset) 7 ∧
    decode 0x12 = .ok .chunkPut ∧ Fits Regs.reset.src 0 ∧ Fits Regs.reset.dst (12 + 0) ∧ ¬ Outside 0 (12 + 0) 11 := by
  refine ⟨fun w h => ?_, by decide⟩
  simp only [List.mem_cons, List.mem_nil_iff, or_false] at h
  rcases h with rfl | rfl | rfl <;> exact ⟨rfl, rfl⟩

/-! ### Witnesses: the frames -/

theorem witness_OnlyNamedCommandsWrite : ∃ s t : State, exec .adlInit s = .next t ∧ readOffset t.regs 0x68 ≠ readOffset s.regs 0x68 :=
  ⟨{ State.reset with regs := { Regs.reset with adlLen := 9 } }, _, rfl, by decide⟩

theorem witness_ReadersKeepMemory : ∃ t, exec (.trlChk true true) State.reset = .next t := ⟨_, rfl⟩

/-- Each storing command answers, and the addresses on both sides of the longest output are outside it. -/
theorem witness_WritersKeepOtherMemory :
    (∀ i ∈ [Instr.magicPut, .chunkPut, .ihdrPut, .descPut, .scanFrame, .mergePiece true false, .splitPiece true true, .scanUnframe],
      answers i (start (fun r => { r with
        dst := 0x200, width := 1, height := 1, pieceH := 1, len := 4, src := 0x100, blen := 6, body := 0x100 })
        0x100 [0, 0, 0, 0, 0, 0] []) (fun _ => true) = true) ∧
    Outside 0x200 25 0x1FF ∧ Outside 0x200 25 0x219 := by decide +kernel

/-! ### Witnesses: chunk framer -/

/-- A state with DST, and what else `f` sets. -/
def dstAt (d : Word) (holes : List Hole) (f : Regs → Regs) : State := start (fun r => f { r with dst := d }) 0 [] holes

/-- DST on both sides of the boundary 0xFFFFFFF8, and a refused last byte. -/
theorem witness_MagicPutRule :
    (∃ s : State, ¬ Fits s.operands.dst 8) ∧
    (∃ s : State, Fits s.operands.dst 8 ∧ Completes s.cfg .write s.operands.dst.toNat 8) ∧
    ∃ s : State, Fits s.operands.dst 8 ∧ RefusedAt s.cfg .write s.operands.dst.toNat 8 7 :=
  ⟨⟨dstAt 0xFFFFFFF9 [] id, by decide⟩, ⟨dstAt 0xFFFFFFF8 [] id, by decide⟩,
    ⟨dstAt 0xFFFFFFF8 (noWrite 0xFFFFFFFF) id, by decide⟩⟩

/-- SRC_END on both sides of SRC + 8. -/
theorem witness_MagicChkRule :
    (∃ s : State, s.operands.srcEnd.toNat < s.operands.src.toNat + 8) ∧
    (∃ s : State, s.operands.src.toNat + 8 ≤ s.operands.srcEnd.toNat ∧ RefusedAt s.cfg .read s.operands.src.toNat 8 7) ∧
    (∃ s : State, s.operands.src.toNat + 8 ≤ s.operands.srcEnd.toNat ∧ Completes s.cfg .read s.operands.src.toNat 8 ∧
      Memory.bytes s.mem s.operands.src.toNat 8 ≠ magicBytes) ∧
    ∃ s : State, s.operands.src.toNat + 8 ≤ s.operands.srcEnd.toNat ∧ Completes s.cfg .read s.operands.src.toNat 8 ∧
      Memory.bytes s.mem s.operands.src.toNat 8 = magicBytes :=
  ⟨⟨stream (magicBytes.take 7) id, by decide⟩,
    ⟨{ stream magicBytes id with cfg := { Params.atReset with holes := noRead 0x107 } }, by decide⟩,
    ⟨stream [0x89, 0x50, 0x4E, 0x47, 0x0D, 0x0A, 0x1A, 0] id, by decide⟩, ⟨stream magicBytes id, by decide⟩⟩

/-- CHUNK_PUT's operands: `n` bytes at `a`, to `d`. -/
def putFrom (a n d : Word) (holes : List Hole) : State := dstAt d holes (fun r => { r with src := a, len := n })

/-- V3e, V3d, V3f, a refused last byte, V3c, and a body just below and just over the output. -/
theorem witness_ChunkPutRule :
    (∃ s : State, ¬ Fits s.operands.src s.operands.len.toNat) ∧
    (∃ s : State, Fits s.operands.src s.operands.len.toNat ∧ ¬ Fits s.operands.dst (12 + s.operands.len.toNat)) ∧
    (∃ s : State, Fits s.operands.src s.operands.len.toNat ∧ Fits s.operands.dst (12 + s.operands.len.toNat) ∧
      RefusedAt s.cfg .read s.operands.src.toNat s.operands.len.toNat 2) ∧
    (∃ s : State, Fits s.operands.src s.operands.len.toNat ∧ Fits s.operands.dst (12 + s.operands.len.toNat) ∧
      Completes s.cfg .read s.operands.src.toNat s.operands.len.toNat ∧
      RefusedAt s.cfg .write s.operands.dst.toNat (12 + s.operands.len.toNat) 11) ∧
    (∃ s : State, Fits s.operands.src s.operands.len.toNat ∧ Fits s.operands.dst (12 + s.operands.len.toNat) ∧
      Completes s.cfg .read s.operands.src.toNat s.operands.len.toNat ∧
      Completes s.cfg .write s.operands.dst.toNat (12 + s.operands.len.toNat) ∧
      ¬ Apart s.operands.src.toNat s.operands.len.toNat s.operands.dst.toNat (12 + s.operands.len.toNat)) ∧
    ∃ s : State, Fits s.operands.src s.operands.len.toNat ∧ Fits s.operands.dst (12 + s.operands.len.toNat) ∧
      Completes s.cfg .read s.operands.src.toNat s.operands.len.toNat ∧
      Completes s.cfg .write s.operands.dst.toNat (12 + s.operands.len.toNat) ∧
      Apart s.operands.src.toNat s.operands.len.toNat s.operands.dst.toNat (12 + s.operands.len.toNat) :=
  ⟨⟨putFrom 0xFFFFFFFF 2 0x100 [], by decide⟩, ⟨putFrom 0 0 0xFFFFFFF5 [], by decide⟩,
    ⟨putFrom 0x100 4 0x200 (noRead 0x102), by decide⟩, ⟨putFrom 0x100 0 0x200 (noWrite 0x20B), by decide⟩,
    ⟨putFrom 0x100 2 0x101 [], by decide⟩, ⟨putFrom 0x100 1 0x101 [], by decide⟩⟩

/-- The view of a stream at 0x100 of the bytes `bs`. -/
def viewOf (bs : List Byte) (holes : List Hole) : View := (start id 0x100 bs holes).view

/-- A stream too short for the length field, a refused last header byte, a stream one byte short, a refused last CRC byte, a changed
body byte, and a good chunk. -/
theorem witness_ChunkReadRule :
    0x107 < 0x100 + 8 ∧
    (∃ v : View, 0x100 + 8 ≤ 0x108 ∧ RefusedAt v.cfg .read 0x100 8 7) ∧
    (∃ v : View, 0x100 + 8 ≤ 0x10E ∧ Completes v.cfg .read 0x100 8 ∧ 0x10E < 0x100 + 12 + chunkLen v.mem 0x100) ∧
    (∃ v : View, 0x100 + 12 + chunkLen v.mem 0x100 ≤ 0x10F ∧ Completes v.cfg .read 0x100 8 ∧
      RefusedAt v.cfg .read (0x100 + 8) (chunkLen v.mem 0x100 + 4) 6) ∧
    (∃ v : View, 0x100 + 12 + chunkLen v.mem 0x100 ≤ 0x10F ∧ Completes v.cfg .read 0x100 (12 + chunkLen v.mem 0x100) ∧
      storedCrc v.mem 0x100 ≠ crc32 (be32 (chunkTag v.mem 0x100) ++ chunkBody v.mem 0x100)) ∧
    ∃ v : View, GoodChunk v.cfg v.mem 0x100 0x10F :=
  ⟨by decide, ⟨viewOf chunkU (noRead 0x107), by decide⟩, ⟨viewOf chunkU [], by decide⟩,
    ⟨viewOf chunkU (noRead 0x10E), by decide⟩,
    ⟨viewOf [0, 0, 0, 3, 0x74, 0x45, 0x58, 0x74, 0x60, 0x62, 0x63, 0xFC, 0x85, 0x9B, 0x88] [], by decide +kernel⟩,
    ⟨viewOf chunkU [], by decide +kernel⟩⟩

/-- A chunk ChunkRead rejects, and one it takes. -/
theorem witness_ChunkGetRule :
    (∃ s : State, GoodChunk s.cfg s.mem s.operands.src.toNat s.operands.srcEnd.toNat) ∧
    ∃ s : State, ∃ e, chunkRead s.view s.operands.src.toNat s.operands.srcEnd.toNat = .error e :=
  ⟨⟨stream chunkU id, by decide +kernel⟩, ⟨stream (chunkU.take 7) id, framingErr .trunc 0x100 0, by decide +kernel⟩⟩

theorem witness_IhdrPutRule :
    (∃ s : State, s.operands.width = 0 ∨ s.operands.height = 0) ∧
    (∃ s : State, s.operands.width ≠ 0 ∧ s.operands.height ≠ 0 ∧ ¬ Fits s.operands.dst 25) ∧
    (∃ s : State, s.operands.width ≠ 0 ∧ s.operands.height ≠ 0 ∧ Fits s.operands.dst 25 ∧
      RefusedAt s.cfg .write s.operands.dst.toNat 25 24) ∧
    ∃ s : State, s.operands.width ≠ 0 ∧ s.operands.height ≠ 0 ∧ Fits s.operands.dst 25 ∧
      Completes s.cfg .write s.operands.dst.toNat 25 :=
  ⟨⟨dstAt 0 [] (fun r => { r with height := 1 }), by decide⟩,
    ⟨dstAt 0xFFFFFFE8 [] (fun r => { r with width := 1, height := 1 }), by decide⟩,
    ⟨dstAt 0xFFFFFFE7 (noWrite 0xFFFFFFFF) (fun r => { r with width := 1, height := 1 }), by decide⟩,
    ⟨dstAt 0xFFFFFFE7 [] (fun r => { r with width := 0xFFFFFFFF, height := 1 }), by decide⟩⟩

theorem witness_IhdrGetCompletes : ∃ s : State, GoodChunk s.cfg s.mem s.operands.src.toNat s.operands.srcEnd.toNat ∧
    chunkTag s.mem s.operands.src.toNat = 0x49484452 ∧ chunkLen s.mem s.operands.src.toNat = 13 ∧
    u32be (Memory.bytes s.mem (s.operands.src.toNat + 8) 4) 0 ≠ 0 ∧ u32be (Memory.bytes s.mem (s.operands.src.toNat + 12) 4) 0 ≠ 0 ∧
    Memory.bytes s.mem (s.operands.src.toNat + 16) 5 = [8, 2, 0, 0, 0] :=
  ⟨stream chunkHdr id, by decide +kernel⟩

/-- The chunk whose tag and body are `t` and `b`, its CRC refitted. -/
def refitted (t : Word) (b : List Byte) : List Byte := chunkBytes t b

/-- The header chunk with the given last nine body bytes, its CRC refitted. -/
def header (rest : List Byte) : State := stream (refitted tagHdr ([0, 0, 0, 4] ++ rest)) id

/-- The stream holds a good header chunk of 13 bytes and these bytes from its body's eighth on. -/
abbrev HeaderFields (s : State) (bs : List Byte) : Prop :=
  GoodChunk s.cfg s.mem s.operands.src.toNat s.operands.srcEnd.toNat ∧ chunkTag s.mem s.operands.src.toNat = 0x49484452 ∧
    chunkLen s.mem s.operands.src.toNat = 13 ∧ Memory.bytes s.mem (s.operands.src.toNat + 16) 5 = bs

/-- What ChunkRead rejects, another tag, another length, a zero dimension, and each fixed field wrong with the ones before right. -/
theorem witness_IhdrGetRejects :
    (∃ s : State, ∃ e, chunkRead s.view s.operands.src.toNat s.operands.srcEnd.toNat = .error e) ∧
    (∃ s : State, GoodChunk s.cfg s.mem s.operands.src.toNat s.operands.srcEnd.toNat ∧
      chunkTag s.mem s.operands.src.toNat ≠ 0x49484452) ∧
    (∃ s : State, GoodChunk s.cfg s.mem s.operands.src.toNat s.operands.srcEnd.toNat ∧
      chunkTag s.mem s.operands.src.toNat = 0x49484452 ∧ chunkLen s.mem s.operands.src.toNat ≠ 13) ∧
    (∃ s : State, HeaderFields s [8, 2, 0, 0, 0] ∧ u32be (Memory.bytes s.mem (s.operands.src.toNat + 12) 4) 0 = 0) ∧
    (∀ bs ∈ [[16, 2, 0, 0, 0], [8, 6, 0, 0, 0], [8, 2, 1, 0, 0], [8, 2, 0, 1, 0], [8, 2, 0, 0, (1 : Byte)]],
      HeaderFields (header ([0, 0, 0, 4] ++ bs)) bs) :=
  ⟨⟨stream (chunkU.take 7) id, framingErr .trunc 0x100 0, by decide +kernel⟩, ⟨stream chunkU id, by decide +kernel⟩,
    ⟨header [0, 0, 0, 4, 8, 2, 0, 0, 0, 0], by decide +kernel⟩, ⟨header [0, 0, 0, 0, 8, 2, 0, 0, 0], by decide +kernel⟩,
    by decide +kernel⟩

/-- DESC_PUT's operands. -/
def descriptor (ph h d : Word) (holes : List Hole) : State := dstAt d holes (fun r => { r with pieceH := ph, height := h })

theorem witness_DescPutRule :
    (∃ s : State, s.operands.pieceH = 0) ∧
    (∃ s : State, s.operands.pieceH ≠ 0 ∧ s.operands.height.toNat % s.operands.pieceH.toNat ≠ 0) ∧
    (∃ s : State, s.operands.pieceH ≠ 0 ∧ s.operands.height.toNat % s.operands.pieceH.toNat = 0 ∧ ¬ Fits s.operands.dst 17) ∧
    (∃ s : State, s.operands.pieceH ≠ 0 ∧ s.operands.height.toNat % s.operands.pieceH.toNat = 0 ∧ Fits s.operands.dst 17 ∧
      RefusedAt s.cfg .write s.operands.dst.toNat 17 16) ∧
    ∃ s : State, s.operands.pieceH ≠ 0 ∧ s.operands.height.toNat % s.operands.pieceH.toNat = 0 ∧ Fits s.operands.dst 17 ∧
      Completes s.cfg .write s.operands.dst.toNat 17 :=
  ⟨⟨descriptor 0 4 0 [], by decide⟩, ⟨descriptor 3 4 0 [], by decide⟩, ⟨descriptor 5 0 0xFFFFFFF0 [], by decide⟩,
    ⟨descriptor 2 4 0xFFFFFFEF (noWrite 0xFFFFFFFF), by decide⟩, ⟨descriptor 2 4 0xFFFFFFEF [], by decide⟩⟩

/-- One unrecognised chunk, then the descriptor at 0x10F. -/
theorem witness_HdrScanStopsAtDescriptor : ∃ s : State,
    SkipsTo s.cfg s.mem s.operands.srcEnd.toNat 1 s.operands.src.toNat 0x10F ∧
    GoodChunk s.cfg s.mem 0x10F s.operands.srcEnd.toNat ∧ chunkTag s.mem 0x10F = s.cfg.tagDesc ∧ s.operands.descSeen = false ∧
    chunkLen s.mem 0x10F = 5 ∧ (Memory.get s.mem (0x10F + 12)).getLsbD 0 = true ∧
    u32be (Memory.bytes s.mem (0x10F + 8) 4) 0 ≠ 0 :=
  ⟨stream (chunkU ++ chunkDesc) id, ⟨by decide +kernel, by
    show 0x100 + 12 + chunkLen (stream (chunkU ++ chunkDesc) id).mem 0x100 = 0x10F
    decide +kernel⟩, by decide +kernel⟩

/-- A data chunk at once, after a descriptor, with DESC_OPT and without either. -/
theorem witness_HdrScanStopsAtData : ∀ p ∈ [(true, false), (false, true), (false, false)],
    ∃ s : State, s.cfg.wellFormed = true ∧ SkipsTo s.cfg s.mem s.operands.srcEnd.toNat 0 s.operands.src.toNat 0x100 ∧
      GoodChunk s.cfg s.mem 0x100 s.operands.srcEnd.toNat ∧ chunkTag s.mem 0x100 = 0x49444154 ∧
      s.operands.descSeen = p.1 ∧ s.operands.descOpt = p.2 :=
  fun p _ => ⟨stream chunkData (fun r => { r with descSeen := p.1, descOpt := p.2 }), by rfl, rfl, by
    show GoodChunk (stream chunkData id).cfg (stream chunkData id).mem 0x100 0x10C
    decide +kernel, by
    show chunkTag (stream chunkData id).mem 0x100 = 0x49444154
    decide, rfl, rfl⟩

/-- The first chunk: one too short, a second descriptor, a header, a terminator, and descriptors of another length, flag and
height. -/
theorem witness_HdrScanRejects :
    (∀ bs ∈ [chunkU.take 7, chunkDesc, chunkHdr, chunkEnd], (stream bs id).cfg.wellFormed = true ∧
      (stream bs id).operands.src.toNat = 0x100) ∧
    (∃ e, chunkRead (stream (chunkU.take 7) id).view 0x100 0x107 = .error e) ∧
    (∃ s : State, GoodChunk s.cfg s.mem 0x100 s.operands.srcEnd.toNat ∧ chunkTag s.mem 0x100 = s.cfg.tagDesc ∧
      s.operands.descSeen = true) ∧
    (∀ p ∈ [(chunkHdr, 0x49484452), (chunkEnd, (0x49454E44 : Word))],
      GoodChunk (stream p.1 id).cfg (stream p.1 id).mem 0x100 (stream p.1 id).operands.srcEnd.toNat ∧
      chunkTag (stream p.1 id).mem 0x100 = p.2) ∧
    (∀ p ∈ [([0, 0, 0, (2 : Byte)], 4, 0), ([0, 0, 0, 2, 0], 5, 2), ([0, 0, 0, 0, 1], 5, 0)],
      GoodChunk (stream (refitted 0x704C4C44 p.1) id).cfg (stream (refitted 0x704C4C44 p.1) id).mem 0x100
        (stream (refitted 0x704C4C44 p.1) id).operands.srcEnd.toNat ∧
      chunkTag (stream (refitted 0x704C4C44 p.1) id).mem 0x100 = Params.atReset.tagDesc ∧
      chunkLen (stream (refitted 0x704C4C44 p.1) id).mem 0x100 = p.2.1) :=
  ⟨by decide, ⟨framingErr .trunc 0x100 0, by decide +kernel⟩,
    ⟨stream chunkDesc (fun r => { r with descSeen := true }), by decide +kernel⟩, by decide +kernel, by decide +kernel⟩

theorem witness_HdrScanIsIdempotentAtData : ∃ s t : State, s.cfg.wellFormed = true ∧
    GoodChunk s.cfg s.mem s.regs.src.toNat s.regs.srcEnd.toNat ∧ chunkTag s.mem s.regs.src.toNat = 0x49444154 ∧
    s.regs.descOpt = true ∧ exec .hdrScan (s.accept 0x17) = .next t :=
  ⟨stream chunkData (fun r => { r with descOpt := true }), _, by decide, by decide +kernel, by decide, by decide, rfl⟩

theorem witness_DataGetRule :
    (∃ e, chunkRead (stream (chunkU.take 7) id).view 0x100 0x107 = .error e) ∧
    (∀ p ∈ [(chunkData, (0x49444154 : Word), 0), (chunkEnd, 0x49454E44, 0), (refitted tagEnd [0], 0x49454E44, 1),
        (chunkU, 0x74455874, 3)],
      GoodChunk (stream p.1 id).cfg (stream p.1 id).mem (stream p.1 id).operands.src.toNat (stream p.1 id).operands.srcEnd.toNat ∧
      chunkTag (stream p.1 id).mem (stream p.1 id).operands.src.toNat = p.2.1 ∧
      chunkLen (stream p.1 id).mem (stream p.1 id).operands.src.toNat = p.2.2) :=
  ⟨⟨framingErr .trunc 0x100 0, by decide +kernel⟩, by decide +kernel⟩

/-! ### Witnesses: splitter and merger -/

/-- A zero dimension, no piece, a remainder, and the SIZE boundary on both sides (V18). -/
theorem witness_BandCfgRule :
    (∃ x : Regs, x.width = 0 ∨ x.height = 0) ∧
    (∃ x : Regs, x.width ≠ 0 ∧ x.height ≠ 0 ∧ x.npieces.toNat = 0) ∧
    (∃ x : Regs, x.width ≠ 0 ∧ x.height ≠ 0 ∧ x.npieces.toNat ≠ 0 ∧ x.height.toNat % x.npieces.toNat ≠ 0) ∧
    (∃ x : Regs, x.width ≠ 0 ∧ x.height ≠ 0 ∧ x.npieces.toNat ≠ 0 ∧ x.height.toNat % x.npieces.toNat = 0 ∧
      4294967296 ≤ (3 * x.width.toNat + 1) * (x.height.toNat / x.npieces.toNat)) ∧
    ∃ x : Regs, x.width ≠ 0 ∧ x.height ≠ 0 ∧ x.npieces.toNat ≠ 0 ∧ x.height.toNat % x.npieces.toNat = 0 ∧
      (3 * x.width.toNat + 1) * (x.height.toNat / x.npieces.toNat) < 4294967296 :=
  ⟨⟨Regs.reset, by decide⟩, ⟨{ Regs.reset with width := 1, height := 1 }, by decide⟩,
    ⟨{ Regs.reset with width := 4, height := 4, npieces := 5 }, by decide⟩,
    ⟨{ Regs.reset with width := 0x55555555, height := 1, npieces := 1 }, by decide⟩,
    ⟨{ Regs.reset with width := 0x55555554, height := 1, npieces := 1 }, by decide⟩⟩

/-- SCAN_FRAME's operands: a band of one-pixel rows. -/
def frameBand (w ph a d n : Word) (holes : List Hole) : State :=
  dstAt d holes (fun r => { r with width := w, pieceH := ph, src := a, adlLen := n })

/-- The operands pass SCAN_FRAME's checks up to the framed size. -/
abbrev BandSized (x : Regs) : Prop := x.width ≠ 0 ∧ x.pieceH ≠ 0 ∧ (3 * x.width.toNat + 1) * x.pieceH.toNat < 4294967296

/-- Each check failing with the ones before it passing, at its boundary. -/
theorem witness_ScanFrameChecks :
    (∃ s : State, s.operands.width = 0) ∧ (∃ s : State, s.operands.width ≠ 0 ∧ s.operands.pieceH = 0) ∧
    (∃ s : State, s.operands.width ≠ 0 ∧ s.operands.pieceH ≠ 0 ∧
      4294967296 ≤ (3 * s.operands.width.toNat + 1) * s.operands.pieceH.toNat) ∧
    (∃ s : State, BandSized s.operands ∧ ¬ Fits s.operands.src (3 * s.operands.width.toNat * s.operands.pieceH.toNat)) ∧
    (∃ s : State, BandSized s.operands ∧ Fits s.operands.src (3 * s.operands.width.toNat * s.operands.pieceH.toNat) ∧
      ¬ Fits s.operands.dst ((3 * s.operands.width.toNat + 1) * s.operands.pieceH.toNat)) ∧
    ∃ s : State, BandSized s.operands ∧ Fits s.operands.src (3 * s.operands.width.toNat * s.operands.pieceH.toNat) ∧
      Fits s.operands.dst ((3 * s.operands.width.toNat + 1) * s.operands.pieceH.toNat) ∧
      4294967296 ≤ s.operands.adlLen.toNat + (3 * s.operands.width.toNat + 1) * s.operands.pieceH.toNat :=
  ⟨⟨frameBand 0 1 0 0 0 [], by decide⟩, ⟨frameBand 1 0 0 0 0 [], by decide⟩, ⟨frameBand 0x55555555 1 0 0 0 [], by decide⟩,
    ⟨frameBand 1 1 0xFFFFFFFE 0 0 [], by decide⟩, ⟨frameBand 1 1 0xFFFFFFFD 0xFFFFFFFD 0 [], by decide⟩,
    ⟨frameBand 1 1 0xFFFFFFFD 0xFFFFFFFC 0xFFFFFFFC [], by decide⟩⟩

/-- The operands pass all of SCAN_FRAME's checks. -/
abbrev BandFits (x : Regs) : Prop :=
  BandSized x ∧ Fits x.src (3 * x.width.toNat * x.pieceH.toNat) ∧ Fits x.dst ((3 * x.width.toNat + 1) * x.pieceH.toNat) ∧
    x.adlLen.toNat + (3 * x.width.toNat + 1) * x.pieceH.toNat < 4294967296

/-- Two rows, the buffers apart and overlapping. -/
theorem witness_ScanFrameCompletes : ∀ d ∈ [(0x106 : Word), 0x105],
    BandFits (frameBand 1 2 0x100 d 0 []).operands ∧ Completes (frameBand 1 2 0x100 d 0 []).cfg .read 0x100 6 ∧
    Completes (frameBand 1 2 0x100 d 0 []).cfg .write d.toNat 8 ∧ (Apart 0x100 6 d.toNat 8 ↔ d = 0x106) :=
  fun d h => by
    simp only [List.mem_cons, List.mem_nil_iff, or_false] at h
    rcases h with rfl | rfl <;> decide

/-- A refused read of the first row and of the second, and a refused write of the second. -/
theorem witness_ScanFrameBusErrors :
    BandFits (frameBand 1 2 0x100 0x200 0 []).operands ∧
    (∃ s : State, s = frameBand 1 2 0x100 0x200 0 (noRead 0x102) ∧ RefusedAt s.cfg .read 0x100 3 2) ∧
    (∃ s : State, s = frameBand 1 2 0x100 0x200 0 (noRead 0x105) ∧ Completes s.cfg .read 0x100 (1 * 3) ∧
      Completes s.cfg .write 0x200 (1 * 4) ∧ RefusedAt s.cfg .read (0x100 + 1 * 3) 3 2) ∧
    ∃ s : State, s = frameBand 1 2 0x100 0x200 0 (noWrite 0x204) ∧ Completes s.cfg .write 0x200 (1 * 4) ∧
      Completes s.cfg .read (0x100 + 1 * 3) 3 ∧ RefusedAt s.cfg .write (0x200 + 1 * 4) (3 + 1) 0 :=
  ⟨by decide, ⟨_, rfl, by decide⟩, ⟨_, rfl, by decide⟩, ⟨_, rfl, by decide⟩⟩

/-- MERGE_PIECE's operands: `n` bytes at `a`, to `d`, with a fold total. -/
def merge (a n d : Word) (holes : List Hole) : State := dstAt d holes (fun r => { r with src := a, len := n, accValid := true })

/-- No fold total; one byte short of header and trailer; each buffer past 2^32; a refused last read; a refused last write; and the
buffers apart and overlapping. -/
theorem witness_MergePieceRule :
    (∃ s : State, s.operands.accValid = false) ∧
    (∃ s : State, s.operands.accValid = true ∧ s.operands.len.toNat < 2 + 4) ∧
    (∃ s : State, s.operands.accValid = true ∧ 2 + 4 ≤ s.operands.len.toNat ∧ ¬ Fits s.operands.src s.operands.len.toNat) ∧
    (∃ s : State, 2 + 4 ≤ s.operands.len.toNat ∧ Fits s.operands.src s.operands.len.toNat ∧
      ¬ Fits s.operands.dst (12 + (s.operands.len.toNat - 2))) ∧
    (∃ s : State, s.operands.accValid = true ∧ s.operands.len.toNat = 7 ∧ Fits s.operands.src 7 ∧ Fits s.operands.dst (12 + 5) ∧
      RefusedAt s.cfg .read (s.operands.src.toNat + 2) (7 - 2 - 4) 0) ∧
    (∃ s : State, s.operands.accValid = true ∧ s.operands.len.toNat = 6 ∧ Fits s.operands.src 6 ∧ Fits s.operands.dst (12 + 4) ∧
      Completes s.cfg .read (s.operands.src.toNat + 2) (6 - 2 - 4) ∧ RefusedAt s.cfg .write s.operands.dst.toNat (12 + 4) 15) ∧
    ∀ d ∈ [(0x106 : Word), 0x105], (merge 0x100 6 d []).operands.accValid = true ∧ Fits (merge 0x100 6 d []).operands.src 6 ∧
      Fits (merge 0x100 6 d []).operands.dst (12 + 4) ∧ Completes (merge 0x100 6 d []).cfg .read 0x102 (6 - 2 - 4) ∧
      Completes (merge 0x100 6 d []).cfg .write d.toNat (12 + 4) ∧ (Apart 0x100 6 d.toNat (12 + 4) ↔ d = 0x106) :=
  ⟨⟨State.reset, by decide⟩, ⟨merge 0 5 0 [], by decide⟩, ⟨merge 0xFFFFFFFB 6 0 [], by decide⟩,
    ⟨merge 0xFFFFFFFA 6 0xFFFFFFF1 [], by decide⟩, ⟨merge 0x100 7 0x200 (noRead 0x102), by decide⟩,
    ⟨merge 0x100 6 0xFFFFFFF0 (noWrite 0xFFFFFFFF), by decide⟩, fun d h => by
      simp only [List.mem_cons, List.mem_nil_iff, or_false] at h
      rcases h with rfl | rfl <;> decide⟩

/-- SPLIT_PIECE's operands: `n` bytes at `a`, to `d`. -/
def split (a n d : Word) (holes : List Hole) : State := dstAt d holes (fun r => { r with body := a, blen := n })

/-- Both flags. One byte short; each buffer past 2^32; a refused last trailer byte; a refused write; the buffers apart and
overlapping. -/
theorem witness_SplitPieceRule :
    (∃ s : State, s.operands.blen.toNat < 2 + 4) ∧
    (∃ s : State, 2 + 4 ≤ s.operands.blen.toNat ∧ ¬ Fits s.operands.body s.operands.blen.toNat) ∧
    (∃ s : State, s.operands.blen.toNat = 8 ∧ Fits s.operands.body 8 ∧ ¬ Fits s.operands.dst (8 - 2 - 4)) ∧
    (∃ s : State, s.operands.blen.toNat = 8 ∧ Fits s.operands.body 8 ∧ Fits s.operands.dst (8 - 2 - 4) ∧
      RefusedAt s.cfg .read (s.operands.body.toNat + 2) (8 - 2 - 4 + 4) 5) ∧
    (∃ s : State, s.operands.blen.toNat = 8 ∧ Fits s.operands.body 8 ∧ Fits s.operands.dst (8 - 2 - 4) ∧
      Completes s.cfg .read (s.operands.body.toNat + 2) (8 - 2 - 4 + 4) ∧ RefusedAt s.cfg .write s.operands.dst.toNat (8 - 2 - 4) 1) ∧
    ∀ d ∈ [(0x108 : Word), 0x107], Fits (split 0x100 8 d []).operands.body 8 ∧ Fits (split 0x100 8 d []).operands.dst (8 - 2 - 4) ∧
      Completes (split 0x100 8 d []).cfg .read 0x102 (8 - 2 - 4 + 4) ∧ Completes (split 0x100 8 d []).cfg .write d.toNat (8 - 2 - 4) ∧
      (Apart 0x100 8 d.toNat (8 - 2 - 4) ↔ d = 0x108) :=
  ⟨⟨split 0 5 0 [], by decide⟩, ⟨split 0xFFFFFFFB 6 0 [], by decide⟩, ⟨split 0 8 0xFFFFFFFF [], by decide⟩,
    ⟨split 0x100 8 0x200 (noRead 0x107), by decide⟩, ⟨split 0x100 8 0xFFFFFFFE (noWrite 0xFFFFFFFF), by decide⟩, fun d h => by
      simp only [List.mem_cons, List.mem_nil_iff, or_false] at h
      rcases h with rfl | rfl <;> decide⟩

theorem witness_RefusedReadsKeepMemory :
    (∃ s : State, Fits s.operands.src s.operands.len.toNat ∧ Fits s.operands.dst (12 + s.operands.len.toNat) ∧
      RefusedAt s.cfg .read s.operands.src.toNat s.operands.len.toNat 0) ∧
    (∃ s : State, s.operands.accValid = true ∧ 2 + 4 ≤ s.operands.len.toNat ∧ Fits s.operands.src s.operands.len.toNat ∧
      Fits s.operands.dst (12 + (s.operands.len.toNat - 2)) ∧
      RefusedAt s.cfg .read (s.operands.src.toNat + 2) (s.operands.len.toNat - 2 - 4) 0) ∧
    ∃ s : State, 2 + 4 ≤ s.operands.blen.toNat ∧ Fits s.operands.body s.operands.blen.toNat ∧
      Fits s.operands.dst (s.operands.blen.toNat - 2 - 4) ∧
      RefusedAt s.cfg .read (s.operands.body.toNat + 2) (s.operands.blen.toNat - 2) 3 :=
  ⟨⟨putFrom 0x100 1 0x200 (noRead 0x100), by decide⟩, ⟨merge 0x100 7 0x200 (noRead 0x102), by decide⟩,
    ⟨split 0x100 6 0x200 (noRead 0x105), by decide⟩⟩

/-- SCAN_UNFRAME's operands. -/
def unframe (w n a d m : Word) (holes : List Hole) (bs : List Byte) : State :=
  withBytes (dstAt d holes (fun r => { r with width := w, len := n, src := a, adlLen := m })) a.toNat bs

/-- The operands pass SCAN_UNFRAME's checks up to the stride. -/
abbrev RowsWhole (x : Regs) : Prop :=
  x.width ≠ 0 ∧ 3 * x.width.toNat + 1 < 4294967296 ∧ x.len.toNat % (3 * x.width.toNat + 1) = 0

/-- Each check failing with the ones before it passing, at its boundary (V14e, V14f, V14c and the three ranges). -/
theorem witness_ScanUnframeChecks :
    (∃ s : State, s.operands.width = 0) ∧
    (∃ s : State, s.operands.width ≠ 0 ∧ 4294967296 ≤ 3 * s.operands.width.toNat + 1) ∧
    (∃ s : State, s.operands.width ≠ 0 ∧ 3 * s.operands.width.toNat + 1 < 4294967296 ∧
      s.operands.len.toNat % (3 * s.operands.width.toNat + 1) ≠ 0) ∧
    (∃ s : State, RowsWhole s.operands ∧ ¬ Fits s.operands.src s.operands.len.toNat) ∧
    (∃ s : State, RowsWhole s.operands ∧ Fits s.operands.src s.operands.len.toNat ∧ ¬ Fits s.operands.dst (1 * 3) ∧
      s.operands.len.toNat / (3 * s.operands.width.toNat + 1) = 1) ∧
    ∃ s : State, RowsWhole s.operands ∧ Fits s.operands.src s.operands.len.toNat ∧ Fits s.operands.dst (1 * 3) ∧
      s.operands.len.toNat / (3 * s.operands.width.toNat + 1) = 1 ∧ 4294967296 ≤ s.operands.adlLen.toNat + s.operands.len.toNat :=
  ⟨⟨unframe 0 4 0 0 0 [] [], by decide⟩, ⟨unframe 0x55555555 0 0 0 0 [] [], by decide⟩, ⟨unframe 4 0x19 0 0 0 [] [], by decide⟩,
    ⟨unframe 1 4 0xFFFFFFFD 0 0 [] [], by decide⟩, ⟨unframe 1 4 0xFFFFFFFC 0xFFFFFFFE 0 [] [], by decide⟩,
    ⟨unframe 1 4 0xFFFFFFFC 0xFFFFFFFD 0xFFFFFFFC [] [], by decide⟩⟩

/-- Two one-pixel rows, the second's filter byte `f`, at 0x100. -/
def twoRows (f : Byte) (d : Word) (holes : List Hole) : State := unframe 1 8 0x100 d 0 holes [0, 1, 2, 3, f, 5, 6, 7]

/-- The operands pass all of SCAN_UNFRAME's checks. -/
abbrev RowsFit (x : Regs) : Prop :=
  RowsWhole x ∧ Fits x.src x.len.toNat ∧ Fits x.dst (x.len.toNat / (3 * x.width.toNat + 1) * (3 * x.width.toNat)) ∧
    x.adlLen.toNat + x.len.toNat < 4294967296

/-- The buffers apart and overlapping, and no row at all. -/
theorem witness_ScanUnframeCompletes :
    (∀ d ∈ [(0x108 : Word), 0x107], RowsFit (twoRows 0 d []).operands ∧ Completes (twoRows 0 d []).cfg .read 0x100 8 ∧
      Completes (twoRows 0 d []).cfg .write d.toNat (2 * 3) ∧
      (∀ r, r < 2 → Memory.get (twoRows 0 d []).mem (0x100 + r * 4) = 0) ∧ (Apart 0x100 8 d.toNat (2 * 3) ↔ d = 0x108)) ∧
    RowsFit (unframe 0x55555554 0 0xFFFFFFFF 0xFFFFFFFF 0 [] []).operands :=
  ⟨fun d h => by
      simp only [List.mem_cons, List.mem_nil_iff, or_false] at h
      rcases h with rfl | rfl <;> decide, by decide⟩

/-- Row 1 with row 0 passed: a refused filter byte, a filter byte that is not 0, a refused pixel byte, a refused write. Row 0: the
same. -/
theorem witness_ScanUnframeRowErrors :
    (∀ s ∈ [twoRows 0 0x200 (noRead 0x104), twoRows 1 0x200 [], twoRows 0 0x200 (noRead 0x107), twoRows 0 0x200 (noWrite 0x203)],
      RowsFit s.operands ∧ 1 < s.operands.len.toNat / 4 ∧ Completes s.cfg .read 0x100 (1 * 4) ∧
      Completes s.cfg .write 0x200 (1 * 3) ∧ Memory.get s.mem 0x100 = 0) ∧
    memOK (twoRows 0 0x200 (noRead 0x104)).cfg .read 0x104 = false ∧
    (memOK (twoRows 1 0x200 []).cfg .read 0x104 = true ∧ Memory.get (twoRows 1 0x200 []).mem 0x104 ≠ 0) ∧
    (memOK (twoRows 0 0x200 (noRead 0x107)).cfg .read 0x104 = true ∧ Memory.get (twoRows 0 0x200 (noRead 0x107)).mem 0x104 = 0 ∧
      RefusedAt (twoRows 0 0x200 (noRead 0x107)).cfg .read (0x104 + 1) 3 2) ∧
    (Completes (twoRows 0 0x200 (noWrite 0x203)).cfg .read 0x104 4 ∧
      Memory.get (twoRows 0 0x200 (noWrite 0x203)).mem 0x104 = 0 ∧
      RefusedAt (twoRows 0 0x200 (noWrite 0x203)).cfg .write (0x200 + 1 * 3) 3 0) ∧
    memOK (twoRows 0 0x200 (noRead 0x100)).cfg .read 0x100 = false ∧
    Memory.get (unframe 1 4 0x100 0x200 0 [] [9, 1, 2, 3]).mem 0x100 ≠ 0 ∧
    RefusedAt (twoRows 0 0x200 (noRead 0x103)).cfg .read (0x100 + 1) 3 2 ∧
    RefusedAt (twoRows 0 0x200 (noWrite 0x202)).cfg .write (0x200 + 0 * 3) 3 2 := by decide +kernel

/-! ### Witnesses: checksum combiner -/

theorem witness_CombiningCommands : State.reset.operands.accValid = false ∧
    (start (fun r => { r with accValid := true }) 0 [] []).operands.accValid = true := by decide

/-- No prior checksum; a mismatch and a match with each selection. -/
theorem witness_TrlChkRule : State.reset.operands.accValid = false ∧ State.reset.operands.adl ≠ State.reset.operands.trailer ∧
    (start (fun r => { r with accValid := true }) 0 [] []).operands.acc =
      (start (fun r => { r with accValid := true }) 0 [] []).operands.trailer ∧
    (start (fun r => { r with accValid := true }) 0 [] []).operands.accValid = true := by decide

theorem witness_CombineConcatenates : [(1 : Byte)].length < 4294967296 ∧
    ∀ g ∈ [([] : List Byte), [1], [2, 3]], g.length < 4294967296 := by decide

/-! ### Witnesses: sequences of commands, and rules of the whole machine -/

/-- The first byte of the tag and the last of the CRC of chunk U, each with another byte. -/
theorem witness_ChangedByteIsDetected : ∃ s : State,
    GoodChunk s.cfg s.mem s.operands.src.toNat s.operands.srcEnd.toNat ∧ chunkLen s.mem s.operands.src.toNat = 3 ∧
    s.operands.src.toNat + 4 ≤ 0x104 ∧ 0x10E < s.operands.src.toNat + 12 + 3 ∧ 0x75 ≠ Memory.get s.mem 0x104 ∧
    0x89 ≠ Memory.get s.mem 0x10E :=
  ⟨stream chunkU id, by decide +kernel⟩

/-- The body of V3b, framed at 0x200 and read back. -/
theorem witness_ChunkRoundTrip : ∃ s t u : State,
    Fits s.operands.src s.operands.len.toNat ∧ Fits s.operands.dst (12 + s.operands.len.toNat) ∧
    Completes s.cfg .read s.operands.src.toNat s.operands.len.toNat ∧
    Completes s.cfg .write s.operands.dst.toNat (12 + s.operands.len.toNat) ∧
    Apart s.operands.src.toNat s.operands.len.toNat s.operands.dst.toNat (12 + s.operands.len.toNat) ∧
    exec .chunkPut s = .next t ∧ u.mem = t.mem ∧ Completes u.cfg .read s.operands.dst.toNat (12 + s.operands.len.toNat) ∧
    u.operands.src = s.operands.dst ∧ s.operands.dst.toNat + 12 + s.operands.len.toNat ≤ u.operands.srcEnd.toNat :=
  ⟨start (fun r => { r with src := 0x100, len := 3, dst := 0x200 }) 0x100 [0x61, 0x62, 0x63] [], _,
    { stream [] (fun r => { r with src := 0x200, srcEnd := 0x20F }) with
      mem := Memory.store (Memory.store [] 0x100 [0x61, 0x62, 0x63]) 0x200 (chunkBytes 0 [0x61, 0x62, 0x63]) },
    by decide, by decide, by decide, by decide, by decide, rfl, by rfl, by decide, by decide, by decide⟩

/-- One pixel, framed at 0x200 and read back to 0x300. -/
theorem witness_FrameRoundTrip : ∃ s t u : State, s.operands.width ≠ 0 ∧ s.operands.pieceH ≠ 0 ∧ BandFits s.operands ∧
    s.operands.width = 1 ∧ s.operands.pieceH = 1 ∧ Completes s.cfg .read s.operands.src.toNat 3 ∧
    Completes s.cfg .write s.operands.dst.toNat 4 ∧ Apart s.operands.src.toNat 3 s.operands.dst.toNat 4 ∧
    exec .scanFrame s = .next t ∧ u.mem = t.mem ∧ u.operands.width = s.operands.width ∧ u.operands.src = s.operands.dst ∧
    u.operands.len.toNat = 4 ∧ Fits u.operands.dst 3 ∧ u.operands.adlLen.toNat + 4 < 4294967296 ∧
    Completes u.cfg .read s.operands.dst.toNat 4 ∧ Completes u.cfg .write u.operands.dst.toNat 3 ∧
    Apart s.operands.dst.toNat 4 u.operands.dst.toNat 3 ∧ u.operands.adl = s.operands.adl :=
  ⟨start (fun r => { r with width := 1, pieceH := 1, src := 0x100, dst := 0x200 }) 0x100 [1, 2, 3] [], _,
    { unframe 1 4 0x200 0x300 0 [] [] with mem := Memory.store (Memory.store [] 0x100 [1, 2, 3]) 0x200 [0, 1, 2, 3] },
    by decide, by decide, by decide, by decide, by decide, by decide, by decide, by decide, rfl, by rfl, by decide, by decide,
    by decide, by decide, by decide, by decide, by decide, by decide, by decide⟩

/-- A state with a command in flight that meets the invariant, and its next state. -/
theorem witness_StepKeepsInvariant : (inFlight 0x34 []).Inv ∧ ∃ t, step (inFlight 0x34 []) = .next t :=
  ⟨⟨by decide, by decide, by decide, by decide, by decide, by decide, by decide, by
    intro l h
    cases h
    exact ⟨rfl, rfl⟩⟩, _, rfl⟩

/-- The first byte past what CHUNK_GET reads differs. -/
theorem witness_ResultDependsOnBytesRead : ∃ (s t u : State) (m : Memory),
    (∀ r ∈ (reportOf .chunkGet s.view).input, ∀ a, r.has a = true → Memory.get m a = Memory.get s.mem a) ∧ m ≠ s.mem ∧
    exec .chunkGet s = .next t ∧ exec .chunkGet { s with mem := m } = .next u := by
  refine ⟨stream chunkU id, _, _, Memory.set (stream chunkU id).mem 0x10F 7, fun r hr a ha => ?_, by decide, rfl, rfl⟩
  have h : (reportOf .chunkGet (stream chunkU id).view).input = [⟨0x100, 15⟩] := by decide +kernel
  rw [h, List.mem_singleton] at hr
  subst hr
  simp only [Range.has, Bool.and_eq_true, decide_eq_true_eq] at ha
  exact Memory.get_set_other _ _ (by omega)

/-- A CHUNK_PUT of one byte at 0x100 to 0x200 in flight. -/
def putInFlight (e : Event) : State := { (putFrom 0x100 1 0x200 []).accept 0x12 with sched := [e] }

/-- Writes just below and just into the input, just below and just past the output, and a read of its last byte. -/
theorem witness_HostRaceFaults :
    (∀ a ∈ [0xFF, 0x100, 0x1FF, 0x200, 0x20C, 0x20D], (putInFlight (.memWrite .host a [1])).cfg.wellFormed = true ∧
      (putInFlight (.memWrite .host a [1])).latch = some ⟨0x12, (putFrom 0x100 1 0x200 []).regs⟩ ∧
      (putInFlight (.memWrite .host a [1])).sched = [.memWrite .host a [1]] ∧ a + 1 ≤ 4294967296 ∧
      ((Apart 0x100 1 a 1 ∧ Apart 0x200 (12 + 1) a 1) ↔ a ∈ [0xFF, 0x1FF, 0x20D])) ∧
    decode 0x12 = .ok .chunkPut ∧ Fits (putFrom 0x100 1 0x200 []).regs.src 1 ∧ Fits (putFrom 0x100 1 0x200 []).regs.dst (12 + 1) ∧
    ¬ Apart 0x200 (12 + 1) 0x20C 1 := by decide

theorem witness_TagClashRefusedIdleStays :
    (∀ tag ∈ [(0x49484452 : Word), 0x49444154, 0x49454E44], step { State.reset with cfg := ⟨tag, 0, []⟩ } = .refused .tagsNotDistinct) ∧
    State.reset.cfg.wellFormed = true ∧ State.reset.latch = none ∧ State.reset.sched = [] := by
  refine ⟨fun tag h => ?_, by decide⟩
  simp only [List.mem_cons, List.mem_nil_iff, or_false] at h
  rcases h with rfl | rfl | rfl <;> rfl

end Sys2Proof.Tests
end

-- ==== Proofs: the configuration and the idle step ====
section
/-! The step on a configuration R7 refuses, and the step of an idle block with nothing left to happen (R303). -/

namespace Sys2Proof.Machine

/-- The refused configurations are those whose descriptor tag is one of the three fixed ones (R7). -/
theorem Params.wellFormed_eq_false_iff {p : Params} :
    p.wellFormed = false ↔ p.tagDesc = tagHdr ∨ p.tagDesc = tagData ∨ p.tagDesc = tagEnd := by
  simp only [Params.wellFormed, Bool.and_eq_false_iff, bne_eq_false_iff_eq, or_assoc]

/-- A configuration that is not well-formed has no step, whatever is scheduled or in flight (log 17). -/
theorem step_of_not_wellFormed {s : State} (hw : s.cfg.wellFormed = false) : step s = .refused .tagsNotDistinct := by
  unfold step advanceStep; exact if_pos hw

/-- Settles O60: the clashing tags are exactly the ones `wellFormed` rejects, and with neither an event nor a command the step
is a completion with nothing to complete. -/
theorem tagClashRefusedIdleStays : Obligations.TagClashRefusedIdleStays := by
  intro s
  constructor
  · intro htag
    exact step_of_not_wellFormed (Params.wellFormed_eq_false_iff.mpr htag)
  · intro hw hlatch hsched
    calc step s = complete s := step_nil hw hsched
      _ = .next s := complete_of_idle hlatch

end Sys2Proof.Machine
end

-- ==== Proofs: the bits of CTRL and STATUS ====
section
/-! CTRL and STATUS as lists of bits, least significant first (R32, R33); every bit past the list is reserved (R60). -/

namespace Sys2Proof.Machine

/-- `bits` are the bits of `x` from bit 0 on; the rest are 0. -/
def HasBits {n : Nat} (x : BitVec n) (bits : List Bool) : Prop := ∀ k, x.getLsbD k = bits.getD k false

theorem HasBits.zero (n : Nat) : HasBits (0 : BitVec n) [] := fun k => by simp

/-- A bit appended below the others. -/
theorem HasBits.append_bit {n : Nat} {x : BitVec n} {bits : List Bool} (h : HasBits x bits) (b : Bool) :
    HasBits (x ++ BitVec.ofBool b) (b :: bits) := by
  intro k
  rw [BitVec.getLsbD_append]
  cases k with
  | zero => simp
  | succ j => simpa using h j

/-- A two-bit field appended below the others. -/
theorem HasBits.append_pair {n : Nat} {x : BitVec n} {bits : List Bool} (h : HasBits x bits) (y : BitVec 2) :
    HasBits (x ++ y) (y.getLsbD 0 :: y.getLsbD 1 :: bits) := by
  intro k
  rw [BitVec.getLsbD_append]
  match k with
  | 0 => simp
  | 1 => simp
  | j + 2 => simpa using h j

/-- CTRL (R32). -/
theorem Regs.ctrlWord_bits (r : Regs) : HasBits r.ctrlWord [r.irqDoneEn, r.irqErrEn, r.descOpt] :=
  (((HasBits.zero 29).append_bit r.descOpt).append_bit r.irqErrEn).append_bit r.irqDoneEn

/-- STATUS (R33), its top bit the live interrupt. -/
theorem Regs.statusWord_bits (r : Regs) :
    HasBits r.statusWord [r.busy, r.done, r.err, r.accValid, r.descSeen, (kindCode r.kind).getLsbD 0,
      (kindCode r.kind).getLsbD 1, r.trlMatch, r.cmdovr, r.ncanon, r.irq] :=
  (((((((((((HasBits.zero 21).append_bit r.irq).append_bit r.ncanon).append_bit r.cmdovr).append_bit
    r.trlMatch).append_pair (kindCode r.kind)).append_bit r.descSeen).append_bit r.accValid).append_bit
    r.err).append_bit r.done).append_bit r.busy)

/-- A bit past the listed ones is 0. -/
theorem HasBits.reserved {n : Nat} {x : BitVec n} {bits : List Bool} (h : HasBits x bits) {k : Nat} (hk : bits.length ≤ k) :
    x.getLsbD k = false := by
  rw [h k, List.getD_eq_default _ _ hk]

/-- Bit 0 of the KIND code (R33). -/
theorem kindCode_bit0 (k : Kind) : (kindCode k).getLsbD 0 = true ↔ k = .descriptor ∨ k = .terminator := by
  cases k <;> decide

/-- Bit 1 of the KIND code (R33). -/
theorem kindCode_bit1 (k : Kind) : (kindCode k).getLsbD 1 = true ↔ k = .data ∨ k = .terminator := by
  cases k <;> decide

/-- Settles O15: each bit is read off the list of the register's bits, KIND's two through its code. -/
theorem statusAndCtrlLayout : Obligations.StatusAndCtrlLayout := by
  intro r
  have hs := r.statusWord_bits
  have hc := r.ctrlWord_bits
  have hkind0 := (Bool.eq_iff_iff.1 (hs 5)).trans (kindCode_bit0 r.kind)
  have hkind1 := (Bool.eq_iff_iff.1 (hs 6)).trans (kindCode_bit1 r.kind)
  exact ⟨hs 0, hs 1, hs 2, hs 3, hs 4, hkind0, hkind1, hs 7, hs 8, hs 9, rfl, hs 10, hc 0, hc 1, hc 2⟩

end Sys2Proof.Machine
end

-- ==== Proofs: writes that are ignored ====
section
/-! Which offsets and which bits a host write looks at (R31, R60). -/

namespace Sys2Proof.Machine

/-- A host write of an offset that is no RW register's assigns nothing (R31, R60). -/
theorem writeOperand_ignored (r : Regs) {off : Nat} (v : Word)
    (h : off ∉ [0x20, 0x24, 0x28, 0x2C, 0x30, 0x34, 0x38, 0x40, 0x44, 0x48, 0x4C, 0x50, 0x54, 0x58]) :
    writeOperand r off v = r := by
  unfold writeOperand
  split
  case h_15 => rfl
  all_goals exact absurd (by decide) h

/-- A host write to an offset other than CTRL, STATUS, CMD and the RW registers is ignored, busy or not (R31, R60). -/
theorem writeOffset_ignored (s : State) {off : Nat} (v : Word)
    (h : off ∉ [0x08, 0x0C, 0x10, 0x20, 0x24, 0x28, 0x2C, 0x30, 0x34, 0x38, 0x40, 0x44, 0x48, 0x4C, 0x50, 0x54, 0x58]) :
    s.writeOffset off v = s := by
  obtain ⟨hctrl, h⟩ := not_or.1 (mt List.mem_cons.2 h)
  obtain ⟨hstatus, h⟩ := not_or.1 (mt List.mem_cons.2 h)
  obtain ⟨hcmd, h⟩ := not_or.1 (mt List.mem_cons.2 h)
  cases hb : s.regs.busy with
  | true => unfold State.writeOffset; simp [hb]
  | false => rw [writeOffset_idle hb hctrl hstatus hcmd, writeOperand_ignored _ _ h]

/-- CTRL looks at bits 0 to 2 and 31 of what is written (R32). -/
theorem writeCtrl_congr (s : State) {v w : Word} (h : ∀ k, k < 3 ∨ k = 31 → v.getLsbD k = w.getLsbD k) :
    s.writeCtrl v = s.writeCtrl w := by
  unfold State.writeCtrl
  rw [h 0 (by decide), h 1 (by decide), h 2 (by decide), h 31 (by decide)]

/-- STATUS looks at its W1C bits of what is written (R33). -/
theorem clearStatus_congr (r : Regs) {v w : Word} (h : ∀ k, k < 11 → v.getLsbD k = w.getLsbD k) :
    r.clearStatus v = r.clearStatus w := by
  unfold Regs.clearStatus
  rw [h 1 (by decide), h 2 (by decide), h 8 (by decide), h 9 (by decide)]

/-- The offsets from 0x74 on read 0 (R60). -/
theorem readOffset_reserved (r : Regs) {off : Nat} (h : 0x74 ≤ off) : readOffset r off = 0 := by
  unfold readOffset
  split
  case h_30 => rfl
  all_goals omega

/-- Two values that an offset takes alike make the same step. -/
theorem step_regWrite_congr (s : State) {off : Nat} {v w : Word} (rest : List Event) (hw : s.cfg.wellFormed = true)
    (ho : off < 256) (h4 : off % 4 = 0) (h : ∀ t : State, t.writeOffset off v = t.writeOffset off w) :
    step { s with sched := .regWrite (s.cfg.regBase + off) .w32 v :: rest } =
      step { s with sched := .regWrite (s.cfg.regBase + off) .w32 w :: rest } := by
  have hstep (u : Word) := step_regWrite (s := { s with sched := .regWrite (s.cfg.regBase + off) .w32 u :: rest }) hw ho h4 rfl
  exact (hstep v).trans ((congrArg Host.Outcome.next (h _)).trans (hstep w).symm)

/-- Settles O13: the ignored offsets are none that `writeOffset` answers, CTRL and STATUS look at their own bits only, and
every bit past those of the two registers reads 0. -/
theorem readOnlyAndReserved : Obligations.ReadOnlyAndReserved := by
  refine ⟨fun s off v rest hw h4 hoff hs => ?_, fun s off v w rest hw h => ?_, fun r => ⟨rfl, rfl, ?_, ?_, ?_⟩⟩
  · have ho : off < 256 ∧ off ∉ [0x08, 0x0C, 0x10, 0x20, 0x24, 0x28, 0x2C, 0x30, 0x34, 0x38, 0x40, 0x44, 0x48, 0x4C, 0x50,
        0x54, 0x58] := by
      simp only [List.mem_cons, List.not_mem_nil, or_false] at hoff ⊢
      omega
    rw [step_regWrite hw ho.1 h4 hs, writeOffset_ignored _ _ ho.2]
  · rcases h with ⟨rfl, hbits⟩ | ⟨rfl, hbits⟩
    · exact step_regWrite_congr s rest hw (by decide) (by decide) fun t => writeCtrl_congr t hbits
    · refine step_regWrite_congr s rest hw (by decide) (by decide) fun t => ?_
      exact congrArg (fun q => { t with regs := q }) (clearStatus_congr t.regs hbits)
  · exact fun off h => readOffset_reserved r h
  · exact fun k hk => r.ctrlWord_bits.reserved hk
  · exact fun k hk => r.statusWord_bits.reserved hk

end Sys2Proof.Machine
end

-- ==== Proofs: the frame of memory ====
section
/-! What a completed command leaves of memory (R272). -/

namespace Sys2Proof.Machine

/-- A command changes no byte outside its whole output range from the snapshot's DST on (R40, R272). -/
theorem exec_get_outside {i : Instr} {s t : State} {a : Nat} (h : exec i s = .next t)
    (ha : Outside s.operands.dst.toNat (outputSpan i s.operands) a) : Memory.get t.mem a = Memory.get s.mem a := by
  rw [exec_eq, Host.Outcome.next.injEq] at h
  subst h
  exact conclude_get_outside s _ (reportOf_within i s.view).1 (reportOf_outside i s.view ha)

/-- Settles O20: a command that stores nothing has an output range of no byte, and every byte is outside it. -/
theorem readersKeepMemory : Obligations.ReadersKeepMemory := by
  intro i s t h hi a
  have hspan : outputSpan i s.operands = 0 := by
    simp only [List.mem_cons, List.not_mem_nil, or_false] at hi
    rcases hi with (rfl | rfl | rfl | rfl | rfl | rfl | rfl | rfl | rfl | rfl | rfl | rfl | rfl) | ⟨sel, e, rfl⟩ <;> rfl
  refine exec_get_outside h ?_
  rw [hspan]
  exact Nat.lt_or_ge a _

/-- Settles O21: the eight ranges are the commands' output ranges. -/
theorem writersKeepOtherMemory : Obligations.WritersKeepOtherMemory := by
  intro s t a x d
  exact ⟨exec_get_outside, exec_get_outside, exec_get_outside, exec_get_outside, exec_get_outside,
    fun _ _ => exec_get_outside, fun _ _ => exec_get_outside, exec_get_outside⟩

end Sys2Proof.Machine
end

-- ==== Proofs: the frame of the registers ====
section
/-! What a command's commit may assign: the "written by" column of R30, register by register. -/

namespace Sys2Proof.Machine

/-- What the commit of command `i` with operands `x` may do, taking the registers `r` to `q` (R30's column "written by"), and
the values ADL and ACC can then have (R54, R56). -/
structure CommitFrame (i : Instr) (x r q : Regs) : Prop where
  ctrl : q.ctrlWord = r.ctrlWord
  cmd : q.cmd = r.cmd
  errors : q.err = r.err ∧ q.errinfo = r.errinfo ∧ q.erraddr = r.erraddr ∧ q.errdata = r.errdata
  hostOnly : q.srcEnd = r.srcEnd ∧ q.len = r.len ∧ q.npieces = r.npieces ∧ q.opa = r.opa ∧ q.opb = r.opb ∧ q.oplen = r.oplen
  src : q.src ≠ r.src →
    i ∈ [.magicChk, .chunkPut, .chunkGet, .ihdrGet, .hdrScan, .dataGet, .scanFrame, .scanUnframe] ∨ ∃ f l, i = .mergePiece f l
  dst : q.dst ≠ r.dst → i ∈ [.magicPut, .chunkPut, .ihdrPut, .descPut, .scanFrame, .scanUnframe] ∨
    (∃ f l, i = .mergePiece f l) ∨ ∃ f l, i = .splitPiece f l
  chunk : q.tag ≠ r.tag ∨ q.body ≠ r.body ∨ q.blen ≠ r.blen → i ∈ [.chunkGet, .ihdrGet, .hdrScan, .dataGet]
  crc : q.crc ≠ r.crc →
    i ∈ [.chunkPut, .chunkGet, .ihdrPut, .ihdrGet, .descPut, .hdrScan, .dataGet] ∨ ∃ f l, i = .mergePiece f l
  size : q.width ≠ r.width ∨ q.height ≠ r.height → i = .ihdrGet
  pieceH : q.pieceH ≠ r.pieceH → i ∈ [.bandCfg, .hdrScan]
  acc : q.acc ≠ r.acc → i ∈ [.cmbInit, .cmbLoad, .cmbFold, .adlFold]
  res : q.res ≠ r.res → i = .cmbPair
  adl : q.adl ≠ r.adl ∨ q.adlLen ≠ r.adlLen → i ∈ [.adlInit, .scanFrame, .scanUnframe]
  trailer : q.trailer ≠ r.trailer → ∃ f, i = .splitPiece f true
  skipcnt : q.skipcnt ≠ r.skipcnt → i = .hdrScan
  accValue : (q.acc = r.acc ∧ q.accValid = r.accValid) ∨ q.accValid = true ∨ q.acc = 0
  adlValue : q.adl = r.adl ∨ q.adl = 1 ∨ ∃ bs, q.adl = adlerUpdate x.adl bs

/-- Every commit stays within its frame: the registers its rule assigns, read off its report. -/
theorem reportOf_frame {i : Instr} {v : View} {c : Commit} (h : (reportOf i v).result = .ok c) (r : Regs) :
    CommitFrame i v.x r (c.regs r) := by
  cases i
  case' nop => rw [Report.assign_commits h]
  case' magicPut => rw [reportMagicPut_commits h]
  case' magicChk => rw [reportMagicChk_commits h]
  case' chunkPut => obtain ⟨k, hf⟩ := reportChunkPut_commits h; rw [hf]
  case' chunkGet => obtain ⟨k, hf⟩ := reportChunkGet_commits h; rw [hf]
  case' ihdrPut => obtain ⟨k, hf⟩ := reportIhdrPut_commits h; rw [hf]
  case' ihdrGet => obtain ⟨k, w, g, hf⟩ := reportIhdrGet_commits h; rw [hf]
  case' descPut => obtain ⟨k, hf⟩ := reportDescPut_commits h; rw [hf]
  case' hdrScan => obtain ⟨stop, hf⟩ := reportHdrScan_commits h; rw [hf]; cases stop
  case' dataGet => obtain ⟨k, d, hf⟩ := reportDataGet_commits h; rw [hf]
  case' bandCfg => rw [reportBandCfg_commits h]
  case' scanFrame => obtain ⟨n, a, d, hf⟩ := reportScanFrame_commits h; rw [hf]
  case' mergePiece f l => obtain ⟨k, a, d, hf⟩ := reportMergePiece_commits h; rw [hf]
  case' splitPiece f l => obtain ⟨k, d, hf⟩ := reportSplitPiece_commits h; rw [hf]; cases l
  case' scanUnframe => obtain ⟨bs, n, a, d, hf⟩ := reportScanUnframe_commits h; rw [hf]
  case' cmbInit => rw [Report.assign_commits h]
  case' cmbLoad => rw [Report.assign_commits h]
  case' cmbFold => obtain ⟨a, b, hf⟩ := foldInto_commits h; rw [hf]
  case' cmbPair => rw [Report.assign_commits h]
  case' adlInit => rw [Report.assign_commits h]
  case' adlFold => obtain ⟨a, b, hf⟩ := reportAdlFold_commits h; rw [hf]
  case' trlChk sel e => obtain ⟨b, hf⟩ := reportTrlChk_commits h; rw [hf]
  all_goals constructor <;> simp [scanCommit, Regs.ctrlWord]

/-- An offset that reads differently is the offset of a register that holds something else (R30). -/
theorem readOffset_changes {r q : Regs} {off : Nat} (h : readOffset q off ≠ readOffset r off) :
    (off = 0x08 ∧ q.ctrlWord ≠ r.ctrlWord) ∨ (off = 0x0C ∧ q.statusWord ≠ r.statusWord) ∨ (off = 0x10 ∧ q.cmd ≠ r.cmd) ∨
    (off = 0x14 ∧ q.errinfo ≠ r.errinfo) ∨ (off = 0x18 ∧ q.erraddr ≠ r.erraddr) ∨ (off = 0x1C ∧ q.errdata ≠ r.errdata) ∨
    (off = 0x20 ∧ q.src ≠ r.src) ∨ (off = 0x24 ∧ q.srcEnd ≠ r.srcEnd) ∨ (off = 0x28 ∧ q.dst ≠ r.dst) ∨
    (off = 0x2C ∧ q.len ≠ r.len) ∨ (off = 0x30 ∧ q.tag ≠ r.tag) ∨ (off = 0x34 ∧ q.body ≠ r.body) ∨
    (off = 0x38 ∧ q.blen ≠ r.blen) ∨ (off = 0x3C ∧ q.crc ≠ r.crc) ∨ (off = 0x40 ∧ q.width ≠ r.width) ∨
    (off = 0x44 ∧ q.height ≠ r.height) ∨ (off = 0x48 ∧ q.npieces ≠ r.npieces) ∨ (off = 0x4C ∧ q.pieceH ≠ r.pieceH) ∨
    (off = 0x50 ∧ q.opa ≠ r.opa) ∨ (off = 0x54 ∧ q.opb ≠ r.opb) ∨ (off = 0x58 ∧ q.oplen ≠ r.oplen) ∨
    (off = 0x5C ∧ q.acc ≠ r.acc) ∨ (off = 0x60 ∧ q.res ≠ r.res) ∨ (off = 0x64 ∧ q.adl ≠ r.adl) ∨
    (off = 0x68 ∧ q.adlLen ≠ r.adlLen) ∨ (off = 0x6C ∧ q.trailer ≠ r.trailer) ∨ (off = 0x70 ∧ q.skipcnt ≠ r.skipcnt) := by
  unfold readOffset at h
  split at h <;> simp_all

/-- What an error changes of the window (R270, R271). -/
theorem readOffset_takeError {s : State} {e : Err} {o : Range} {off : Nat}
    (h : readOffset (s.takeError e o).regs off ≠ readOffset s.regs off) :
    off = 0x0C ∨ off = 0x14 ∨ off = 0x18 ∨ off = 0x1C := by
  have hc := readOffset_changes h
  simp only [State.takeError_regs, Regs.ctrlWord, ne_eq, not_true_eq_false, and_false, false_or, or_false] at hc
  omega

/-- DONE and BUSY are in no frame: a completion stays within its commit's. -/
theorem CommitFrame.complete {i : Instr} {x r : Regs} {f : Regs → Regs} (h : CommitFrame i x r (f r)) :
    CommitFrame i x r (r.complete f) :=
  ⟨h.ctrl, h.cmd, h.errors, h.hostOnly, h.src, h.dst, h.chunk, h.crc, h.size, h.pieceH, h.acc, h.res, h.adl, h.trailer,
    h.skipcnt, h.accValue, h.adlValue⟩

/-- A command that commits stays within its frame. -/
theorem conclude_frame {i : Instr} {s : State} {c : Commit} (h : (reportOf i s.view).result = .ok c) :
    CommitFrame i s.operands s.regs (s.conclude (reportOf i s.view)).regs := by
  rw [conclude_regs s _ h]
  exact (reportOf_frame h s.regs).complete

/-- Settles O19: an error changes STATUS and the error registers only; a commit stays within its frame, whose fields are the
"written by" column. -/
theorem onlyNamedCommandsWrite : Obligations.OnlyNamedCommandsWrite := by
  intro i s t off h hne
  rw [exec_eq, Host.Outcome.next.injEq] at h
  subst h
  cases hr : (reportOf i s.view).result with
  | error e =>
    rw [conclude_error s _ hr] at hne
    rcases readOffset_takeError hne with rfl | rfl | rfl | rfl <;> simp
  | ok c =>
    have W := conclude_frame hr
    generalize (s.conclude (reportOf i s.view)).regs = q at W hne
    have hc := readOffset_changes hne
    simp only [W.ctrl, W.cmd, W.errors, W.hostOnly, ne_eq, not_true_eq_false, and_false, false_or] at hc
    rcases hc with ⟨rfl, h⟩ | ⟨rfl, h⟩ | ⟨rfl, h⟩ | ⟨rfl, h⟩ | ⟨rfl, h⟩ | ⟨rfl, h⟩ | ⟨rfl, h⟩ | ⟨rfl, h⟩ | ⟨rfl, h⟩ | ⟨rfl, h⟩ |
      ⟨rfl, h⟩ | ⟨rfl, h⟩ | ⟨rfl, h⟩ | ⟨rfl, h⟩ | ⟨rfl, h⟩ | ⟨rfl, h⟩
    · simp
    · simpa using W.src h
    · simpa using W.dst h
    · simpa using W.chunk (.inl h)
    · simpa using W.chunk (.inr (.inl h))
    · simpa using W.chunk (.inr (.inr h))
    · simpa using W.crc h
    · simpa using W.size (.inl h)
    · simpa using W.size (.inr h)
    · simpa using W.pieceH h
    · simpa using W.acc h
    · simpa using W.res h
    · simpa using W.adl (.inl h)
    · simpa using W.adl (.inr h)
    · simpa using W.trailer h
    · simpa using W.skipcnt h

end Sys2Proof.Machine
end

-- ==== Proofs: the invariant ====
section
/-! Every step keeps the invariant: what it says of the registers, of memory and of the latch, operation by operation. -/

namespace Sys2Proof.Machine

/-! ### Checksums -/

theorem canonical_one : Canonical 1 := by decide

/-- Two halves below BASE make a canonical checksum (R210). -/
theorem canonical_packHalves {lo hi : Nat} (hlo : lo < adlerBase) (hhi : hi < adlerBase) : Canonical (packHalves lo hi) := by
  unfold adlerBase at hlo hhi
  simp only [Canonical, packHalves, toNat_append_add, BitVec.toNat_ofNat]
  omega

/-- The loop of `AdlerUpdate` keeps both halves below BASE (R211). -/
theorem adlerFold_lt {lo hi : Nat} (bs : List Byte) (hlo : lo < adlerBase) (hhi : hi < adlerBase) :
    (adlerFold lo hi bs).1 < adlerBase ∧ (adlerFold lo hi bs).2 < adlerBase := by
  induction bs generalizing lo hi with
  | nil => exact ⟨hlo, hhi⟩
  | cons b rest ih => exact ih (Nat.mod_lt _ (by decide)) (Nat.mod_lt _ (by decide))

/-- `AdlerUpdate` of a canonical checksum is canonical, on the empty string too (R210, R211). -/
theorem canonical_adlerUpdate {c : Word} (bs : List Byte) (h : Canonical c) : Canonical (adlerUpdate c bs) := by
  have hlo : loHalf c < adlerBase := by
    simp only [loHalf, BitVec.extractLsb'_toNat, Nat.shiftRight_zero]; exact h.1
  have hhi : hiHalf c < adlerBase := by
    simp only [hiHalf, BitVec.extractLsb'_toNat, Nat.shiftRight_eq_div_pow]
    exact Nat.lt_of_le_of_lt (Nat.mod_le _ _) h.2
  obtain ⟨h1, h2⟩ := adlerFold_lt bs hlo hhi
  exact canonical_packHalves h1 h2

/-! ### Registers and memory -/

/-- Bits [31:24] of a recorded ERRINFO are 0 (R35). -/
theorem errInfo_top (k : ErrKind) (w : Word) : (errInfo k w).toNat < 16777216 := by
  have h1 := (errCode k).isLt
  have h2 := (errDetail k).isLt
  rw [errInfo_eq, BitVec.toNat_ofNat]
  omega

/-- A host write of an RW register assigns no register but those (R242). -/
theorem writeOperand_eq (r : Regs) (off : Nat) (v : Word) :
    let q := writeOperand r off v
    q = { r with
      src := q.src, srcEnd := q.srcEnd, dst := q.dst, len := q.len, tag := q.tag, body := q.body, blen := q.blen,
      width := q.width, height := q.height, npieces := q.npieces, pieceH := q.pieceH, opa := q.opa, opb := q.opb,
      oplen := q.oplen } := by
  dsimp only
  unfold writeOperand
  split <;> rfl

/-- An illegal word in flight has no buffers (log 6). -/
theorem buffers_of_illegal {s : State} {l : Latch} {d : DecodeError} (hl : s.latch = some l) (hd : decode l.word = .error d) :
    s.buffers = ⟨[], Range.empty⟩ := by
  unfold State.buffers; rw [hl]; simp only [hd]

/-- The output range of the command in flight ends in the DMA space. -/
theorem State.buffers_bound (s : State) : s.buffers.output.base + s.buffers.output.len ≤ dmaSize := by
  cases hl : s.latch with
  | none => rw [buffers_of_idle hl]; decide
  | some l =>
    cases hd : decode l.word with
    | error d => rw [buffers_of_illegal hl hd]; decide
    | ok i => rw [buffers_of_decode hl hd]; exact reportOf_target_bound i s.view

/-- A buffer in the DMA space takes its bytes and leaves memory canonical. -/
theorem Memory.wf_agentStore {m : Memory} {a : Nat} {bs : List Byte} (hm : Memory.wf m = true)
    (h : inDmaSpace a bs.length = true) : Memory.wf (Memory.store m a bs) = true := by
  simp only [inDmaSpace, Bool.or_eq_true, beq_iff_eq, decide_eq_true_eq] at h
  rcases h with h | h
  · rw [List.length_eq_zero_iff.1 h]; exact hm
  · exact Memory.wf_store m bs hm h

/-- A snapshot that agrees with the registers holds their ADL (R245). -/
theorem OperandsAgree.adl {snap now : Regs} (h : OperandsAgree snap now) : snap.adl = now.adl := by
  unfold OperandsAgree at h
  rw [h]

/-! ### States that meet the invariant -/

namespace State.Inv

variable {s t : State}

/-- The invariant speaks of the registers, the latch and memory only. -/
theorem congr (h : s.Inv) (hr : t.regs = s.regs) (hl : t.latch = s.latch) (hm : t.mem = s.mem) : t.Inv := by
  cases t
  subst hr hl hm
  exact ⟨h.memory, h.latched, h.adler, h.outcome, h.inFlight, h.noPrior, h.errinfoTop, h.snapshot⟩

/-- With BUSY = 0 the latch is empty. -/
theorem latch_none (h : s.Inv) (hb : s.regs.busy = false) : s.latch = none := by
  have hl := h.latched
  rw [hb] at hl
  exact Option.isSome_eq_false_iff.1 hl.symm |> Option.isNone_iff_eq_none.1

/-- With a command in flight BUSY = 1, DONE = 0 and ERR = 0. -/
theorem of_latch {l : Latch} (h : s.Inv) (hl : s.latch = some l) : s.regs.done = false ∧ s.regs.err = false :=
  h.inFlight (by rw [h.latched, hl]; rfl)

/-- The operands' ADL is canonical. -/
theorem operands_adler (h : s.Inv) : Canonical s.operands.adl := by
  unfold State.operands
  cases hl : s.latch with
  | none => exact h.adler
  | some l => rw [(h.snapshot l hl).2.adl]; exact h.adler

/-- With no command in flight the invariant says nothing of the snapshot. -/
theorem of_idle (hl : t.latch = none) (hb : t.regs.busy = false) (hmem : Memory.wf t.mem = true) (hadl : Canonical t.regs.adl)
    (hout : t.regs.done = false ∨ t.regs.err = false) (hacc : t.regs.accValid = false → t.regs.acc = 0)
    (htop : t.regs.errinfo.toNat < 16777216) : t.Inv where
  memory := hmem
  latched := by rw [hb, hl]; rfl
  adler := hadl
  outcome := hout
  inFlight := fun h => by rw [hb] at h; cases h
  noPrior := hacc
  errinfoTop := htop
  snapshot := fun l h => by rw [hl] at h; cases h

/-- Taking an error keeps the invariant when DONE = 0 before. -/
theorem takeError (h : s.Inv) (hdone : s.regs.done = false) (e : Err) {o : Range} (ho : o.base + o.len ≤ dmaSize) :
    (s.takeError e o).Inv := by
  refine of_idle rfl rfl (State.wf_spoil s o h.memory ho) ?_ ?_ ?_ ?_ <;> rw [State.takeError_regs]
  · exact h.adler
  · exact .inl hdone
  · exact h.noPrior
  · exact errInfo_top e.kind s.word

/-- Completing a command keeps the invariant: an error as above, a commit because of what its frame lets ADL and ACC hold. -/
theorem conclude (h : s.Inv) (hdone : s.regs.done = false) (herr : s.regs.err = false) (i : Instr) :
    (s.conclude (reportOf i s.view)).Inv := by
  cases hr : (reportOf i s.view).result with
  | error e =>
    rw [conclude_error s _ hr]
    exact h.takeError hdone e (reportOf_bound i s.view)
  | ok c =>
    have W := conclude_frame hr
    obtain ⟨herr', htop', -, -⟩ := W.errors
    have hbusy : (s.conclude (reportOf i s.view)).regs.busy = false := by rw [conclude_regs s _ hr]; rfl
    have hmem := conclude_wf s _ (reportOf_within i s.view).1 h.memory (reportOf_bound i s.view)
    refine of_idle (conclude_latch _ _) hbusy hmem ?_ (.inr (herr'.trans herr)) (fun hv => ?_) (htop' ▸ h.errinfoTop)
    · rcases W.adlValue with e | e | ⟨bs, e⟩ <;> rw [e]
      · exact h.adler
      · exact canonical_one
      · exact canonical_adlerUpdate bs h.operands_adler
    · rcases W.accValue with ⟨hacc, hvalid⟩ | hvalid | hacc
      · rw [hacc]; exact h.noPrior (hvalid ▸ hv)
      · rw [hv] at hvalid; cases hvalid
      · exact hacc

/-- The completion step (R246). -/
theorem complete (h : s.Inv) (hs : Machine.complete s = .next t) : t.Inv := by
  cases hl : s.latch with
  | none =>
    rw [complete_of_idle hl, Host.Outcome.next.injEq] at hs
    exact hs ▸ h
  | some l =>
    obtain ⟨hdone, herr⟩ := h.of_latch hl
    cases hd : decode l.word with
    | error d =>
      rw [complete_of_illegal hl hd, Host.Outcome.next.injEq] at hs
      exact hs ▸ h.takeError hdone _ (by decide)
    | ok i =>
      rw [complete_of_decode hl hd, exec_eq, Host.Outcome.next.injEq] at hs
      exact hs ▸ h.conclude hdone herr i

/-- A reset from either source (R300 to R302). -/
theorem resetBlock (h : s.Inv) : (s.resetBlock s.buffers.output).Inv := by
  refine of_idle rfl rfl (State.wf_spoil s _ h.memory s.buffers_bound) ?_ ?_ ?_ ?_ <;> rw [State.resetBlock_regs]
  · exact canonical_one
  · exact .inl rfl
  · exact fun _ => rfl
  · decide

/-- A host write to CTRL (R32): the enable bits are no part of the invariant, and a command in flight keeps its own. -/
theorem writeCtrl (h : s.Inv) (v : Word) : (s.writeCtrl v).Inv := by
  cases hv : v.getLsbD 31 with
  | true => rw [writeCtrl_resets hv]; exact h.resetBlock
  | false =>
    rw [writeCtrl_enables hv]
    exact ⟨h.memory, h.latched, h.adler, h.outcome, h.inFlight, h.noPrior, h.errinfoTop, h.snapshot⟩

/-- A host write to STATUS (R33): it only clears DONE and ERR. -/
theorem clearStatus (h : s.Inv) (v : Word) : ({ s with regs := s.regs.clearStatus v } : State).Inv where
  memory := h.memory
  latched := h.latched
  adler := h.adler
  outcome := by rcases h.outcome with e | e <;> simp [e]
  inFlight := fun hb => by obtain ⟨e, e'⟩ := h.inFlight hb; simp [e, e']
  noPrior := h.noPrior
  errinfoTop := h.errinfoTop
  snapshot := h.snapshot

/-- An accepted command (R243): the snapshot is of the registers as they stood. -/
theorem accept (h : s.Inv) (herr : s.regs.err = false) (w : Word) : (s.accept w).Inv where
  memory := h.memory
  latched := rfl
  adler := h.adler
  outcome := .inl rfl
  inFlight := fun _ => ⟨rfl, herr⟩
  noPrior := h.noPrior
  errinfoTop := h.errinfoTop
  snapshot := fun l hl => by cases hl; exact ⟨rfl, rfl⟩

/-- A host write to CMD (R34): issued with BUSY = 0 and ERR = 0, otherwise only CMDOVR is set. -/
theorem writeCmd (h : s.Inv) (v : Word) : (s.writeCmd v).Inv := by
  by_cases hd : s.regs.busy = true ∨ s.regs.err = true
  · rw [writeCmd_discards hd]
    exact ⟨h.memory, h.latched, h.adler, h.outcome, h.inFlight, h.noPrior, h.errinfoTop, h.snapshot⟩
  · obtain ⟨hb, herr⟩ := not_or.1 hd
    simp only [Bool.not_eq_true] at hb herr
    rw [writeCmd_issues hb herr]
    exact h.accept herr v

/-- A host write of an RW register with BUSY = 0 (R242): the latch is empty, so no snapshot can disagree. -/
theorem writeOperand (h : s.Inv) (hb : s.regs.busy = false) (off : Nat) (v : Word) :
    ({ s with regs := Machine.writeOperand s.regs off v } : State).Inv := by
  rw [writeOperand_eq]
  exact of_idle (h.latch_none hb) hb h.memory h.adler h.outcome h.noPrior h.errinfoTop

/-- A host write of any word offset (R242, R245). -/
theorem writeOffset (h : s.Inv) (off : Nat) (v : Word) : (s.writeOffset off v).Inv := by
  unfold State.writeOffset
  split
  · exact h.writeCtrl v
  · exact h.clearStatus v
  · exact h.writeCmd v
  · split
    · exact h
    · next hb => exact h.writeOperand (by simpa using hb) off v

/-- A host write at any address and width (R85). -/
theorem hostWrite (h : s.Inv) (a : Nat) (w : Width) (v : Word) : (s.hostWrite a w v).Inv := by
  unfold State.hostWrite
  split
  · exact h.writeOffset _ v
  · exact h

/-- A host read changes nothing of the block (R241). -/
theorem hostRead (h : s.Inv) (a : Nat) (w : Width) : (s.hostRead a w).Inv := by
  unfold State.hostRead
  split
  · exact h.congr rfl rfl rfl
  · exact h

/-- Another agent's read of memory (R248). -/
theorem agentRead {g : Agent} {a n : Nat} (h : s.Inv) (hs : Machine.agentRead g a n s = .next t) : t.Inv := by
  unfold Machine.agentRead at hs
  split at hs; · cases hs
  split at hs; · cases hs
  cases g with
  | host => cases hs; exact h.congr rfl rfl rfl
  | codec => cases hs; exact h

/-- Another agent's write of memory (R248). -/
theorem agentWrite {a : Nat} {bs : List Byte} (h : s.Inv) (hs : Machine.agentWrite a bs s = .next t) : t.Inv := by
  unfold Machine.agentWrite at hs
  split at hs; · cases hs
  next hin =>
  split at hs; · cases hs
  cases hs
  exact ⟨Memory.wf_agentStore h.memory (by simpa using hin), h.latched, h.adler, h.outcome, h.inFlight, h.noPrior, h.errinfoTop,
    h.snapshot⟩

/-- Any event of the schedule (R248). -/
theorem happen {e : Event} (h : s.Inv) (hs : Machine.happen e s = .next t) : t.Inv := by
  cases e with
  | regRead a w => cases hs; exact h.hostRead a w
  | regWrite a w v => cases hs; exact h.hostWrite a w v
  | memRead g a n => exact h.agentRead hs
  | memWrite g a bs => exact h.agentWrite hs
  | wait =>
    cases hb : s.regs.busy with
    | true =>
      rw [happen_wait_busy hb] at hs
      exact (h.congr rfl rfl rfl : State.Inv { s with sched := .wait :: s.sched }).complete hs
    | false =>
      simp only [Machine.happen, hb, Bool.false_eq_true, ↓reduceIte, Host.Outcome.next.injEq] at hs
      exact hs ▸ h.hostRead _ _
  | complete => exact h.complete hs
  | resetInput => cases hs; exact h.resetBlock
  | jobEnds ok => cases hs; exact h.congr rfl rfl rfl

end State.Inv

/-- Settles O57: with nothing scheduled the step is a completion, otherwise the next event; a refused configuration has no
step. -/
theorem stepKeepsInvariant : Obligations.StepKeepsInvariant := by
  intro s t h hs
  cases hw : s.cfg.wellFormed with
  | false => rw [step_of_not_wellFormed hw] at hs; cases hs
  | true =>
    cases hsched : s.sched with
    | nil => rw [step_nil hw hsched] at hs; exact h.complete hs
    | cons e rest =>
      rw [step_cons hw hsched] at hs
      exact (h.congr rfl rfl rfl : State.Inv { s with sched := rest }).happen hs

end Sys2Proof.Machine
end

-- ==== Proofs: odd accesses of the window ====
section
/-! A host access of the window that is no aligned 32-bit one (R85). -/

namespace Sys2Proof.Machine

/-- Another width or an offset that is no multiple of 4 makes no aligned 32-bit access (R85). -/
theorem alignedWord_odd {off : Nat} {width : Width} (h : width ≠ .w32 ∨ off % 4 ≠ 0) : alignedWord off width = false := by
  simpa only [alignedWord, Bool.and_eq_false_iff, beq_eq_false_iff_ne] using h

/-- The window's 256 bytes begin at REG_BASE (R30). -/
theorem inWindow_offset (p : Params) {off : Nat} (h : off < 256) : Params.inWindow p (p.regBase + off) = true := by
  simp [Params.inWindow, h]

/-- An odd write is ignored (R85). -/
theorem hostWrite_odd (s : State) {off : Nat} {width : Width} (v : Word) (h : alignedWord off width = false) :
    s.hostWrite (s.cfg.regBase + off) width v = s := by
  unfold State.hostWrite
  rw [Nat.add_sub_cancel_left, h, Bool.and_false]
  rfl

/-- An odd read of the window returns 0 (R85). -/
theorem hostRead_odd (s : State) {off : Nat} {width : Width} (ho : off < 256) (h : alignedWord off width = false) :
    s.hostRead (s.cfg.regBase + off) width = { s with reply := .word 0 } := by
  unfold State.hostRead windowAnswer
  rw [if_pos (inWindow_offset s.cfg ho), Nat.add_sub_cancel_left, h]
  rfl

/-- Settles O12: neither a write nor a read passes the alignment test of the window. -/
theorem oddAccessesDoNothing : Obligations.OddAccessesDoNothing := by
  intro s off width v rest hw ho hodd
  have hal := alignedWord_odd hodd
  constructor <;> intro hs <;> rw [step_cons hw hs]
  · exact congrArg Host.Outcome.next (hostWrite_odd { s with sched := rest } v hal)
  · exact congrArg Host.Outcome.next (hostRead_odd { s with sched := rest } ho hal)

end Sys2Proof.Machine
end

-- ==== Proofs: other agents and the command in flight ====
section
/-! What a memory access of an agent other than the block does while a command is in flight (R100, R248). -/

namespace Sys2Proof.Machine

variable {s : State} {a n : Nat} {bs : List Byte}

theorem meets_true_iff (r q : Range) : r.meets q = true ↔ ¬ Apart r.base r.len q.base q.len := by
  rw [← meets_false_iff, Bool.not_eq_false]

theorem inDmaSpace_of_fits (h : a + n ≤ dmaSize) : ¬ inDmaSpace a n = false := by
  simp [inDmaSpace, h]

/-- A read that touches the output range is a race (R100). -/
theorem agentRead_race (g : Agent) (ha : a + n ≤ dmaSize)
    (h : ¬ Apart s.buffers.output.base s.buffers.output.len a n) : agentRead g a n s = .fault .hostRace := by
  unfold agentRead
  rw [if_neg (inDmaSpace_of_fits ha), if_pos ((meets_true_iff _ _).2 h)]

/-- A write apart from every buffer stores its bytes (R248). -/
theorem agentWrite_apart (ha : a + bs.length ≤ dmaSize)
    (ho : Apart s.buffers.output.base s.buffers.output.len a bs.length)
    (hi : ∀ r ∈ s.buffers.input, Apart r.base r.len a bs.length) :
    agentWrite a bs s = .next { s with mem := Memory.store s.mem a bs } := by
  have hmeets : ¬ (s.buffers.output.meets ⟨a, bs.length⟩ || s.buffers.input.any (·.meets ⟨a, bs.length⟩)) = true := by
    simpa only [Bool.not_eq_true, Bool.or_eq_false_iff, List.any_eq_false, meets_false_iff] using ⟨ho, hi⟩
  unfold agentWrite
  rw [if_neg (inDmaSpace_of_fits ha), if_neg hmeets]

/-- A write that touches the output range or an input range is a race (R100). -/
theorem agentWrite_race (ha : a + bs.length ≤ dmaSize)
    (h : ¬ Apart s.buffers.output.base s.buffers.output.len a bs.length ∨
      ∃ r ∈ s.buffers.input, ¬ Apart r.base r.len a bs.length) :
    agentWrite a bs s = .fault .hostRace := by
  have hmeets : (s.buffers.output.meets ⟨a, bs.length⟩ || s.buffers.input.any (·.meets ⟨a, bs.length⟩)) = true := by
    simpa only [Bool.or_eq_true, List.any_eq_true, meets_true_iff] using h
  unfold agentWrite
  rw [if_neg (inDmaSpace_of_fits ha), if_pos hmeets]

/-- The buffers of a CHUNK_PUT in flight that passes its range checks: LEN bytes at SRC and the whole chunk at DST (R138). -/
theorem buffers_of_chunkPut {l : Latch} (hl : s.latch = some l) (hd : decode l.word = .ok .chunkPut)
    (hsrc : Fits l.regs.src l.regs.len.toNat) (hdst : Fits l.regs.dst (12 + l.regs.len.toNat)) :
    s.buffers = ⟨[⟨l.regs.src.toNat, l.regs.len.toNat⟩], ⟨l.regs.dst.toNat, 12 + l.regs.len.toNat⟩⟩ := by
  have hx : s.view.x = l.regs := by simp only [State.view, State.operands, hl]
  obtain ⟨hin, hout⟩ := reportChunkPut_ranges s.view (by rwa [hx]) (by rwa [hx])
  rw [buffers_of_decode hl hd, reportOf, hin, hout, hx]

/-- Settles O59: the buffers of the command are its two ranges, and the race test of an access is that it is not apart from
them. -/
theorem hostRaceFaults : Obligations.HostRaceFaults := by
  intro s l g a bs rest x n hw hl hd hsrc hdst _ ha
  have hbuf : ({ s with sched := rest } : State).buffers = ⟨[⟨x.src.toNat, n⟩], ⟨x.dst.toNat, 12 + n⟩⟩ :=
    buffers_of_chunkPut hl hd hsrc hdst
  refine ⟨fun hs => ⟨fun ⟨hin, hout⟩ => ?_, fun htouch => ?_⟩, fun hs htouch => ?_⟩ <;> rw [step_cons hw hs]
  · exact agentWrite_apart ha (by rwa [hbuf]) (by simpa only [hbuf, List.forall_mem_singleton] using hin)
  · refine agentWrite_race ha ?_
    simp only [hbuf, List.mem_singleton, exists_eq_left]
    exact (not_and_or.1 htouch).symm
  · exact agentRead_race g ha (by rwa [hbuf])

end Sys2Proof.Machine
end

-- ==== Proofs: encoding ====
section
/-! The decoder and the encoder against the opcode map (rules R110 to R121 of 30_encoding.md). A word is its OPC, the flags its
OPC permits and the bits its OPC does not permit. An OPC of the map gives the command whose word is the first two parts
(`encode_of_instrOf`), and such a word is legal when the third part is 0 (`decode_eq_ok_iff`). -/

namespace Sys2Proof

variable {w : Word} {n k : Nat} {i : Instr}

/-! ### The decoder, case by case -/

/-- The OPCs of the map's rows (R114). -/
def opcodes : List Nat := opRows.map fun r => (opcOf r.word).toNat

/-- Exactly the OPCs of the map select a command. -/
theorem exists_instrOf_iff : (∃ i, instrOf n w = some i) ↔ n ∈ opcodes := by
  constructor
  · rintro ⟨i, h⟩
    unfold instrOf at h
    split at h
    case h_23 => cases h
    all_goals decide
  · have hall : (opcodes.all fun m => (instrOf m w).isSome) = true := rfl
    exact fun h => Option.isSome_iff_exists.1 (List.all_eq_true.1 hall n h)

/-- A word decodes to the command of its OPC when every bit its OPC does not permit is 0 (R115). -/
theorem decode_eq_ok_iff :
    decode w = .ok i ↔ instrOf (opcOf w).toNat w = some i ∧ w &&& ~~~freeBits (opcOf w).toNat = 0 := by
  unfold decode
  cases instrOf (opcOf w).toNat w with
  | none => simp
  | some j =>
    by_cases hf : w &&& ~~~freeBits (opcOf w).toNat = 0
    · simp only [if_pos hf, and_iff_left hf, Except.ok.injEq, Option.some.injEq]
    · simp only [hf, if_false, and_false, reduceCtorEq]

/-- A word decodes when its OPC is one of the map and every bit that OPC does not permit is 0. -/
theorem exists_decode_iff :
    (∃ i, decode w = .ok i) ↔ (opcOf w).toNat ∈ opcodes ∧ w &&& ~~~freeBits (opcOf w).toNat = 0 := by
  simp only [decode_eq_ok_iff, exists_and_right, exists_instrOf_iff]

/-- An OPC outside the map is BAD_OPC, whatever the other bits are (R115). -/
theorem decode_badOpc (h : (opcOf w).toNat ∉ opcodes) : decode w = .error .badOpc := by
  have hi : instrOf (opcOf w).toNat w = none :=
    Option.eq_none_iff_forall_ne_some.2 fun i hi => h (exists_instrOf_iff.1 ⟨i, hi⟩)
  unfold decode
  rw [hi]

/-- An OPC of the map with a set bit it does not permit is BAD_FLAGS (R115). -/
theorem decode_badFlags (h : (opcOf w).toNat ∈ opcodes) (hf : w &&& ~~~freeBits (opcOf w).toNat ≠ 0) :
    decode w = .error .badFlags := by
  obtain ⟨i, hi⟩ := (exists_instrOf_iff (w := w)).2 h
  unfold decode
  simp only [hi, if_neg hf]

/-! ### The parts of a word -/

/-- OPC as a number is the word modulo 256 (R110). -/
theorem opcOf_toNat (w : Word) : (opcOf w).toNat = w.toNat % 256 := by
  simp [opcOf]

/-- Bits 7 to 0 of a word are its OPC (R110). -/
theorem and_byteMask (w : Word) : w &&& 0xFF = (opcOf w).setWidth 32 := by
  apply BitVec.eq_of_toNat_eq
  rw [BitVec.toNat_and, BitVec.toNat_setWidth_of_le (by decide), opcOf_toNat]
  exact Nat.and_two_pow_sub_one_eq_mod w.toNat 8

/-- The flag bit rebuilt from bit `k` of a word is that bit of the word (R112). -/
theorem flagBit_getLsbD (w : Word) (k : Nat) : flagBit (w.getLsbD k) k = w &&& BitVec.twoPow 32 k := by
  rw [BitVec.and_twoPow]; rfl

/-- OPC and two flags of a word put together again are the word masked to those bits. -/
theorem opc_or_flagBits (hn : w &&& 0xFF = BitVec.ofNat 32 n) (j k : Nat) :
    BitVec.ofNat 32 n ||| flagBit (w.getLsbD j) j ||| flagBit (w.getLsbD k) k =
      w &&& (0xFF ||| BitVec.twoPow 32 j ||| BitVec.twoPow 32 k) := by
  rw [flagBit_getLsbD, flagBit_getLsbD, ← hn, BitVec.and_or_distrib_left, BitVec.and_or_distrib_left]

/-- The command an OPC selects has the word's OPC and permitted flags as its word (R114, R119). The cases 13, 14 and 22 are the
rows with flags: MERGE_PIECE, SPLIT_PIECE and TRL_CHK. -/
theorem encode_of_instrOf (hn : w &&& 0xFF = BitVec.ofNat 32 n) (h : instrOf n w = some i) : encode i = w &&& freeBits n := by
  unfold instrOf at h
  split at h <;> cases h
  case h_13 | h_14 => exact opc_or_flagBits hn 8 9
  case h_22 => exact opc_or_flagBits hn 10 11
  all_goals exact hn.symm

/-- A word has no bit outside the mask `f` when each of its set bits is one of `f`. -/
theorem and_not_eq_zero_iff {f : Word} : w &&& ~~~f = 0 ↔ ∀ k < 32, w.getLsbD k = true → f.getLsbD k = true := by
  simp +contextual [BitVec.eq_of_getLsbD_eq_iff]

/-- With no bit outside the mask `f`, masking to `f` changes nothing. -/
theorem and_eq_self_of_and_not_eq_zero {f : Word} (h : w &&& ~~~f = 0) : w &&& f = w := by
  calc w &&& f = w &&& f ||| w &&& ~~~f := by rw [h]; exact BitVec.or_zero.symm
    _ = w := by rw [← BitVec.and_or_distrib_left, BitVec.or_not_self, BitVec.and_allOnes]

/-! ### Round trips -/

/-- Decoding the word of a command gives the command back (R121). -/
theorem decode_encode (i : Instr) : decode (encode i) = .ok i := by
  cases i with
  | mergePiece f l => revert f l; decide
  | splitPiece f l => revert f l; decide
  | trlChk s e => revert s e; decide
  | _ => rfl

/-- A word that decodes is the word of its command (R121). -/
theorem encode_of_decode (h : decode w = .ok i) : encode i = w := by
  obtain ⟨hi, hf⟩ := decode_eq_ok_iff.1 h
  have hopc : w &&& 0xFF = BitVec.ofNat 32 (opcOf w).toNat := (and_byteMask w).trans (BitVec.ofNat_toNat _ _).symm
  rw [encode_of_instrOf hopc hi, and_eq_self_of_and_not_eq_zero hf]

/-- Settles O1: constructor by constructor, the rows with flags for each value of their flags. -/
theorem decodeOfEncode : Obligations.DecodeOfEncode := decode_encode

/-- Settles O2: the command's word has the OPC and permitted flags of the word, and a word that decodes has no other bit. -/
theorem encodeOfDecode : Obligations.EncodeOfDecode := fun _ _ => encode_of_decode

/-! ### The opcode map -/

/-- OPC is permitted in every word. -/
theorem byteMask_and_not_freeBits (n : Nat) : (0xFF : Word) &&& ~~~freeBits n = 0 := by
  unfold freeBits; split <;> decide

/-- A mask made of two disjoint parts compares each part. -/
theorem and_or_eq_iff {a b v : Word} (hab : a &&& b = 0) (hv : v &&& a = v) :
    w &&& (a ||| b) = v ↔ w &&& a = v ∧ w &&& b = 0 := by
  have hvb : v &&& b = 0 := by rw [← hv, BitVec.and_assoc, hab]; exact BitVec.and_zero
  constructor
  · intro h
    have ha : (a ||| b) &&& a = a := by
      rw [BitVec.and_or_distrib_right, BitVec.and_comm b, hab, BitVec.and_self]; exact BitVec.or_zero
    have hb : (a ||| b) &&& b = b := by
      rw [BitVec.and_or_distrib_right, hab, BitVec.and_self]; exact BitVec.zero_or
    constructor
    · rw [← ha, ← BitVec.and_assoc, h, hv]
    · rw [← hb, ← BitVec.and_assoc, h, hvb]
  · rintro ⟨ha, hb⟩
    rw [BitVec.and_or_distrib_left, ha, hb]; exact BitVec.or_zero

/-- Each row of the map has an OPC alone as its word, and as its mask the OPC byte and the bits that OPC does not permit. -/
theorem opRow_word_mask : ∀ r ∈ opRows, r.word &&& 0xFF = r.word ∧ r.mask = 0xFF ||| ~~~freeBits (opcOf r.word).toNat := by
  decide

/-- Two words with the same bits 7 to 0 have the same OPC. -/
theorem and_byteMask_eq_iff {v : Word} : w &&& 0xFF = v &&& 0xFF ↔ opcOf w = opcOf v := by
  rw [and_byteMask, and_byteMask]
  exact ⟨fun h => by simpa using congrArg (BitVec.setWidth 8) h, congrArg _⟩

/-- A row selects the words with its OPC in which every bit that OPC does not permit is 0 (R115). -/
theorem opRow_selects_iff {r : OpRow} (hr : r ∈ opRows) :
    w &&& r.mask = r.word ↔ opcOf w = opcOf r.word ∧ w &&& ~~~freeBits (opcOf w).toNat = 0 := by
  obtain ⟨hword, hmask⟩ := opRow_word_mask r hr
  have hopc : w &&& 0xFF = r.word ↔ opcOf w = opcOf r.word := by rw [← and_byteMask_eq_iff, hword]
  rw [hmask, and_or_eq_iff (byteMask_and_not_freeBits _) hword, hopc]
  exact and_congr_right fun h => by rw [h]

/-- Settles O3: a row selects a word by its OPC and the bits that OPC does not permit, as the decoder does, and the rows' OPCs
are distinct. -/
theorem tableSelectsLegalWords : Obligations.TableSelectsLegalWords := by
  intro w
  constructor
  · rw [exists_decode_iff]
    constructor
    · rintro ⟨hopc, hf⟩
      obtain ⟨r, hr, hrw⟩ := List.mem_map.1 hopc
      exact ⟨r, hr, (opRow_selects_iff hr).2 ⟨BitVec.eq_of_toNat_eq hrw.symm, hf⟩⟩
    · rintro ⟨r, hr, hsel⟩
      obtain ⟨hopc, hf⟩ := (opRow_selects_iff hr).1 hsel
      exact ⟨List.mem_map.2 ⟨r, hr, by rw [hopc]⟩, hf⟩
  · intro r hr q hq hwr hwq
    have hopc : opcOf r.word = opcOf q.word :=
      ((opRow_selects_iff hr).1 hwr).1.symm.trans ((opRow_selects_iff hq).1 hwq).1
    have hnodup : opcodes.Nodup := by decide
    exact List.inj_on_of_nodup_map hnodup hr hq (congrArg BitVec.toNat hopc)

/-! ### The flags -/

/-- The flag bits an OPC permits (R114): F and L for the two piece commands, S and E for TRL_CHK. -/
def PermitsFlag (n k : Nat) : Prop := ((n = 0x22 ∨ n = 0x23) ∧ (k = 8 ∨ k = 9)) ∨ (n = 0x36 ∧ (k = 10 ∨ k = 11))

/-- From bit 8 on, the bits an OPC leaves free are the flags it permits. -/
theorem freeBits_getLsbD_iff (hlo : 8 ≤ k) (hhi : k < 32) : (freeBits n).getLsbD k = true ↔ PermitsFlag n k := by
  unfold freeBits PermitsFlag
  split
  case h_1 | h_2 | h_3 => revert k; decide
  case h_4 h22 h23 h36 =>
    have hnone : ∀ k < 32, 8 ≤ k → (0xFF : Word).getLsbD k = false := by decide
    rw [hnone k hhi hlo]
    refine iff_of_false Bool.false_ne_true ?_
    rintro (⟨hn | hn, -⟩ | ⟨hn, -⟩)
    · exact h22 hn
    · exact h23 hn
    · exact h36 hn

/-- A word has only bits its OPC leaves free when each set bit from 8 on is a flag that OPC permits. -/
theorem and_not_freeBits_eq_zero_iff :
    w &&& ~~~freeBits n = 0 ↔ ∀ k, 8 ≤ k → k < 32 → w.getLsbD k = true → PermitsFlag n k := by
  rw [and_not_eq_zero_iff]
  constructor
  · exact fun h k hlo hhi hk => (freeBits_getLsbD_iff hlo hhi).1 (h k hhi hk)
  · intro h k hhi hk
    rcases Nat.lt_or_ge k 8 with hlo | hlo
    · have hbyte : ∀ k < 8, (0xFF : Word).getLsbD k = true := by decide
      exact and_not_eq_zero_iff.1 (byteMask_and_not_freeBits n) k hhi (hbyte k hlo)
    · exact (freeBits_getLsbD_iff hlo hhi).2 (h k hlo hhi hk)

/-- Settles O4: the decoder's three cases, with the opcodes of the map and the flags each permits. -/
theorem decodeFollowsTheMap : Obligations.DecodeFollowsTheMap := by
  intro w opc allocated permitted
  have hopc : (opcOf w).toNat = opc := opcOf_toNat w
  have halloc : (opcOf w).toNat ∈ opcodes ↔ allocated := by rw [hopc]; rfl
  have hflags : w &&& ~~~freeBits (opcOf w).toNat = 0 ↔ ∀ k, 8 ≤ k → k < 32 → w.getLsbD k = true → permitted k := by
    rw [hopc]; exact and_not_freeBits_eq_zero_iff
  refine ⟨fun h => decode_badOpc (mt halloc.1 h), fun h hbad => ?_, fun h hgood => ?_⟩
  · obtain ⟨k, hlo, hhi, hk, hforbid⟩ := hbad
    exact decode_badFlags (halloc.2 h) fun hf => hforbid (hflags.1 hf k hlo hhi hk)
  · obtain ⟨i, hi⟩ := exists_decode_iff.2 ⟨halloc.2 h, hflags.2 hgood⟩
    exact ⟨i, hi, encode_of_decode hi⟩

/-- Settles O5: the legal words are the words of their commands, and the three illegal ones are computed. -/
theorem sampleWordsDecode : Obligations.SampleWordsDecode :=
  ⟨decode_encode .nop, decode_encode .ihdrGet, decode_encode .hdrScan, decode_encode .scanFrame, decode_encode .scanUnframe,
    decode_encode (.mergePiece true true), decode_encode (.splitPiece true false), decode_encode (.splitPiece false true),
    decode_encode .cmbFold, decode_encode (.trlChk true false), decode_encode (.trlChk false true),
    by decide, by decide, by decide⟩

end Sys2Proof
end

-- ==== Proofs: the chunk framer's writing commands ====
section
/-! The four commands of the chunk framer that write memory: MAGIC_PUT, IHDR_PUT and DESC_PUT, which read nothing and differ in
their checks and bytes only (`exec_puts`), and CHUNK_PUT. -/

namespace Sys2Proof.Machine

variable {i : Instr} {s : State}

/-! ### Pointers -/

/-- A register's own address, as a word. -/
theorem ofNat_toNat_self (a : Word) : BitVec.ofNat 32 a.toNat = a := by rw [BitVec.ofNat_toNat, BitVec.setWidth_eq]

/-- An address past a register's by `n` bytes, as a word, is a sum of words (R10). -/
theorem ofNat_toNat_add (a : Word) (n : Nat) : BitVec.ofNat 32 (a.toNat + n) = a + BitVec.ofNat 32 n := by
  rw [BitVec.ofNat_add, ofNat_toNat_self]

theorem advance_eq_add (a : Word) (n : Nat) : advance a n = a + BitVec.ofNat 32 n := ofNat_toNat_add a n

/-! ### Commands that only write -/

/-- A command that reads nothing and writes `n` bytes at DST, advancing it: WRAP, then BusError(WRITE), then its bytes and
registers (R83, R88). `g` is what it assigns, given the new DST. -/
theorem exec_puts {n : Nat} {bs : List Byte} {g : Word → Regs → Regs} (hn : bs.length = n)
    (h : reportOf i s.view = if wraps s.operands.dst n then .refuse (wrapErr s.operands.dst)
      else .writes s.cfg [] s.operands.dst.toNat bs (g (advance s.operands.dst n))) :
    (¬ Fits s.operands.dst n → Fails i s 8 1 s.operands.dst 0) ∧
    (∀ k, Fits s.operands.dst n → RefusedAt s.cfg .write s.operands.dst.toNat n k →
      FailsWriting i s 9 2 (BitVec.ofNat 32 (s.operands.dst.toNat + k)) 0 s.operands.dst.toNat n) ∧
    (Fits s.operands.dst n → Completes s.cfg .write s.operands.dst.toNat n →
      Finishes i s (Memory.store s.mem s.operands.dst.toNat bs) (g (s.operands.dst + BitVec.ofNat 32 n))) := by
  refine ⟨fun hd => ?_, fun k hd hk => ?_, fun hd hw => ?_⟩
  · rw [(wraps_true_iff _ _).2 hd] at h
    exact exec_refuses h
  · rw [(wraps_false_iff _ _).2 hd] at h
    exact exec_writes_refused h hn hk
  · rw [(wraps_false_iff _ _).2 hd, advance_eq_add] at h
    exact exec_writes_apart h hn hw fun q hq => absurd hq List.not_mem_nil

/-- Settles O23: MAGIC_PUT writes the signature's 8 bytes. -/
theorem magicPutRule : Obligations.MagicPutRule := by
  refine ⟨decode_encode .magicPut, fun s => ?_⟩
  obtain ⟨hwrap, hrefused, hdone⟩ :=
    exec_puts (i := .magicPut) (s := s) (bs := magicBytes) (g := fun d r => { r with dst := d }) rfl rfl
  exact ⟨hwrap, hdone, hrefused⟩

/-- The bytes of a chunk whose body has `n` bytes (R132). -/
theorem chunkBytes_of_length {t : Word} {b : List Byte} {n : Nat} (h : b.length = n) :
    chunkBytes t b = be32 (BitVec.ofNat 32 n) ++ be32 t ++ b ++ be32 (crc32 (be32 t ++ b)) := by
  rw [chunkBytes, h]; rfl

/-- The header chunk of the fixed profile, its length and tag written out (R140). -/
theorem chunkBytes_header (w h : Word) :
    chunkBytes tagHdr (headerBody w h) =
      [0x00, 0x00, 0x00, 0x0D, 0x49, 0x48, 0x44, 0x52] ++ (be32 w ++ be32 h ++ [0x08, 0x02, 0x00, 0x00, 0x00]) ++
        be32 (crc32 ([0x49, 0x48, 0x44, 0x52] ++ (be32 w ++ be32 h ++ [0x08, 0x02, 0x00, 0x00, 0x00]))) := by
  have htag : be32 tagHdr = [0x49, 0x48, 0x44, 0x52] := by decide
  have hlen : be32 (BitVec.ofNat 32 13) = [0x00, 0x00, 0x00, 0x0D] := by decide
  rw [chunkBytes_of_length (n := 13) rfl, htag, hlen]
  rfl

/-- Settles O28: with both dimensions nonzero IHDR_PUT writes the 25 bytes of the header chunk. -/
theorem ihdrPutRule : Obligations.IhdrPutRule := by
  refine ⟨decode_encode .ihdrPut, fun s => ⟨fun hzero => exec_refuses (i := .ihdrPut) (if_pos hzero), fun hw hh => ?_⟩⟩
  have hputs := exec_puts (i := .ihdrPut) (s := s) (n := 25)
    (bs := chunkBytes tagHdr (headerBody s.operands.width s.operands.height))
    (g := fun d r => { r with crc := chunkCrc tagHdr (headerBody s.operands.width s.operands.height), dst := d })
    (chunkBytes_length _ _) (if_neg (not_or.2 ⟨hw, hh⟩))
  rwa [chunkBytes_header] at hputs

/-- The descriptor chunk, its length written out (R143). -/
theorem chunkBytes_descriptor (t ph : Word) :
    chunkBytes t (be32 ph ++ [1]) =
      [0x00, 0x00, 0x00, 0x05] ++ be32 t ++ (be32 ph ++ [0x01]) ++ be32 (crc32 (be32 t ++ (be32 ph ++ [0x01]))) := by
  have hlen : be32 (BitVec.ofNat 32 5) = [0x00, 0x00, 0x00, 0x05] := by decide
  rw [chunkBytes_of_length (n := 5) rfl, hlen]

/-- Settles O31: with HEIGHT a multiple of a nonzero PIECE_H DESC_PUT writes the 17 bytes of the descriptor chunk. -/
theorem descPutRule : Obligations.DescPutRule := by
  refine ⟨decode_encode .descPut, fun s => ⟨fun hzero => exec_refuses (i := .descPut) (if_pos hzero), fun hp hrem => ?_,
    fun hp hrem => ?_⟩⟩
  · exact exec_refuses (i := .descPut) ((if_neg hp).trans (if_pos hrem))
  · have hputs := exec_puts (i := .descPut) (s := s) (n := 17) (bs := chunkBytes s.cfg.tagDesc (be32 s.operands.pieceH ++ [1]))
      (g := fun d r => { r with crc := chunkCrc s.cfg.tagDesc (be32 s.operands.pieceH ++ [1]), dst := d })
      (chunkBytes_length _ _) ((if_neg hp).trans (if_neg (not_not.2 hrem)))
    rwa [chunkBytes_descriptor] at hputs

/-! ### CHUNK_PUT -/

/-- An error before the first write is one that leaves the output range alone. -/
theorem failsWriting_of_fails {code detail : Nat} {a d : Word} (h : Fails i s code detail a d) (base n : Nat) :
    FailsWriting i s code detail a d base n :=
  ⟨_, h, rfl, rfl, fun _ _ => rfl, trivial⟩

section ChunkPut

variable (v : View)

/-- The source would cross 2^32 (R138). -/
theorem reportChunkPut_srcWraps (hs : ¬ Fits v.x.src v.x.len.toNat) : reportChunkPut v = .refuse (wrapErr v.x.src) :=
  if_pos ((wraps_true_iff _ _).2 hs)

/-- The destination would cross 2^32 (R138). -/
theorem reportChunkPut_dstWraps (hs : Fits v.x.src v.x.len.toNat) (hd : ¬ Fits v.x.dst (12 + v.x.len.toNat)) :
    reportChunkPut v = .refuse (wrapErr v.x.dst) := by
  unfold reportChunkPut
  dsimp only
  rw [(wraps_false_iff _ _).2 hs, (wraps_true_iff _ _).2 hd]
  rfl

variable (hs : Fits v.x.src v.x.len.toNat) (hd : Fits v.x.dst (12 + v.x.len.toNat))
include hs hd

/-- The body cannot be read (R138). -/
theorem reportChunkPut_unreadable {k : Nat} (hk : RefusedAt v.cfg .read v.x.src.toNat v.x.len.toNat k) :
    reportChunkPut v = .stops [⟨v.x.src.toNat, v.x.len.toNat⟩] ⟨v.x.dst.toNat, 12 + v.x.len.toNat⟩
      (busErr .read (v.x.src.toNat + k)) := by
  unfold reportChunkPut
  dsimp only
  rw [(wraps_false_iff _ _).2 hs, (wraps_false_iff _ _).2 hd, memRead_refused v hk]
  rfl

/-- CHUNK_PUT goes on to write the chunk of the body it read (R138). -/
theorem reportChunkPut_writes (hr : Completes v.cfg .read v.x.src.toNat v.x.len.toNat) :
    reportChunkPut v =
      let b := Memory.bytes v.mem v.x.src.toNat v.x.len.toNat
      .writes v.cfg [⟨v.x.src.toNat, v.x.len.toNat⟩] v.x.dst.toNat (chunkBytes v.x.tag b)
        (fun r => { r with crc := chunkCrc v.x.tag b, src := v.x.src + v.x.len, dst := v.x.dst + 12 + v.x.len }) := by
  have hsrc : advance v.x.src v.x.len.toNat = v.x.src + v.x.len := by
    rw [advance_eq_add, ofNat_toNat_self]
  have hdst : advance v.x.dst (12 + v.x.len.toNat) = v.x.dst + 12 + v.x.len := by
    rw [advance_eq_add, BitVec.ofNat_add, ofNat_toNat_self, ← BitVec.add_assoc]
    rfl
  unfold reportChunkPut
  dsimp only
  rw [(wraps_false_iff _ _).2 hs, (wraps_false_iff _ _).2 hd, memRead_ok v hr, hsrc, hdst]
  rfl

end ChunkPut

/-- Settles O25: the ways CHUNK_PUT's report can end, in the order of its checks. -/
theorem chunkPutRule : Obligations.ChunkPutRule := by
  refine ⟨decode_encode .chunkPut, fun s => ?_⟩
  intro x n b c f
  refine ⟨fun hs => ?_, fun hs hd => ?_, fun k hs hd hk => ?_, fun k hs hd hr hk => ?_, fun hs hd hr hw => ?_⟩
  · exact exec_refuses (i := .chunkPut) (reportChunkPut_srcWraps s.view hs)
  · exact exec_refuses (i := .chunkPut) (reportChunkPut_dstWraps s.view hs hd)
  · exact failsWriting_of_fails (exec_stops (i := .chunkPut) (reportChunkPut_unreadable s.view hs hd hk)) _ _
  all_goals
    have hreport : reportOf .chunkPut s.view = .writes s.cfg [⟨x.src.toNat, n⟩] x.dst.toNat (chunkBytes x.tag b) f :=
      reportChunkPut_writes s.view hs hd hr
    have hlen : (chunkBytes x.tag b).length = 12 + n := by rw [chunkBytes_length, Memory.bytes_length]
  · exact exec_writes_refused hreport hlen hk
  · refine ⟨exec_writes hreport hlen hw, fun hapart => ?_⟩
    have hstore := exec_writes_apart hreport hlen hw (by simpa only [List.forall_mem_singleton] using hapart)
    rwa [chunkBytes_of_length (Memory.bytes_length _ _ _), ofNat_toNat_self] at hstore

end Sys2Proof.Machine
end

-- ==== Proofs: reading a chunk ====
section
/-! MAGIC_CHK and ChunkRead, their checks one by one (R134, R137), and the two commands that take the chunk at SRC: CHUNK_GET and
DATA_GET. -/

namespace Sys2Proof.Machine

/-! ### MAGIC_CHK -/

section MagicChk

variable (v : View)

/-- The stream ends before the eight bytes (R137). -/
theorem reportMagicChk_trunc (h : v.x.srcEnd.toNat < v.x.src.toNat + 8) :
    reportMagicChk v = .refuse (framingErr .trunc v.x.src 0) :=
  if_pos h

variable (h : v.x.src.toNat + 8 ≤ v.x.srcEnd.toNat)
include h

/-- The eight bytes cannot be read (R137). -/
theorem reportMagicChk_unreadable {k : Nat} (hk : RefusedAt v.cfg .read v.x.src.toNat 8 k) :
    reportMagicChk v = .reads [⟨v.x.src.toNat, 8⟩] (.error (busErr .read (v.x.src.toNat + k))) := by
  unfold reportMagicChk
  dsimp only
  rw [if_neg (by omega), memRead_refused v hk]

/-- All eight bytes are read before they are compared (R137). -/
theorem reportMagicChk_reads (hr : Completes v.cfg .read v.x.src.toNat 8) :
    reportMagicChk v = .reads [⟨v.x.src.toNat, 8⟩]
      (if Memory.bytes v.mem v.x.src.toNat 8 ≠ magicBytes then .error (framingErr .magic v.x.src 0)
      else .ok (fun r => { r with src := v.x.src + 8 })) := by
  unfold reportMagicChk
  dsimp only
  rw [if_neg (by omega), memRead_ok v hr, advance_eq_add]
  rfl

end MagicChk

/-- Settles O24: the four ways MAGIC_CHK's report can end. -/
theorem magicChkRule : Obligations.MagicChkRule := by
  refine ⟨decode_encode .magicChk, fun s => ⟨fun h => ?_, fun k h hk => ?_, fun h hr hne => ?_, fun h hr heq => ?_⟩⟩
  · exact exec_refuses (i := .magicChk) (reportMagicChk_trunc s.view h)
  · exact exec_reads_errs (i := .magicChk) (reportMagicChk_unreadable s.view h hk)
  · exact exec_reads_errs (i := .magicChk) ((reportMagicChk_reads s.view h hr).trans (congrArg _ (if_pos hne)))
  · exact exec_reads (i := .magicChk) ((reportMagicChk_reads s.view h hr).trans (congrArg _ (if_neg (not_not.2 heq))))

/-! ### ChunkRead -/

section ChunkRead

variable (v : View) {p stop k : Nat}

/-- The eight header bytes cannot be read (R134). -/
theorem chunkRead_headerUnreadable (h : p + 8 ≤ stop) (hk : RefusedAt v.cfg .read p 8 k) :
    chunkRead v p stop = .error (busErr .read (p + k)) := by
  unfold chunkRead
  rw [if_neg (by omega), memRead_refused v hk]

/-- The stream ends before the whole chunk (R134). -/
theorem chunkRead_bodyTrunc (h : p + 8 ≤ stop) (hr : Completes v.cfg .read p 8) (hn : stop < p + 12 + chunkLen v.mem p) :
    chunkRead v p stop = .error (framingErr .trunc (BitVec.ofNat 32 p) 0) := by
  unfold chunkRead
  rw [if_neg (by omega), memRead_ok v hr]
  simp only [chunkLen_of_header, if_pos hn]

/-- The body or the CRC field cannot be read (R134). -/
theorem chunkRead_bodyUnreadable (h : p + 12 + chunkLen v.mem p ≤ stop) (hr : Completes v.cfg .read p 8)
    (hk : RefusedAt v.cfg .read (p + 8) (chunkLen v.mem p + 4) k) :
    chunkRead v p stop = .error (busErr .read (p + 8 + k)) := by
  unfold chunkRead
  rw [if_neg (by omega), memRead_ok v hr]
  simp only [chunkLen_of_header, if_neg (Nat.not_lt.2 h), memRead_refused v hk]

/-- The CRC field holds something else than the CRC of tag and body (R134). -/
theorem chunkRead_crcMismatch (h : p + 12 + chunkLen v.mem p ≤ stop) (hr : Completes v.cfg .read p (12 + chunkLen v.mem p))
    (hne : storedCrc v.mem p ≠ crc32 (be32 (chunkTag v.mem p) ++ chunkBody v.mem p)) :
    chunkRead v p stop =
      .error (framingErr .crc (BitVec.ofNat 32 p) (crc32 (be32 (chunkTag v.mem p) ++ chunkBody v.mem p))) :=
  (chunkRead_whole v h hr).trans (if_pos hne.symm)

end ChunkRead

/-- Settles O26: ChunkRead's checks in order; a good chunk is one whose stored CRC is the computed one. -/
theorem chunkReadRule : Obligations.ChunkReadRule := by
  intro v p stop
  refine ⟨chunkRead_trunc v, fun k => chunkRead_headerUnreadable v, chunkRead_bodyTrunc v, fun k => chunkRead_bodyUnreadable v,
    chunkRead_crcMismatch v, fun hgood => ?_⟩
  rw [chunkRead_good v hgood, hgood.2.2]

/-! ### The chunk at an address -/

/-- The chunk that stands at `p`, as ChunkRead answers it (R132, R134). -/
def chunkAt (m : Memory) (p : Nat) : Chunk :=
  ⟨chunkLen m p, chunkTag m p, p + 8, storedCrc m p, p + 12 + chunkLen m p, chunkBody m p⟩

/-- ChunkRead on a good chunk answers the chunk that stands there (R134). -/
theorem chunkRead_eq_chunkAt (v : View) {p stop : Nat} (h : GoodChunk v.cfg v.mem p stop) :
    chunkRead v p stop = .ok (chunkAt v.mem p) := chunkRead_good v h

/-- What a command assigns from the chunk at a register's address: BODY is 8 past that register (R139, R142, R146). -/
theorem setChunk_chunkAt (r : Regs) (m : Memory) (a : Word) :
    r.setChunk (chunkAt m a.toNat) = { r with
      tag := chunkTag m a.toNat, blen := BitVec.ofNat 32 (chunkLen m a.toNat), body := a + 8, crc := storedCrc m a.toNat } := by
  have hbody : BitVec.ofNat 32 (chunkAt m a.toNat).bodyAt = a + 8 := ofNat_toNat_add a 8
  rw [Regs.setChunk, hbody]
  rfl

/-- The address past the chunk at a register's address. -/
theorem chunkAt_next (m : Memory) (a : Word) :
    BitVec.ofNat 32 (chunkAt m a.toNat).next = a + 12 + BitVec.ofNat 32 (chunkLen m a.toNat) := by
  rw [chunkAt, BitVec.ofNat_add, ofNat_toNat_add]
  rfl

/-- What CHUNK_GET and DATA_GET assign where they take the chunk at SRC (R139, R146). -/
theorem takeChunk_eq (r : Regs) (m : Memory) (a : Word) (k : Kind) :
    { r.setChunk (chunkAt m a.toNat) with src := BitVec.ofNat 32 (chunkAt m a.toNat).next, kind := k } =
    { r with
      tag := chunkTag m a.toNat, blen := BitVec.ofNat 32 (chunkLen m a.toNat), body := a + 8, crc := storedCrc m a.toNat,
      src := a + 12 + BitVec.ofNat 32 (chunkLen m a.toNat), kind := k } := by
  rw [setChunk_chunkAt, chunkAt_next]

/-! ### Answers of the reading commands -/

section Answers

variable {i : Instr} {s : State} {rs : List Range}

/-- A reading command that errs, its address and data in the statement's form. -/
theorem exec_reads_fails {e : Err} {a d : Word} (h : reportOf i s.view = .reads rs (.error e)) (ha : e.addr = a)
    (hd : e.data = d) : Fails i s (errCode e.kind).toNat (errDetail e.kind).toNat a d := by
  subst ha hd
  exact exec_reads_errs h

/-- A reading command that succeeds, its assignments in the statement's form: only what they make of the registers counts. -/
theorem exec_reads_finishes {f g : Regs → Regs} (h : reportOf i s.view = .reads rs (.ok f)) (hf : f s.regs = g s.regs) :
    Finishes i s s.mem g := by
  have := exec_reads h
  rwa [Finishes, hf] at this

end Answers

/-! ### CHUNK_GET -/

section ChunkGet

variable (v : View)

/-- ChunkRead's error is CHUNK_GET's (R139). -/
theorem reportChunkGet_of_error {e : Err} (h : chunkRead v v.x.src.toNat v.x.srcEnd.toNat = .error e) :
    reportChunkGet v = .reads (chunkReads v v.x.src.toNat v.x.srcEnd.toNat) (.error e) := by
  rw [reportChunkGet, h]

/-- CHUNK_GET takes a good chunk (R139). -/
theorem reportChunkGet_of_good (h : GoodChunk v.cfg v.mem v.x.src.toNat v.x.srcEnd.toNat) :
    reportChunkGet v = .reads (chunkReads v v.x.src.toNat v.x.srcEnd.toNat) (.ok (fun r =>
      { r.setChunk (chunkAt v.mem v.x.src.toNat) with
        src := BitVec.ofNat 32 (chunkAt v.mem v.x.src.toNat).next,
        kind := classify v.cfg (chunkTag v.mem v.x.src.toNat) })) := by
  rw [reportChunkGet, chunkRead_eq_chunkAt v h]
  rfl

end ChunkGet

/-- Settles O27: CHUNK_GET asks nothing more of the chunk that ChunkRead answers. -/
theorem chunkGetRule : Obligations.ChunkGetRule := by
  refine ⟨decode_encode .chunkGet, fun s => ⟨fun hgood => ?_, fun e he => ?_⟩⟩
  · exact exec_reads_finishes (i := .chunkGet) (reportChunkGet_of_good s.view hgood) (takeChunk_eq _ _ _ _)
  · exact exec_reads_errs (i := .chunkGet) (reportChunkGet_of_error s.view he)

/-! ### DATA_GET -/

section DataGet

variable (v : View)

/-- ChunkRead's error is DATA_GET's (R146). -/
theorem reportDataGet_of_error {e : Err} (h : chunkRead v v.x.src.toNat v.x.srcEnd.toNat = .error e) :
    reportDataGet v = .reads (chunkReads v v.x.src.toNat v.x.srcEnd.toNat) (.error e) := by
  rw [reportDataGet, h]

/-- DATA_GET's checks on a good chunk (R146). -/
theorem reportDataGet_of_good (h : GoodChunk v.cfg v.mem v.x.src.toNat v.x.srcEnd.toNat) :
    let c := chunkAt v.mem v.x.src.toNat
    reportDataGet v = .reads (chunkReads v v.x.src.toNat v.x.srcEnd.toNat)
      (if c.tag = tagData then .ok (fun r => { r.setChunk c with src := BitVec.ofNat 32 c.next, kind := .data })
      else if c.tag = tagEnd then
        if c.len ≠ 0 then .error (framingErr .endlen (BitVec.ofNat 32 v.x.src.toNat) (BitVec.ofNat 32 c.len))
        else .ok (fun r => { r.setChunk c with src := BitVec.ofNat 32 c.next, kind := .terminator })
      else .error (chunkTypeErr .dataBad v.x.src.toNat c.tag)) := by
  rw [reportDataGet, chunkRead_eq_chunkAt v h]

end DataGet

/-- Settles O36: DATA_GET's branches on a good chunk, by its tag and length. -/
theorem dataGetRule : Obligations.DataGetRule := by
  refine ⟨decode_encode .dataGet, fun s => ⟨fun e he => exec_reads_errs (i := .dataGet) (reportDataGet_of_error s.view he),
    fun hgood => ?_⟩⟩
  have hreport := reportDataGet_of_good s.view hgood
  have htook (k : Kind) := takeChunk_eq s.regs s.mem s.operands.src k
  have hend : tagEnd ≠ tagData := by decide
  have hself := ofNat_toNat_self s.operands.src
  refine ⟨fun ht => ?_, fun ht hn => ?_, fun ht hn => ?_, fun hdata hterm => ?_⟩
  · exact exec_reads_finishes (i := .dataGet) (hreport.trans (congrArg _ (if_pos ht))) (htook .data)
  · have hne : chunkTag s.mem s.operands.src.toNat ≠ tagData := ht.trans_ne hend
    exact exec_reads_finishes (i := .dataGet)
      (hreport.trans (congrArg _ ((if_neg hne).trans ((if_pos ht).trans (if_neg (not_not.2 hn)))))) (htook .terminator)
  · have hne : chunkTag s.mem s.operands.src.toNat ≠ tagData := ht.trans_ne hend
    exact exec_reads_fails (i := .dataGet)
      (hreport.trans (congrArg _ ((if_neg hne).trans ((if_pos ht).trans (if_pos hn))))) hself rfl
  · exact exec_reads_fails (i := .dataGet) (hreport.trans (congrArg _ ((if_neg hdata).trans (if_neg hterm)))) hself rfl

end Sys2Proof.Machine
end

-- ==== Proofs: the header chunk ====
section
/-! IHDR_GET (R142): its checks on the chunk at SRC, whose body is 13 bytes of memory, field by field. -/

namespace Sys2Proof.Machine

/-! ### The fields of a chunk's body -/

section Fields

variable {m : Memory} {p i : Nat}

/-- A byte of the body of the chunk at `p` is the byte at its address. -/
theorem byteAt_chunkBody (h : i < chunkLen m p) : byteAt (chunkBody m p) i = Memory.get m (p + 8 + i) :=
  byteAt_bytes m (p + 8) h

/-- A field of the body of the chunk at `p` is the field at its address. -/
theorem u32be_chunkBody (h : i + 4 ≤ chunkLen m p) : u32be (chunkBody m p) i = u32be (Memory.bytes m (p + 8 + i) 4) 0 :=
  u32be_bytes m (p + 8) h

end Fields

/-! ### The checks -/

section Checks

variable {p : Nat} {c : Chunk}

/-- Another tag than the header's (R142). -/
theorem headerFault_tag (ht : c.tag ≠ tagHdr) : headerFault p c = some (chunkTypeErr .notIhdr p c.tag) := if_pos ht

/-- Another length than 13 (R142). -/
theorem headerFault_len (ht : c.tag = tagHdr) (hn : c.len ≠ 13) :
    headerFault p c = some (framingErr .hdrlen (BitVec.ofNat 32 p) (BitVec.ofNat 32 c.len)) :=
  (if_neg (not_not.2 ht)).trans (if_pos hn)

/-- A zero dimension (R142). -/
theorem headerFault_dims (ht : c.tag = tagHdr) (hn : c.len = 13) (hd : u32be c.body 0 = 0 ∨ u32be c.body 4 = 0) :
    headerFault p c = some (profileErr .zeroDim (BitVec.ofNat 32 p) 0) :=
  (if_neg (not_not.2 ht)).trans ((if_neg (not_not.2 hn)).trans (if_pos hd))

/-- With tag, length and dimensions right the five fixed fields are left (R142). -/
theorem headerFault_fields (ht : c.tag = tagHdr) (hn : c.len = 13) (hw : u32be c.body 0 ≠ 0) (hh : u32be c.body 4 ≠ 0) :
    headerFault p c =
      headerField p c.body 8 8 .bitDepth
        (headerField p c.body 9 2 .color
          (headerField p c.body 10 0 .compression
            (headerField p c.body 11 0 .filter
              (headerField p c.body 12 0 .interlace none)))) :=
  (if_neg (not_not.2 ht)).trans ((if_neg (not_not.2 hn)).trans (if_neg (not_or.2 ⟨hw, hh⟩)))

end Checks

/-! ### IHDR_GET -/

/-- ChunkRead's error is IHDR_GET's (R142). -/
theorem reportIhdrGet_of_error (v : View) {e : Err} (h : chunkRead v v.x.src.toNat v.x.srcEnd.toNat = .error e) :
    reportIhdrGet v = .reads (chunkReads v v.x.src.toNat v.x.srcEnd.toNat) (.error e) := by
  rw [reportIhdrGet, h]

/-- What IHDR_GET assigns from the header chunk at SRC (R142). -/
theorem takeHeader_eq (r : Regs) {m : Memory} {a : Word} (ht : chunkTag m a.toNat = tagHdr) (hn : chunkLen m a.toNat = 13) :
    { r.setChunk (chunkAt m a.toNat) with
      width := u32be (chunkBody m a.toNat) 0, height := u32be (chunkBody m a.toNat) 4,
      src := BitVec.ofNat 32 (chunkAt m a.toNat).next, kind := .other, descSeen := false } =
    { r with
      width := u32be (Memory.bytes m (a.toNat + 8) 4) 0, height := u32be (Memory.bytes m (a.toNat + 12) 4) 0, tag := tagHdr,
      blen := 13, body := a + 8, crc := storedCrc m a.toNat, src := a + 25, kind := .other, descSeen := false } := by
  rw [u32be_chunkBody (by omega), u32be_chunkBody (by omega), setChunk_chunkAt, chunkAt_next, ht, hn, BitVec.add_assoc]
  rfl

/-- A good chunk that a check rejects (R142). -/
theorem ihdrGet_rejects {s : State} {e : Err} {a d : Word}
    (hgood : GoodChunk s.cfg s.mem s.operands.src.toNat s.operands.srcEnd.toNat)
    (he : headerFault s.operands.src.toNat (chunkAt s.mem s.operands.src.toNat) = some e) (ha : e.addr = a) (hd : e.data = d) :
    Fails .ihdrGet s (errCode e.kind).toNat (errDetail e.kind).toNat a d :=
  exec_reads_fails (i := .ihdrGet) (reportIhdrGet_of_some s.view (chunkRead_eq_chunkAt s.view hgood) he) ha hd

/-- Settles O29: a chunk of the fixed profile passes every check. -/
theorem ihdrGetCompletes : Obligations.IhdrGetCompletes := by
  refine ⟨decode_encode .ihdrGet, fun s => ?_⟩
  intro x p w h hgood ht hn hw hh hfixed
  have hwidth : u32be (chunkBody s.mem p) 0 = w := u32be_chunkBody (by omega)
  have hheight : u32be (chunkBody s.mem p) 4 = h := u32be_chunkBody (by omega)
  have hfield : ∀ i < 5, byteAt (chunkBody s.mem p) (8 + i) = byteAt [8, 2, 0, 0, 0] i := by
    intro i hi
    rw [byteAt_chunkBody (by omega), ← hfixed, byteAt_bytes _ _ hi, ← Nat.add_assoc]
  have hnone : headerFault p (chunkAt s.mem p) = none :=
    (headerFault_none_iff _ _).2 ⟨ht, hn, hwidth.trans_ne hw, hheight.trans_ne hh, hfield 0 (by decide), hfield 1 (by decide),
      hfield 2 (by decide), hfield 3 (by decide), hfield 4 (by decide)⟩
  exact exec_reads_finishes (i := .ihdrGet)
    (reportIhdrGet_of_none s.view (chunkRead_eq_chunkAt s.view hgood) hnone) (takeHeader_eq s.regs ht hn)

/-- Settles O30: the checks of a good chunk fail in the order of the clauses; a fixed field is reached past the ones before. -/
theorem ihdrGetRejects : Obligations.IhdrGetRejects := by
  intro s x p t n w h fld bad
  refine ⟨fun e he => exec_reads_errs (i := .ihdrGet) (reportIhdrGet_of_error s.view he), fun hgood => ?_⟩
  have hself : BitVec.ofNat 32 p = x.src := ofNat_toNat_self x.src
  refine ⟨fun ht => ?_, fun ht hn => ?_, fun ht hn => ?_, fun ht hn => ?_⟩
  · exact ihdrGet_rejects hgood (headerFault_tag ht) hself rfl
  · exact ihdrGet_rejects hgood (headerFault_len ht hn) hself rfl
  all_goals
    have hlen : chunkLen s.mem p = 13 := hn
    have hwidth : u32be (chunkBody s.mem p) 0 = w := u32be_chunkBody (by omega)
    have hheight : u32be (chunkBody s.mem p) 4 = h := u32be_chunkBody (by omega)
  · intro hd
    exact ihdrGet_rejects hgood (headerFault_dims ht hn (hd.imp hwidth.trans hheight.trans)) hself rfl
  · intro hw hh
    have hbyte {i : Nat} (hi : i < 13) : byteAt (chunkBody s.mem p) i = fld i := byteAt_chunkBody (by omega)
    have hdata {i : Nat} (hi : i < 13 := by decide) :
        (byteAt (chunkBody s.mem p) i).zeroExtend 32 = BitVec.ofNat 32 (fld i).toNat := by
      rw [hbyte hi, BitVec.ofNat_toNat]
    have hok {i : Nat} {want : Byte} {d : ProfileDetail} {rest : Option Err} (hv : fld i = want) (hi : i < 13 := by decide) :
        headerField p (chunkBody s.mem p) i want d rest = rest := headerField_ok ((hbyte hi).trans hv)
    have hbad {i : Nat} {want : Byte} {d : ProfileDetail} {rest : Option Err} (hv : fld i ≠ want) (hi : i < 13 := by decide) :=
      headerField_bad (p := p) (d := d) (rest := rest) ((hbyte hi).trans_ne hv)
    have hfields := headerFault_fields (p := p) (c := chunkAt s.mem p) ht hn (hwidth.trans_ne hw) (hheight.trans_ne hh)
    refine ⟨fun h8 => ?_, fun h8 h9 => ?_, fun h8 h9 h10 => ?_, fun h8 h9 h10 h11 => ?_, fun h8 h9 h10 h11 h12 => ?_⟩
    · exact ihdrGet_rejects hgood (hfields.trans (hbad h8)) rfl hdata
    · exact ihdrGet_rejects hgood (hfields.trans ((hok h8).trans (hbad h9))) rfl hdata
    · exact ihdrGet_rejects hgood (hfields.trans ((hok h8).trans ((hok h9).trans (hbad h10)))) rfl hdata
    · exact ihdrGet_rejects hgood (hfields.trans ((hok h8).trans ((hok h9).trans ((hok h10).trans (hbad h11))))) rfl hdata
    · exact ihdrGet_rejects hgood
        (hfields.trans ((hok h8).trans ((hok h9).trans ((hok h10).trans ((hok h11).trans (hbad h12)))))) rfl hdata

end Sys2Proof.Machine
end

-- ==== Proofs: the scan of the header ====
section
/-! HDR_SCAN (R145) at the first chunk it does not skip, a good chunk at `q`: it stops there or rejects it. -/

namespace Sys2Proof.Machine

/-! ### What the stops assign -/

/-- A descriptor of five bytes at `q` (R143, R145). -/
theorem scanCommit_descriptor {v : View} {m : Memory} {q : Nat} (hn : chunkLen m q = 5) (k : Nat) (r : Regs) :
    scanCommit v (.descriptor (chunkAt m q) k) r = { r with
      pieceH := u32be (Memory.bytes m (q + 8) 4) 0, descSeen := true, kind := .descriptor, tag := chunkTag m q, blen := 5,
      body := BitVec.ofNat 32 (q + 8), crc := storedCrc m q, src := BitVec.ofNat 32 (q + 17), skipcnt := BitVec.ofNat 32 k } := by
  have hph : u32be (chunkAt m q).body 0 = u32be (Memory.bytes m (q + 8) 4) 0 := u32be_chunkBody (by omega)
  rw [scanCommit, hph, Regs.setChunk, chunkAt, hn]
  rfl

/-- A data chunk at `q` (R145). -/
theorem scanCommit_data {v : View} {m : Memory} (q k : Nat) (r : Regs) :
    scanCommit v (.data (chunkAt m q) q k) r = { r with
      pieceH := if v.x.descSeen then r.pieceH else v.x.height, kind := .data, tag := chunkTag m q,
      blen := BitVec.ofNat 32 (chunkLen m q), body := BitVec.ofNat 32 (q + 8), crc := storedCrc m q,
      src := BitVec.ofNat 32 q, skipcnt := BitVec.ofNat 32 k } := rfl

/-! ### The first chunk not skipped -/

section FirstChunk

variable {s : State} {k q : Nat} (hskip : SkipsTo s.cfg s.mem s.operands.srcEnd.toNat k s.operands.src.toNat q)
  (hgood : GoodChunk s.cfg s.mem q s.operands.srcEnd.toNat)
include hskip hgood

/-- HDR_SCAN stops at it. -/
theorem hdrScan_stops {st : ScanStop} {g : Regs → Regs} (hs : scanChunk s.view q k (chunkAt s.mem q) = .ok (some st))
    (hg : scanCommit s.view st s.regs = g s.regs) : Finishes .hdrScan s s.mem g :=
  exec_reads_finishes (i := .hdrScan) (reportHdrScan_stops hskip (chunkRead_eq_chunkAt s.view hgood) hs) hg

/-- HDR_SCAN rejects it. -/
theorem hdrScan_rejects {e : Err} (he : scanChunk s.view q k (chunkAt s.mem q) = .error e) :
    Fails .hdrScan s (errCode e.kind).toNat (errDetail e.kind).toNat e.addr e.data :=
  exec_reads_errs (i := .hdrScan) (reportHdrScan_rejects hskip (chunkRead_eq_chunkAt s.view hgood) he)

end FirstChunk

/-! ### What the scan does with the chunk at `q` -/

section Descriptor

variable {s : State} {k q : Nat} (ht : chunkTag s.mem q = s.cfg.tagDesc)
include ht

/-- A second descriptor (R145). -/
theorem scanChunk_second (hs : s.operands.descSeen = true) :
    scanChunk s.view q k (chunkAt s.mem q) = .error (chunkTypeErr .scanBad q (chunkTag s.mem q)) :=
  (scanChunk_descriptor ht).trans (if_pos hs)

variable (hs : s.operands.descSeen = false)
include hs

/-- A descriptor of another length than 5 (R145). -/
theorem scanChunk_desclen (hn : chunkLen s.mem q ≠ 5) :
    scanChunk s.view q k (chunkAt s.mem q) =
      .error (descriptorErr .desclen (BitVec.ofNat 32 q) (BitVec.ofNat 32 (chunkLen s.mem q))) := by
  rw [scanChunk_descriptor ht, State.view_x, hs]
  exact if_pos hn

variable (hn : chunkLen s.mem q = 5)
include hn

/-- A descriptor with flag bit 0 clear (R145). -/
theorem scanChunk_flag (hf : (Memory.get s.mem (q + 12)).getLsbD 0 = false) :
    scanChunk s.view q k (chunkAt s.mem q) =
      .error (descriptorErr .flag (BitVec.ofNat 32 (q + 12)) (BitVec.ofNat 32 (Memory.get s.mem (q + 12)).toNat)) := by
  have hbyte : byteAt (chunkAt s.mem q).body 4 = Memory.get s.mem (q + 12) := byteAt_chunkBody (by omega)
  rw [scanChunk_descriptor ht, State.view_x, hs, hbyte, BitVec.ofNat_toNat]
  exact (if_neg (not_not.2 hn)).trans (if_pos hf)

/-- In a descriptor with flag bit 0 set the piece height decides (R145). -/
theorem scanChunk_height (hf : (Memory.get s.mem (q + 12)).getLsbD 0 = true) :
    scanChunk s.view q k (chunkAt s.mem q) =
      if u32be (Memory.bytes s.mem (q + 8) 4) 0 = 0 then .error (descriptorErr .zero (BitVec.ofNat 32 (q + 8)) 0)
      else .ok (some (.descriptor (chunkAt s.mem q) k)) := by
  have hbyte : byteAt (chunkAt s.mem q).body 4 = Memory.get s.mem (q + 12) := byteAt_chunkBody (by omega)
  have hheight : u32be (chunkAt s.mem q).body 0 = u32be (Memory.bytes s.mem (q + 8) 4) 0 := u32be_chunkBody (by omega)
  rw [scanChunk_descriptor ht, State.view_x, hs, hbyte, hheight]
  exact (if_neg (not_not.2 hn)).trans (if_neg (by rw [hf]; exact Bool.noConfusion))

end Descriptor

section OtherTag

variable {s : State} {k q : Nat} (hw : s.cfg.wellFormed = true)
include hw

/-- A header or a terminator (R145). -/
theorem scanChunk_bad (ht : chunkTag s.mem q = tagHdr ∨ chunkTag s.mem q = tagEnd) :
    scanChunk s.view q k (chunkAt s.mem q) = .error (chunkTypeErr .scanBad q (chunkTag s.mem q)) := by
  obtain ⟨-, hhdr, hend⟩ := Params.wellFormed_tags hw
  have hdesc : chunkTag s.mem q ≠ s.cfg.tagDesc := ht.elim (·.trans_ne hhdr) (·.trans_ne hend)
  have hdata : chunkTag s.mem q ≠ tagData := ht.elim (·.trans_ne (by decide)) (·.trans_ne (by decide))
  exact (if_neg hdesc).trans ((if_neg hdata).trans (if_pos ht))

/-- A data chunk: without a descriptor DESC_OPT decides (R145). -/
theorem scanChunk_dataTag (ht : chunkTag s.mem q = tagData) :
    scanChunk s.view q k (chunkAt s.mem q) =
      if s.operands.descSeen = false ∧ s.operands.descOpt = false then
        .error (descriptorErr .missing (BitVec.ofNat 32 q) 0)
      else .ok (some (.data (chunkAt s.mem q) q k)) :=
  scanChunk_data (ht.trans_ne (Params.wellFormed_tags hw).1) ht

end OtherTag

/-! ### HDR_SCAN -/

/-- Settles O32: a descriptor that passes the four checks is where the scan stops. -/
theorem hdrScanStopsAtDescriptor : Obligations.HdrScanStopsAtDescriptor := by
  intro s k q x ph hskip hgood ht hseen hn hflag hph
  have hstop : scanChunk s.view q k (chunkAt s.mem q) = .ok (some (.descriptor (chunkAt s.mem q) k)) :=
    (scanChunk_height ht hseen hn hflag).trans (if_neg hph)
  exact hdrScan_stops hskip hgood hstop (by rw [scanCommit_descriptor hn, ht])

/-- Settles O33: the scan stops at a data chunk unless a descriptor is missing, and DESC_SEEN says which piece height stands. -/
theorem hdrScanStopsAtData : Obligations.HdrScanStopsAtData := by
  intro s k q x stop hw hskip hgood ht
  have hscan := scanChunk_dataTag (k := k) hw ht
  have hcommit (ph : Word) (h : (if x.descSeen then s.regs.pieceH else x.height) = ph) :
      scanCommit s.view (.data (chunkAt s.mem q) q k) s.regs = stop ph s.regs := by
    subst h
    rw [scanCommit_data, ht]
    rfl
  refine ⟨fun hseen => ?_, fun hseen hopt => ?_, fun hseen hopt => ?_⟩
  · have hstop := hscan.trans (if_neg fun h => Bool.noConfusion (hseen.symm.trans h.1))
    exact hdrScan_stops hskip hgood hstop (hcommit _ (if_pos hseen))
  · have hstop := hscan.trans (if_neg fun h => Bool.noConfusion (hopt.symm.trans h.2))
    exact hdrScan_stops hskip hgood hstop (hcommit _ (if_neg (by rw [hseen]; exact Bool.noConfusion)))
  · exact hdrScan_rejects hskip hgood (hscan.trans (if_pos ⟨hseen, hopt⟩))

/-- Settles O34: the checks of a good chunk fail in the order of the clauses. -/
theorem hdrScanRejects : Obligations.HdrScanRejects := by
  intro s k q x t n fl hw hskip
  refine ⟨fun e he => exec_reads_errs (i := .hdrScan) (reportHdrScan_unreadable hskip he), fun hgood => ?_⟩
  refine ⟨fun ht hseen => ?_, fun ht => ?_, fun ht hseen => ⟨fun hn => ?_, fun hn hflag => ?_, fun hn hflag hph => ?_⟩⟩
  · exact hdrScan_rejects hskip hgood (scanChunk_second ht hseen)
  · exact hdrScan_rejects hskip hgood (scanChunk_bad hw ht)
  · exact hdrScan_rejects hskip hgood (scanChunk_desclen ht hseen hn)
  · exact hdrScan_rejects hskip hgood (scanChunk_flag ht hseen hn hflag)
  · exact hdrScan_rejects hskip hgood ((scanChunk_height ht hseen hn hflag).trans (if_pos hph))

end Sys2Proof.Machine
end

-- ==== Proofs: the CRC and the chunk round trip ====
section
/-! What the CRC detects (R130, R148), and that CHUNK_GET reads back what CHUNK_PUT wrote. One round of the CRC keeps the bit it
shifts out as its top bit, since the polynomial's top bit is set, so every round, every byte and the whole loop are injective. -/

namespace Sys2Proof.Machine

/-! ### The loop of R130 -/

/-- The loop is a fold over the bytes. -/
theorem crcFold_eq_foldl (c : Word) (bs : List Byte) : crcFold c bs = bs.foldl crcByte c := by
  induction bs generalizing c with
  | nil => rfl
  | cons b rest ih => exact ih (crcByte c b)

/-- The top bit after a round is the bit the round shifted out. -/
theorem crcBit_getLsbD_31 (c : Word) : (crcBit c).getLsbD 31 = c.getLsbD 0 := by
  unfold crcBit
  split <;> simp_all

theorem crcBit_injective : Function.Injective crcBit := by
  intro c d h
  have hlow : c.getLsbD 0 = d.getLsbD 0 := by rw [← crcBit_getLsbD_31, h, crcBit_getLsbD_31]
  have hhigh : c >>> 1 = d >>> 1 := by
    unfold crcBit at h
    rw [hlow] at h
    split at h
    · exact (BitVec.xor_left_inj _).1 h
    · exact h
  apply BitVec.eq_of_getLsbD_eq
  intro i hi
  cases i with
  | zero => exact hlow
  | succ j => simpa [Nat.add_comm 1 j] using congrArg (·.getLsbD j) hhigh

/-- A byte of the loop is eight rounds. -/
theorem crcByte_eq_iterate (c : Word) (b : Byte) : crcByte c b = crcBit^[8] (c ^^^ b.zeroExtend 32) := rfl

theorem crcByte_injective_left (b : Byte) : Function.Injective (crcByte · b) := fun _ _ h =>
  (BitVec.xor_left_inj _).1 (crcBit_injective.iterate 8 h)

theorem crcByte_injective_right (c : Word) : Function.Injective (crcByte c) := by
  intro a b h
  have hx : a.zeroExtend 32 = b.zeroExtend 32 := (BitVec.xor_right_inj _).1 (crcBit_injective.iterate 8 h)
  simpa using congrArg (BitVec.setWidth 8) hx

/-- The loop over one byte string is injective in the value it starts from. -/
theorem crcFold_injective (bs : List Byte) : Function.Injective (crcFold · bs) := by
  induction bs with
  | nil => exact fun _ _ h => h
  | cons b rest ih => exact ih.comp (crcByte_injective_left b)

/-- Another byte at one place gives another value of the loop. -/
theorem crcFold_set_ne (c : Word) {bs : List Byte} {i : Nat} {v : Byte} (hi : i < bs.length) (hv : v ≠ bs[i]) :
    crcFold c (bs.set i v) ≠ crcFold c bs := by
  induction bs generalizing c i with
  | nil => exact absurd hi (Nat.not_lt_zero i)
  | cons b rest ih =>
    cases i with
    | zero => exact fun h => hv (crcByte_injective_right c (crcFold_injective rest h))
    | succ j => exact ih (crcByte c b) (Nat.lt_of_succ_lt_succ hi) hv

/-- Another byte at one place gives another CRC. -/
theorem crc32_set_ne {bs : List Byte} {i : Nat} {v : Byte} (hi : i < bs.length) (hv : v ≠ bs[i]) :
    crc32 (bs.set i v) ≠ crc32 bs :=
  fun h => crcFold_set_ne _ hi hv ((BitVec.xor_left_inj _).1 h)

/-! ### One changed byte of memory -/

section Changed

variable {m : Memory} {a b n p : Nat} {v : Byte}

theorem Memory.bytes_set_outside (h : Outside b n a) : Memory.bytes (Memory.set m a v) b n = Memory.bytes m b n :=
  Memory.bytes_congr fun k hk => Memory.get_set_other m v (by omega)

theorem Memory.bytes_set_inside (hlo : b ≤ a) : Memory.bytes (Memory.set m a v) b n = (Memory.bytes m b n).set (a - b) v := by
  apply List.ext_getElem (by simp)
  intro k hk hk'
  rw [Memory.bytes_getElem, List.getElem_set]
  split
  · next h => rw [show b + k = a by omega, Memory.get_set_self]
  · rw [Memory.get_set_other m v (by omega), Memory.bytes_getElem]

/-- The tag and the body of the chunk at `p` are one byte string. -/
theorem tag_append_body (m : Memory) (p : Nat) :
    be32 (chunkTag m p) ++ chunkBody m p = Memory.bytes m (p + 4) (4 + chunkLen m p) := by
  rw [be32_bytes, Memory.bytes_append]

/-- A changed byte past the length field leaves the length. -/
theorem chunkLen_set (h : p + 4 ≤ a) : chunkLen (Memory.set m a v) p = chunkLen m p := by
  rw [chunkLen, Memory.bytes_set_outside (.inr h)]

/-- A changed byte of a byte string in memory gives another CRC of it. -/
theorem crc32_bytes_set_ne (hlo : b ≤ a) (hhi : a < b + n) (hv : v ≠ Memory.get m a) :
    crc32 (Memory.bytes (Memory.set m a v) b n) ≠ crc32 (Memory.bytes m b n) := by
  have hlt : a - b < (Memory.bytes m b n).length := by rw [Memory.bytes_length]; omega
  rw [Memory.bytes_set_inside hlo]
  refine crc32_set_ne hlt ?_
  rwa [Memory.bytes_getElem, Nat.add_sub_cancel' hlo]

/-- A changed byte of a big-endian field in memory gives another value of it (R11). -/
theorem u32be_bytes_set_ne (hlo : b ≤ a) (hhi : a < b + 4) (hv : v ≠ Memory.get m a) :
    u32be (Memory.bytes (Memory.set m a v) b 4) 0 ≠ u32be (Memory.bytes m b 4) 0 := by
  intro h
  have hbytes : Memory.bytes (Memory.set m a v) b 4 = Memory.bytes m b 4 := by rw [← be32_bytes, h, be32_bytes]
  have hget : byteAt (Memory.bytes (Memory.set m a v) b 4) (a - b) = byteAt (Memory.bytes m b 4) (a - b) := by rw [hbytes]
  rw [byteAt_bytes _ _ (by omega), byteAt_bytes _ _ (by omega), Nat.add_sub_cancel' hlo, Memory.get_set_self] at hget
  exact hv hget

/-- A changed byte of tag or body changes the computed CRC, one of the CRC field the stored CRC, so they differ (R148). -/
theorem crcMismatch_of_changed (hgood : storedCrc m p = crc32 (be32 (chunkTag m p) ++ chunkBody m p)) (hlo : p + 4 ≤ a)
    (hhi : a < p + 12 + chunkLen m p) (hv : v ≠ Memory.get m a) :
    storedCrc (Memory.set m a v) p ≠
      crc32 (be32 (chunkTag (Memory.set m a v) p) ++ chunkBody (Memory.set m a v) p) := by
  rw [tag_append_body, storedCrc] at hgood ⊢
  rw [chunkLen_set hlo]
  by_cases hbody : a < p + 8 + chunkLen m p
  · rw [Memory.bytes_set_outside (.inl hbody), hgood]
    exact (crc32_bytes_set_ne hlo (by omega) hv).symm
  · rw [Memory.bytes_set_outside (b := p + 4) (.inr (by omega)), ← hgood]
    exact u32be_bytes_set_ne (by omega) (by omega) hv

end Changed

/-- Settles O53: CHUNK_GET gets past the two length checks and both reads as before, and finds the two CRCs apart. -/
theorem changedByteIsDetected : Obligations.ChangedByteIsDetected := by
  refine ⟨fun bs => congrArg (· ^^^ 0xFFFFFFFF) (crcFold_eq_foldl _ bs), by decide +kernel, ?_⟩
  intro s a v p m hgood hlo hhi hv
  obtain ⟨hstop, hread, hcrc⟩ := hgood
  have hlen : chunkLen m p = chunkLen s.mem p := chunkLen_set hlo
  rw [← hlen] at hstop hread
  have herr := chunkRead_crcMismatch ({ s with mem := m } : State).view hstop hread (crcMismatch_of_changed hcrc hlo hhi hv)
  exact exec_reads_fails (i := .chunkGet) (s := { s with mem := m }) (reportChunkGet_of_error _ herr)
    (ofNat_toNat_self s.operands.src) rfl

/-! ### The chunk that CHUNK_PUT wrote -/

/-- A field read back from its own four bytes, nothing after them (R11). -/
theorem u32be_of_eq_be32 {bs : List Byte} {v : Word} (h : bs = be32 v) : u32be bs 0 = v := by
  simpa [h] using u32be_be32 v []

/-- Where the bytes of a chunk stand, its four fields stand (R132). -/
theorem chunkFields_of_bytes {m : Memory} {p : Nat} {t : Word} {b : List Byte} (hb : b.length < 4294967296)
    (h : Memory.bytes m p (12 + b.length) = chunkBytes t b) :
    chunkLen m p = b.length ∧ chunkTag m p = t ∧ chunkBody m p = b ∧ storedCrc m p = chunkCrc t b := by
  rw [show 12 + b.length = 4 + (4 + (b.length + 4)) by omega, Memory.bytes_append, Memory.bytes_append, Memory.bytes_append,
    chunkBytes, List.append_assoc, List.append_assoc] at h
  obtain ⟨hlen, h⟩ := List.append_inj h (by simp)
  obtain ⟨htag, h⟩ := List.append_inj h (by simp)
  obtain ⟨hbody, hcrc⟩ := List.append_inj h (by simp)
  have hn : chunkLen m p = b.length := by
    rw [chunkLen, u32be_of_eq_be32 hlen, BitVec.toNat_ofNat, Nat.mod_eq_of_lt hb]
  refine ⟨hn, u32be_of_eq_be32 htag, ?_, ?_⟩
  · rw [chunkBody, hn]; exact hbody
  · rw [storedCrc, hn]; exact u32be_of_eq_be32 hcrc

/-- Settles O54: the chunk at the old DST is a good one with the fields that were written. -/
theorem chunkRoundTrip : Obligations.ChunkRoundTrip := by
  intro s t u x n hsrc hdst hr hw hapart hexec hmem hru husrc hstop
  obtain ⟨-, hput⟩ := chunkPutRule
  obtain ⟨-, -, -, -, hput⟩ := hput s
  obtain rfl := Host.Outcome.next.inj (hexec.symm.trans ((hput hsrc hdst hr hw).2 hapart))
  let b := Memory.bytes s.mem x.src.toNat n
  have hb : b.length = n := Memory.bytes_length _ _ _
  have hstored : Memory.bytes u.mem x.dst.toNat (12 + b.length) = chunkBytes x.tag b := by
    rw [← chunkBytes_length x.tag b, hmem, chunkBytes_of_length hb, ofNat_toNat_self]
    exact Memory.bytes_store_self _ _ _
  obtain ⟨hlen, htag, hbody, hcrc⟩ := chunkFields_of_bytes (hb ▸ x.len.isLt) hstored
  rw [hb] at hlen
  have hgood : GoodChunk u.cfg u.mem u.operands.src.toNat u.operands.srcEnd.toNat := by
    rw [husrc, GoodChunk, hlen, htag, hbody]
    exact ⟨hstop, hru, hcrc⟩
  have hget := (chunkGetRule.2 u).1 hgood
  rw [husrc] at hget
  refine ⟨_, hget, rfl, htag, ?_, hcrc, ?_, ?_⟩
  · show BitVec.ofNat 32 (chunkLen u.mem x.dst.toNat) = x.len
    rw [hlen, ofNat_toNat_self]
  · show x.dst + 12 + BitVec.ofNat 32 (chunkLen u.mem x.dst.toNat) = x.dst + 12 + x.len
    rw [hlen, ofNat_toNat_self]
  · show Memory.bytes u.mem (x.dst + 8).toNat n = b
    have hat : (x.dst + 8).toNat = x.dst.toNat + 8 := BitVec.toNat_add_of_lt (by show _ + 8 < _; omega)
    rw [hat, ← hbody, chunkBody, hlen]

end Sys2Proof.Machine
end

-- ==== Proofs: the band commands' checks ====
section
/-! BAND_CFG (R181), and the checks SCAN_FRAME and SCAN_UNFRAME make before any access (R182, R186). Each is a chain of
conditions of which the first that holds answers; where none does, the report is that of the row loop. -/

namespace Sys2Proof.Machine

theorem toNat_eq_zero_iff (a : Word) : a.toNat = 0 ↔ a = 0 := BitVec.toNat_inj (y := 0)

theorem toNat_ne_zero {a : Word} (h : a ≠ 0) : a.toNat ≠ 0 := mt (toNat_eq_zero_iff a).1 h

/-- The range check a buffer below 2^32 passes (R88). -/
theorem not_wraps_of_fits {a : Word} {n : Nat} (h : Fits a n) : ¬ wraps a n = true :=
  fun hw => (wraps_true_iff a n).1 hw h

/-! ### BAND_CFG -/

/-- Settles O37: the branches of BAND_CFG, in the order of its checks. -/
theorem bandCfgRule : Obligations.BandCfgRule := by
  refine ⟨decode_encode .bandCfg, fun s => ?_⟩
  intro x h n
  refine ⟨fun hdim => ?_, fun hw hh => ?_⟩
  · have hzero := hdim.imp (toNat_eq_zero_iff _).2 (toNat_eq_zero_iff _).2
    exact exec_refuses (i := .bandCfg) (if_pos hzero)
  · have hdims : reportOf .bandCfg s.view = _ := if_neg (not_or.2 ⟨toNat_ne_zero hw, toNat_ne_zero hh⟩)
    refine ⟨fun hn => ?_, fun hn hrem => ?_, fun hn hrem hbig => ?_, fun hn hrem hfit => ?_⟩
    · exact exec_refuses (hdims.trans (if_pos hn))
    · exact exec_refuses (hdims.trans ((if_neg hn).trans (if_pos hrem)))
    all_goals have hdiv := hdims.trans ((if_neg hn).trans (if_neg (not_not.2 hrem)))
    · exact exec_refuses (hdiv.trans (if_pos hbig))
    · exact exec_assigns (hdiv.trans (if_neg (Nat.not_le.2 hfit)))

/-! ### SCAN_FRAME -/

/-- Settles O38: the branches of SCAN_FRAME's report before its first access, in order. -/
theorem scanFrameChecks : Obligations.ScanFrameChecks := by
  intro s x rb rows out
  refine ⟨fun hw => ?_, fun hw hp => ?_, fun hw hp => ?_⟩
  · exact exec_refuses (i := .scanFrame) (if_pos ((toNat_eq_zero_iff _).2 hw))
  · exact exec_refuses (i := .scanFrame) ((if_neg (toNat_ne_zero hw)).trans (if_pos ((toNat_eq_zero_iff _).2 hp)))
  · have hband : reportOf .scanFrame s.view = _ := (if_neg (toNat_ne_zero hw)).trans (if_neg (toNat_ne_zero hp))
    refine ⟨fun hbig => ?_, fun hout hs => ?_, fun hout hs hd => ?_, fun hout hs hd hlen => ?_⟩
    · exact exec_refuses (hband.trans (if_pos hbig))
    all_goals replace hband := hband.trans (if_neg (Nat.not_le.2 hout))
    · exact exec_refuses (hband.trans (if_pos ((wraps_true_iff _ _).2 hs)))
    all_goals replace hband := hband.trans (if_neg (not_wraps_of_fits hs))
    · exact exec_refuses (hband.trans (if_pos ((wraps_true_iff _ _).2 hd)))
    · exact exec_refuses (hband.trans ((if_neg (not_wraps_of_fits hd)).trans (if_pos hlen)))

/-! ### SCAN_UNFRAME -/

/-- Settles O44: the branches of SCAN_UNFRAME's report before its first access, in order. -/
theorem scanUnframeChecks : Obligations.ScanUnframeChecks := by
  intro s x k rb st
  refine ⟨fun hw => ?_, fun hw hbig => ?_, fun hw hst hrem => ?_, fun hw hst hrem => ?_⟩
  · exact exec_refuses (i := .scanUnframe) (if_pos ((toNat_eq_zero_iff _).2 hw))
  · exact exec_refuses (i := .scanUnframe) ((if_neg (toNat_ne_zero hw)).trans (if_pos hbig))
  all_goals have hband : reportOf .scanUnframe s.view = _ := (if_neg (toNat_ne_zero hw)).trans (if_neg (Nat.not_le.2 hst))
  · exact exec_refuses (hband.trans (if_pos hrem))
  replace hband := hband.trans (if_neg (not_not.2 hrem))
  refine ⟨fun hs => ?_, fun hs hd => ?_, fun hs hd hlen => ?_⟩
  · exact exec_refuses (hband.trans (if_pos ((wraps_true_iff _ _).2 hs)))
  all_goals replace hband := hband.trans (if_neg (not_wraps_of_fits hs))
  · exact exec_refuses (hband.trans (if_pos ((wraps_true_iff _ _).2 hd)))
  · exact exec_refuses (hband.trans ((if_neg (not_wraps_of_fits hd)).trans (if_pos hlen)))

end Sys2Proof.Machine
end

-- ==== Proofs: SCAN_FRAME ====
section
/-! What a command that reads one buffer and commits answers, and SCAN_FRAME past its checks (R182): its answer is the row loop's,
and its output range is reached once the first row is read. -/

namespace Sys2Proof.Machine

/-! ### Ranges and stored bytes -/

/-- Two adjoining ranges that complete make one. -/
theorem Completes.append {p : Params} {d : Dir} {a n k : Nat} (h : Completes p d a n) (hk : Completes p d (a + n) k) :
    Completes p d a (n + k) := by
  intro j hj
  rcases Nat.lt_or_ge j n with hlt | hge
  · exact h j hlt
  · have := hk (j - n) (by omega)
    rwa [Nat.add_assoc, Nat.add_sub_cancel' hge] at this

/-- A byte of a stored byte string, read back at its place. -/
theorem Memory.get_store_of_getElem? {m : Memory} {a k : Nat} {bs : List Byte} {b : Byte} (h : bs[k]? = some b) :
    Memory.get (Memory.store m a bs) (a + k) = b := by
  obtain ⟨hk, rfl⟩ := List.getElem?_eq_some_iff.1 h
  exact Memory.get_store_inside m a bs hk

/-- A byte string where it was stored. -/
theorem Memory.bytes_of_eq_store {m m' : Memory} {a n : Nat} {bs : List Byte} (h : m' = Memory.store m a bs)
    (hn : bs.length = n) : Memory.bytes m' a n = bs := by
  subst h hn
  exact Memory.bytes_store_self m a bs

/-! ### Answers of the writing commands -/

section Answers

variable {i : Instr} {s : State}

/-- What is known of the answered state may be restated. -/
theorem AnswersWith.imp {r : Regs} {base n : Nat} {P Q : State → Prop} (h : AnswersWith i s r base n P)
    (hpq : ∀ t, P t → Q t) : AnswersWith i s r base n Q := by
  obtain ⟨t, hexec, hregs, hlatch, houtside, hp⟩ := h
  exact ⟨t, hexec, hregs, hlatch, houtside, hpq t hp⟩

/-- An empty output range may be named at any address. -/
theorem AnswersWith.of_empty {r : Regs} {b : Nat} {P : State → Prop} (h : AnswersWith i s r b 0 P)
    (a : Nat) : AnswersWith i s r a 0 P := by
  obtain ⟨t, hexec, hregs, hlatch, houtside, hp⟩ := h
  exact ⟨t, hexec, hregs, hlatch, fun c _ => houtside c (Nat.lt_or_ge c b), hp⟩

/-- A command that commits: its registers, and its bytes where they are apart from the one buffer it reads (R89). -/
theorem exec_commits_apart {c : Commit} {b k a n : Nat} {target : Range}
    (h : reportOf i s.view = ⟨[⟨b, k⟩], target, ⟨a, n⟩, .ok c⟩) (hl : c.bytes.length = n) :
    AnswersWith i s { c.regs s.regs with done := true, busy := false } a n
      (fun t => Apart b k a n → t.mem = Memory.store s.mem a c.bytes) := by
  obtain ⟨t, hexec, hregs, hlatch, houtside, -⟩ := exec_commits (c := c) (by rw [h]) (by rw [h]) hl
  refine ⟨t, hexec, hregs, hlatch, houtside, fun hapart => ?_⟩
  have hstore := exec_stores (i := i) (s := s) (c := c) (a := a) (n := n) (by rw [h]) (by rw [h])
    (by rw [h]; simpa only [List.forall_mem_singleton] using hapart)
  rw [Host.Outcome.next.inj (hexec.symm.trans hstore)]

end Answers

/-! ### The report -/

/-- The operands pass SCAN_FRAME's checks, for a band of `rows` rows of `rb` pixel bytes (R182, R88). -/
structure FrameChecked (x : Regs) (rb rows : Nat) : Prop where
  width : x.width ≠ 0
  pieceH : x.pieceH ≠ 0
  rb_eq : 3 * x.width.toNat = rb
  rows_eq : x.pieceH.toNat = rows
  size : (rb + 1) * rows < 4294967296
  source : Fits x.src (rb * rows)
  dest : Fits x.dst ((rb + 1) * rows)
  count : x.adlLen.toNat + (rb + 1) * rows < 4294967296

/-- What SCAN_FRAME commits of the framed bytes `bs` (R182). -/
def frameCommit (x : Regs) (rb rows : Nat) (bs : List Byte) : Commit where
  bytes := bs
  regs r := { r with
    adl := adlerUpdate x.adl bs
    adlLen := x.adlLen + BitVec.ofNat 32 ((rb + 1) * rows)
    src := x.src + BitVec.ofNat 32 (rb * rows)
    dst := x.dst + BitVec.ofNat 32 ((rb + 1) * rows) }

/-- The output range SCAN_FRAME reaches: all of it once its first row is read (log 4). -/
def frameOutput (v : View) (rb rows : Nat) : Range :=
  match memRead v v.x.src.toNat rb with
  | .error _ => Range.empty
  | .ok _ => ⟨v.x.dst.toNat, (rb + 1) * rows⟩

section Report

variable {v : View} {rb rows src dst : Nat}

theorem FrameChecked.rows_pos {x : Regs} (h : FrameChecked x rb rows) : 0 < rows :=
  h.rows_eq ▸ Nat.pos_of_ne_zero (toNat_ne_zero h.pieceH)

theorem frameOutput_reached (h : Completes v.cfg .read v.x.src.toNat rb) :
    frameOutput v rb rows = ⟨v.x.dst.toNat, (rb + 1) * rows⟩ := by
  rw [frameOutput, memRead_ok v h]

theorem frameOutput_of_error {e : Err} (h : memRead v v.x.src.toNat rb = .error e) : frameOutput v rb rows = Range.empty := by
  rw [frameOutput, h]

/-- The row loop fails where its first row cannot be read. -/
theorem frameRows_of_error {e : Err} (hpos : 0 < rows) (h : memRead v src rb = .error e) :
    frameRows v rb rows src dst = .error e := by
  cases rows with
  | zero => exact absurd hpos (Nat.lt_irrefl 0)
  | succ n => rw [frameRows, h]

/-- Past its checks SCAN_FRAME answers what its row loop does (R182). -/
theorem reportScanFrame_eq (h : FrameChecked v.x rb rows) :
    reportScanFrame v =
      ⟨[⟨v.x.src.toNat, rb * rows⟩], ⟨v.x.dst.toNat, (rb + 1) * rows⟩, frameOutput v rb rows,
        (frameRows v rb rows v.x.src.toNat v.x.dst.toNat).map (frameCommit v.x rb rows)⟩ := by
  have hpos := h.rows_pos
  obtain ⟨hw, hp, rfl, rfl, hout, hs, hd, hlen⟩ := h
  have hband : reportScanFrame v = _ :=
    (if_neg (toNat_ne_zero hw)).trans <| (if_neg (toNat_ne_zero hp)).trans <| (if_neg (Nat.not_le.2 hout)).trans <|
      (if_neg (not_wraps_of_fits hs)).trans <| (if_neg (not_wraps_of_fits hd)).trans (if_neg (Nat.not_le.2 hlen))
  rw [hband]
  cases hread : memRead v v.x.src.toNat (3 * v.x.width.toNat) with
  | error e => rw [frameOutput_of_error hread, frameRows_of_error hpos hread]; rfl
  | ok row =>
    rw [frameOutput_reached (memRead_eq_ok v hread).1]
    cases frameRows v (3 * v.x.width.toNat) v.x.pieceH.toNat v.x.src.toNat v.x.dst.toNat with
    | error e => rfl
    | ok bs => simp only [Except.map, frameCommit, advance_eq_add, ofNat_toNat_add]

end Report

section Answered

variable {s : State} {rb rows : Nat} (h : FrameChecked s.operands rb rows)
include h

/-! ### Completion -/

/-- SCAN_FRAME completes: its registers, and the framed rows at DST where the buffers do not overlap (R182, R89). -/
theorem scanFrame_answers (hr : Completes s.cfg .read s.operands.src.toNat (rb * rows))
    (hw : Completes s.cfg .write s.operands.dst.toNat ((rb + 1) * rows)) :
    let bs := framedRows s.mem rb s.operands.src.toNat rows
    AnswersWith .scanFrame s { (frameCommit s.operands rb rows bs).regs s.regs with done := true, busy := false }
      s.operands.dst.toNat ((rb + 1) * rows)
      (fun t => Apart s.operands.src.toNat (rb * rows) s.operands.dst.toNat ((rb + 1) * rows) →
        t.mem = Memory.store s.mem s.operands.dst.toNat bs) := by
  have hfirst := hr.sub (Nat.le_refl _) (Nat.add_le_add_left (Nat.le_mul_of_pos_right _ h.rows_pos) _)
  have hloop : frameRows s.view rb rows s.view.x.src.toNat s.view.x.dst.toNat = _ := frameRows_ok s.view hr hw
  have hreport := reportScanFrame_eq (v := s.view) h
  rw [frameOutput_reached (v := s.view) hfirst, hloop] at hreport
  exact exec_commits_apart (i := .scanFrame) hreport (framedRows_length _ _ _ _)

/-! ### Bus errors -/

variable {e : Err}

/-- SCAN_FRAME cannot read its first row: no byte changes (R272, log 4). -/
theorem scanFrame_fails (he : memRead s.view s.operands.src.toNat rb = .error e) :
    Fails .scanFrame s (errCode e.kind).toNat (errDetail e.kind).toNat e.addr e.data := by
  have hreport := reportScanFrame_eq (v := s.view) h
  refine exec_errs (i := .scanFrame) ?_ ?_
  · exact (congrArg Report.result hreport).trans (congrArg (Except.map _) (frameRows_of_error h.rows_pos he))
  · exact (congrArg Report.output hreport).trans (frameOutput_of_error he)

/-- An error of the row loop once the first row is read: the output range is unspecified (R272). -/
theorem scanFrame_failsWriting (hfirst : Completes s.cfg .read s.operands.src.toNat rb)
    (he : frameRows s.view rb rows s.operands.src.toNat s.operands.dst.toNat = .error e) :
    FailsWriting .scanFrame s (errCode e.kind).toNat (errDetail e.kind).toNat e.addr e.data s.operands.dst.toNat
      ((rb + 1) * rows) := by
  have hreport := reportScanFrame_eq (v := s.view) h
  refine exec_errs_writing (i := .scanFrame) ?_ ?_
  · exact (congrArg Report.result hreport).trans (congrArg (Except.map _) he)
  · exact (congrArg Report.output hreport).trans (frameOutput_reached hfirst)

end Answered

/-- Settles O39: the bytes at DST are the framed rows', row by row. -/
theorem scanFrameCompletes : Obligations.ScanFrameCompletes := by
  intro s x rb rows out hwidth hp hout hs hd hlen hr hw
  refine (scanFrame_answers ⟨hwidth, hp, rfl, rfl, hout, hs, hd, hlen⟩ hr hw).imp fun t hstore hapart r hrow => ?_
  rw [hstore hapart]
  refine ⟨Memory.get_store_of_getElem? (framedRows_filter s.mem hrow), fun j hj => ?_⟩
  rw [Nat.add_assoc, Nat.add_assoc, ← Nat.add_assoc (r * (rb + 1))]
  exact Memory.get_store_of_getElem? (framedRows_pixel s.mem hrow hj)

/-- Settles O40: the row loop's error at row `r`, before the first row is read or after. -/
theorem scanFrameBusErrors : Obligations.ScanFrameBusErrors := by
  intro s r k x rb rows out hwidth hout hs hd hlen hrow hr hw
  have hp : x.pieceH ≠ 0 := fun hzero => by simp [rows, hzero] at hrow
  have hchecked : FrameChecked s.operands rb rows := ⟨hwidth, hp, rfl, rfl, hout, hs, hd, hlen⟩
  refine ⟨fun _ hk => ?_, fun hpos hk => ?_, fun hread hk => ?_⟩
  · exact scanFrame_fails (e := busErr .read (x.src.toNat + k)) hchecked (memRead_refused s.view hk)
  · have hfirst := hr.sub (Nat.le_refl _) (Nat.add_le_add_left (Nat.le_mul_of_pos_left _ hpos) _)
    exact scanFrame_failsWriting (e := busErr .read (x.src.toNat + r * rb + k)) hchecked hfirst
      (frameRows_read_refused s.view hrow hr hw hk)
  · have hr' : Completes s.cfg .read x.src.toNat (r * rb + rb) := hr.append hread
    have hfirst := hr'.sub (Nat.le_refl _) (Nat.add_le_add_left (Nat.le_add_left _ _) _)
    exact scanFrame_failsWriting (e := busErr .write (x.dst.toNat + r * (rb + 1) + k)) hchecked hfirst
      (frameRows_write_refused s.view hrow hr' hw hk)

end Sys2Proof.Machine
end

-- ==== Proofs: SCAN_UNFRAME and the frame round trip ====
section
/-! SCAN_UNFRAME past its checks (R186): its answer is the row loop's. What SCAN_FRAME wrote are rows it takes, and they give the
pixel bytes back (R188). -/

namespace Sys2Proof.Machine

/-! ### The report -/

/-- The operands pass SCAN_UNFRAME's checks, for `rows` rows of a filter byte and `rb` pixel bytes (R186, R88). -/
structure UnframeChecked (x : Regs) (rb rows : Nat) : Prop where
  width : x.width ≠ 0
  rb_eq : 3 * x.width.toNat = rb
  len_eq : x.len.toNat = rows * (rb + 1)
  stride : rb + 1 < 4294967296
  source : Fits x.src x.len.toNat
  dest : Fits x.dst (rows * rb)
  count : x.adlLen.toNat + x.len.toNat < 4294967296

/-- What SCAN_UNFRAME commits of the pixel bytes `bs` (R186). -/
def unframeCommit (v : View) (rb rows : Nat) (bs : List Byte) : Commit where
  bytes := bs
  regs r := { r with
    adl := adlerUpdate v.x.adl (Memory.bytes v.mem v.x.src.toNat v.x.len.toNat)
    adlLen := v.x.adlLen + v.x.len
    src := v.x.src + v.x.len
    dst := v.x.dst + BitVec.ofNat 32 (rows * rb) }

section Report

variable {v : View} {rb rows src dst : Nat}

/-- Once the first row passes, SCAN_UNFRAME reaches its whole output range (log 4). -/
theorem unframeOutput_reached (hpos : 0 < rows) (hr : Completes v.cfg .read src (rb + 1)) (hf : Memory.get v.mem src = 0) :
    unframeOutput v rb rows src dst = ⟨dst, rows * rb⟩ := by
  cases rows with
  | zero => exact absurd hpos (Nat.lt_irrefl 0)
  | succ n => rw [unframeOutput, unframeRow_ok v hr hf]

/-- An error of the first row comes before any write (log 4). -/
theorem unframeOutput_of_error {e : Err} (h : unframeRow v rb src = .error e) :
    unframeOutput v rb rows src dst = Range.empty := by
  cases rows with
  | zero => rfl
  | succ n => rw [unframeOutput, h]

/-- Past its checks SCAN_UNFRAME answers what its row loop does (R186). -/
theorem reportScanUnframe_eq (h : UnframeChecked v.x rb rows) :
    reportScanUnframe v =
      ⟨[⟨v.x.src.toNat, v.x.len.toNat⟩], ⟨v.x.dst.toNat, rows * rb⟩, unframeOutput v rb rows v.x.src.toNat v.x.dst.toNat,
        (unframeRows v rb rows v.x.src.toNat v.x.dst.toNat).map (unframeCommit v rb rows)⟩ := by
  obtain ⟨hw, rfl, hk, hst, hs, hd, hlen⟩ := h
  have hrem : v.x.len.toNat % (3 * v.x.width.toNat + 1) = 0 := by rw [hk]; exact Nat.mul_mod_left _ _
  have hrows : v.x.len.toNat / (3 * v.x.width.toNat + 1) = rows := by rw [hk]; exact Nat.mul_div_cancel _ (Nat.succ_pos _)
  subst hrows
  have hband : reportScanUnframe v = _ :=
    (if_neg (toNat_ne_zero hw)).trans <| (if_neg (Nat.not_le.2 hst)).trans <| (if_neg (not_not.2 hrem)).trans <|
      (if_neg (not_wraps_of_fits hs)).trans <| (if_neg (not_wraps_of_fits hd)).trans (if_neg (Nat.not_le.2 hlen))
  rw [hband]
  congr 1
  cases unframeRows v _ _ v.x.src.toNat v.x.dst.toNat with
  | error e => rfl
  | ok bs => simp only [Except.map, unframeCommit, advance_eq_add, ofNat_toNat_add, ofNat_toNat_self]

end Report

/-! ### One row's errors -/

section Errors

variable {v : View} {rb rows src dst r j : Nat} {e : Err}

/-- A refused filter byte (R186). -/
theorem unframeRow_filterUnreadable (h : memOK v.cfg .read src = false) :
    unframeRow v rb src = .error (busErr .read src) := by
  have hk : RefusedAt v.cfg .read src 1 0 := ⟨Nat.one_pos, h, fun _ hj => absurd hj (Nat.not_lt_zero _)⟩
  rw [unframeRow, memRead_refused v hk]
  rfl

theorem completes_one {p : Params} {d : Dir} {a : Nat} (h : memOK p d a = true) : Completes p d a 1 := by
  intro k hk
  rwa [Nat.lt_one_iff.1 hk]

/-- A filter byte that is not 0 (R186, R265). -/
theorem unframeRow_unsupported (h : memOK v.cfg .read src = true) (hf : Memory.get v.mem src ≠ 0) :
    unframeRow v rb src = .error (filterErr src (Memory.get v.mem src)) := by
  rw [unframeRow, memRead_ok v (completes_one h)]
  exact if_pos hf

/-- A refused pixel byte (R186). -/
theorem unframeRow_pixelUnreadable (h : memOK v.cfg .read src = true) (hf : Memory.get v.mem src = 0)
    (hk : RefusedAt v.cfg .read (src + 1) rb j) : unframeRow v rb src = .error (busErr .read (src + 1 + j)) := by
  rw [unframeRow, memRead_ok v (completes_one h)]
  exact (if_neg (not_not.2 hf)).trans (memRead_refused v hk)

/-- The row loop fails where its first row does. -/
theorem unframeRows_of_error (hpos : 0 < rows) (h : unframeRow v rb src = .error e) :
    unframeRows v rb rows src dst = .error e := by
  cases rows with
  | zero => exact absurd hpos (Nat.lt_irrefl 0)
  | succ n => rw [unframeRows, h]

/-- The row loop fails where the pixel bytes of its first row cannot be written. -/
theorem unframeRows_unwritable (hpos : 0 < rows) (hr : Completes v.cfg .read src (rb + 1)) (hf : Memory.get v.mem src = 0)
    (hk : RefusedAt v.cfg .write dst rb j) : unframeRows v rb rows src dst = .error (busErr .write (dst + j)) := by
  cases rows with
  | zero => exact absurd hpos (Nat.lt_irrefl 0)
  | succ n => simp only [unframeRows, unframeRow_ok v hr hf, (firstRefused_some _ _ _ _ _).2 ⟨j, rfl, hk⟩]

end Errors

section Answered

variable {s : State} {rb rows : Nat} (h : UnframeChecked s.operands rb rows)
include h

/-! ### Completion -/

/-- SCAN_UNFRAME completes on rows of filter 0: its registers, and the pixel bytes at DST where the buffers do not overlap (R186,
R89). -/
theorem scanUnframe_answers (hr : Completes s.cfg .read s.operands.src.toNat s.operands.len.toNat)
    (hw : Completes s.cfg .write s.operands.dst.toNat (rows * rb))
    (hf : ∀ r, r < rows → Memory.get s.mem (s.operands.src.toNat + r * (rb + 1)) = 0) :
    let bs := pixelRows s.mem rb s.operands.src.toNat rows
    AnswersWith .scanUnframe s { (unframeCommit s.view rb rows bs).regs s.regs with done := true, busy := false }
      s.operands.dst.toNat (rows * rb)
      (fun t => Apart s.operands.src.toNat s.operands.len.toNat s.operands.dst.toNat (rows * rb) →
        t.mem = Memory.store s.mem s.operands.dst.toNat bs) := by
  intro bs
  have hbytes : bs.length = rows * rb := pixelRows_length _ _ _ _
  have hr' : Completes s.cfg .read s.operands.src.toNat (rows * (rb + 1)) := h.len_eq ▸ hr
  have hloop : unframeRows s.view rb rows s.view.x.src.toNat s.view.x.dst.toNat = .ok bs := unframeRows_ok s.view hr' hw hf
  have hreport := reportScanUnframe_eq (v := s.view) h
  rw [hloop] at hreport
  rcases Nat.eq_zero_or_pos rows with rfl | hpos
  · have hempty := exec_commits_apart (i := .scanUnframe) (a := 0) (n := 0) hreport rfl
    rw [Nat.zero_mul]
    exact (hempty.of_empty _).imp fun t hstore _ => hstore (.inr (.inl rfl))
  · have hfirst := hr'.sub (k := rb + 1) (Nat.le_refl _) (Nat.add_le_add_left (Nat.le_mul_of_pos_left _ hpos) _)
    rw [unframeOutput_reached (v := s.view) (src := s.view.x.src.toNat) hpos hfirst (by simpa using hf 0 hpos)] at hreport
    exact exec_commits_apart (i := .scanUnframe) hreport hbytes

/-! ### Errors row by row -/

variable {r : Nat} {e : Err} (hrow : r < rows)
include hrow

/-- The first row fails before its write: no byte changes (R272, log 4). -/
theorem scanUnframe_fails (he : unframeRow s.view rb s.operands.src.toNat = .error e) :
    Fails .scanUnframe s (errCode e.kind).toNat (errDetail e.kind).toNat e.addr e.data := by
  have hreport := reportScanUnframe_eq (v := s.view) h
  have hloop := unframeRows_of_error (dst := s.operands.dst.toNat) (Nat.zero_lt_of_lt hrow) he
  refine exec_errs (i := .scanUnframe) ?_ ?_
  · exact (congrArg Report.result hreport).trans (congrArg (Except.map _) hloop)
  · exact (congrArg Report.output hreport).trans (unframeOutput_of_error he)

variable (hr : Completes s.cfg .read s.operands.src.toNat (r * (rb + 1)))
  (hw : Completes s.cfg .write s.operands.dst.toNat (r * rb))
  (hf : ∀ i, i < r → Memory.get s.mem (s.operands.src.toNat + i * (rb + 1)) = 0)
include hr hw hf

/-- The rows before row `r` pass and the loop fails from there, the first row passing: the output range is unspecified (R272). -/
theorem scanUnframe_failsWriting (hfirst : Completes s.cfg .read s.operands.src.toNat (rb + 1))
    (hfilter : Memory.get s.mem s.operands.src.toNat = 0)
    (he : unframeRows s.view rb (rows - r) (s.operands.src.toNat + r * (rb + 1)) (s.operands.dst.toNat + r * rb) = .error e) :
    FailsWriting .scanUnframe s (errCode e.kind).toNat (errDetail e.kind).toNat e.addr e.data s.operands.dst.toNat
      (rows * rb) := by
  have hreport := reportScanUnframe_eq (v := s.view) h
  have hloop := unframeRows_reaches s.view hrow hr hw hf he
  refine exec_errs_writing (i := .scanUnframe) ?_ ?_
  · exact (congrArg Report.result hreport).trans (congrArg (Except.map _) hloop)
  · exact (congrArg Report.output hreport).trans (unframeOutput_reached (Nat.zero_lt_of_lt hrow) hfirst hfilter)

/-- Row `r` fails before its write: in the first row no byte changes, in a later one the output range is unspecified. -/
theorem scanUnframe_rowFails (he : unframeRow s.view rb (s.operands.src.toNat + r * (rb + 1)) = .error e) :
    (r = 0 → Fails .scanUnframe s (errCode e.kind).toNat (errDetail e.kind).toNat e.addr e.data) ∧
    (0 < r → FailsWriting .scanUnframe s (errCode e.kind).toNat (errDetail e.kind).toNat e.addr e.data
      s.operands.dst.toNat (rows * rb)) := by
  refine ⟨fun hzero => ?_, fun hpos => ?_⟩
  · rw [hzero, Nat.zero_mul, Nat.add_zero] at he
    exact scanUnframe_fails h hrow he
  · have hfirst := hr.sub (k := rb + 1) (Nat.le_refl _) (Nat.add_le_add_left (Nat.le_mul_of_pos_left _ hpos) _)
    exact scanUnframe_failsWriting h hrow hr hw hf hfirst (by simpa using hf 0 hpos)
      (unframeRows_of_error (Nat.sub_pos_of_lt hrow) he)

end Answered

/-- The checks of R186 as its rule states them: LEN is a whole number of rows. -/
theorem UnframeChecked.of_stride {x : Regs} (hw : x.width ≠ 0) (hst : 3 * x.width.toNat + 1 < 4294967296)
    (hrem : x.len.toNat % (3 * x.width.toNat + 1) = 0) (hs : Fits x.src x.len.toNat)
    (hd : Fits x.dst (x.len.toNat / (3 * x.width.toNat + 1) * (3 * x.width.toNat)))
    (hlen : x.adlLen.toNat + x.len.toNat < 4294967296) :
    UnframeChecked x (3 * x.width.toNat) (x.len.toNat / (3 * x.width.toNat + 1)) :=
  ⟨hw, rfl, (Nat.div_mul_cancel (Nat.dvd_of_mod_eq_zero hrem)).symm, hst, hs, hd, hlen⟩

/-- Settles O45: the bytes at DST are the rows' pixel bytes. -/
theorem scanUnframeCompletes : Obligations.ScanUnframeCompletes := by
  intro s x k rb st rows hwidth hst hrem hs hd hlen hr hw hf
  refine (scanUnframe_answers (.of_stride hwidth hst hrem hs hd hlen) hr hw hf).imp fun t hstore hapart r hrow j hj => ?_
  rw [hstore hapart, Nat.add_assoc]
  exact Memory.get_store_of_getElem? (pixelRows_pixel s.mem hrow hj)

/-- Settles O46: the ways row `r` can fail, in order; its write is refused only after its bytes are read, the first row's too. -/
theorem scanUnframeRowErrors : Obligations.ScanUnframeRowErrors := by
  intro s r x k rb st rows at_ fl hwidth hst hrem hs hd hlen hrow hr hw hf
  have hchecked := UnframeChecked.of_stride hwidth hst hrem hs hd hlen
  have hdata : BitVec.ofNat 32 fl.toNat = fl.zeroExtend 32 := BitVec.ofNat_toNat 32 fl
  refine ⟨fun hbad => ?_, fun hok hfl => ?_, fun j hok hfl hk => ?_, fun j hread hfl hk => ?_⟩
  · exact scanUnframe_rowFails (e := busErr .read at_) hchecked hrow hr hw hf (unframeRow_filterUnreadable (v := s.view) hbad)
  · rw [hdata]
    exact scanUnframe_rowFails (e := filterErr at_ fl) hchecked hrow hr hw hf (unframeRow_unsupported (v := s.view) hok hfl)
  · exact scanUnframe_rowFails (e := busErr .read (at_ + 1 + j)) hchecked hrow hr hw hf
      (unframeRow_pixelUnreadable (v := s.view) hok hfl hk)
  · have hr' : Completes s.cfg .read x.src.toNat (r * st + st) := hr.append hread
    have hfirst := hr'.sub (k := st) (Nat.le_refl _) (Nat.add_le_add_left (Nat.le_add_left _ _) _)
    have hfilter : Memory.get s.mem x.src.toNat = 0 := by
      rcases Nat.eq_zero_or_pos r with hzero | hpos
      · simpa [fl, at_, hzero] using hfl
      · simpa using hf 0 hpos
    exact scanUnframe_failsWriting (e := busErr .write (x.dst.toNat + r * rb + j)) hchecked hrow hr hw hf hfirst hfilter
      (unframeRows_unwritable (v := s.view) (Nat.sub_pos_of_lt hrow) hread hfl hk)

/-! ### The framed band, read back -/

/-- Where framed rows stand, the pixel bytes of those rows are the source's (R188). -/
theorem pixelRows_of_framed {m m' : Memory} {rb src d rows : Nat}
    (h : Memory.bytes m d ((rb + 1) * rows) = framedRows m' rb src rows) :
    pixelRows m rb d rows = Memory.bytes m' src (rb * rows) := by
  induction rows generalizing src d with
  | zero => rfl
  | succ k ih =>
    rw [show (rb + 1) * (k + 1) = 1 + rb + (rb + 1) * k by ring, Memory.bytes_append, Memory.bytes_append] at h
    obtain ⟨hrow, hrest⟩ := List.append_inj h (by simp [Nat.add_comm])
    have hpixels : Memory.bytes m (d + 1) rb = Memory.bytes m' src rb := (List.cons.inj hrow).2
    rw [Nat.add_comm 1 rb] at hrest
    rw [pixelRows, hpixels, ih hrest, Nat.mul_succ, Nat.add_comm (rb * k), Memory.bytes_append]

/-- Where framed rows stand, the filter byte of each is 0 (R182). -/
theorem filter_of_framed {m m' : Memory} {rb src d rows r : Nat}
    (h : Memory.bytes m d ((rb + 1) * rows) = framedRows m' rb src rows) (hrow : r < rows) :
    Memory.get m (d + r * (rb + 1)) = 0 := by
  have hfilter := framedRows_filter m' (rb := rb) (src := src) hrow
  rw [← h] at hfilter
  obtain ⟨hlt, hget⟩ := List.getElem?_eq_some_iff.1 hfilter
  rwa [Memory.bytes_getElem] at hget

/-- Settles O55: the bytes at the old DST are the framed rows, which SCAN_UNFRAME takes. -/
theorem frameRoundTrip : Obligations.FrameRoundTrip := by
  intro s t u x y rb rows out hwidth hp hout hs hd hlen hr hw hapart hexec hmem hyw hysrc hylen hyd hycount hyr hyw' hyapart
  have hframe : FrameChecked x rb rows := ⟨hwidth, hp, rfl, rfl, hout, hs, hd, hlen⟩
  obtain ⟨t', hexec', hregs, -, -, hstore⟩ := scanFrame_answers hframe hr hw
  obtain rfl := Host.Outcome.next.inj (hexec.symm.trans hexec')
  have hframed : Memory.bytes u.mem x.dst.toNat out = framedRows s.mem rb x.src.toNat rows :=
    Memory.bytes_of_eq_store (hmem.trans (hstore hapart)) (framedRows_length _ _ _ _)
  have hstride : rb + 1 < 4294967296 := Nat.lt_of_le_of_lt (Nat.le_mul_of_pos_right _ hframe.rows_pos) hout
  rw [← hysrc] at hd hyr hyapart hframed
  rw [← hylen] at hd hycount hyr hyapart
  rw [Nat.mul_comm rb] at hyd hyw' hyapart
  have hunframe : UnframeChecked y rb rows :=
    ⟨hyw ▸ hwidth, hyw ▸ rfl, hylen.trans (Nat.mul_comm _ _), hstride, hd, hyd, hycount⟩
  obtain ⟨w, hexecw, hwregs, -, -, hwstore⟩ :=
    scanUnframe_answers hunframe hyr hyw' fun r hrow => filter_of_framed hframed hrow
  refine ⟨w, hexecw, by rw [hwregs], ?_, fun hadl => ?_⟩
  · rw [← pixelRows_of_framed hframed]
    exact Memory.bytes_of_eq_store (hwstore hyapart) (by rw [pixelRows_length, Nat.mul_comm])
  · rw [hregs, hwregs]
    show adlerUpdate y.adl (Memory.bytes u.mem y.src.toNat y.len.toNat) = adlerUpdate x.adl (framedRows s.mem rb x.src.toNat rows)
    rw [hadl, hylen, hframed]

end Sys2Proof.Machine
end

-- ==== Proofs: MERGE_PIECE and SPLIT_PIECE ====
section
/-! MERGE_PIECE (R184) and SPLIT_PIECE (R185), for every F and L: the ways their reports can end, in the order of their checks. -/

namespace Sys2Proof.Machine

/-- A part of a buffer is apart from what the buffer is apart from (R89). -/
theorem Apart.part {a n b m c k : Nat} (h : Apart a n b m) (hlo : a ≤ c) (hhi : c + k ≤ a + n) : Apart c k b m := by
  unfold Apart at *
  omega

/-! ### MERGE_PIECE -/

section MergePiece

variable (v : View) {f l : Bool}

theorem mergedBody_length (l : Bool) (acc : Word) (b : List Byte) : (mergedBody l acc b).length = b.length + tailBytes l := by
  cases l with
  | false => rfl
  | true => exact List.length_append

/-- The data chunk's body takes the place of the bytes read and the trailer (R184). -/
theorem mergedBody_bytes_length (acc : Word) (m : Memory) (a : Nat) {k : Nat} (hk : mergeHead f + tailBytes l ≤ k) :
    (mergedBody l acc (Memory.bytes m a (k - mergeHead f - tailBytes l))).length = k - mergeHead f := by
  rw [mergedBody_length, Memory.bytes_length]
  omega

variable (hacc : ¬ (l = true ∧ v.x.accValid = false)) (hk : mergeHead f + tailBytes l ≤ v.x.len.toNat)
  (hs : Fits v.x.src v.x.len.toNat) (hd : Fits v.x.dst (12 + (v.x.len.toNat - mergeHead f)))
include hacc hk hs hd

/-- The stream bytes cannot be read (R184). -/
theorem reportMergePiece_unreadable {j : Nat}
    (hj : RefusedAt v.cfg .read (v.x.src.toNat + mergeHead f) (v.x.len.toNat - mergeHead f - tailBytes l) j) :
    reportMergePiece f l v =
      .stops [⟨v.x.src.toNat + mergeHead f, v.x.len.toNat - mergeHead f - tailBytes l⟩]
        ⟨v.x.dst.toNat, 12 + (v.x.len.toNat - mergeHead f)⟩ (busErr .read (v.x.src.toNat + mergeHead f + j)) := by
  unfold reportMergePiece
  dsimp only
  rw [if_neg hacc, if_neg (Nat.not_lt.2 hk), if_neg (not_wraps_of_fits hs), if_neg (not_wraps_of_fits hd), memRead_refused v hj]

/-- MERGE_PIECE goes on to write the data chunk of the stream bytes it read (R184). -/
theorem reportMergePiece_writes
    (hr : Completes v.cfg .read (v.x.src.toNat + mergeHead f) (v.x.len.toNat - mergeHead f - tailBytes l)) :
    reportMergePiece f l v =
      let n := v.x.len.toNat - mergeHead f - tailBytes l
      let body := mergedBody l v.x.acc (Memory.bytes v.mem (v.x.src.toNat + mergeHead f) n)
      .writes v.cfg [⟨v.x.src.toNat + mergeHead f, n⟩] v.x.dst.toNat (chunkBytes tagData body)
        (fun r => { r with
          crc := chunkCrc tagData body, src := v.x.src + v.x.len,
          dst := v.x.dst + 12 + BitVec.ofNat 32 (v.x.len.toNat - mergeHead f) }) := by
  have hsrc : advance v.x.src v.x.len.toNat = v.x.src + v.x.len := by
    rw [advance_eq_add, ofNat_toNat_self]
  have hdst (n : Nat) : advance v.x.dst (12 + n) = v.x.dst + 12 + BitVec.ofNat 32 n := by
    rw [advance_eq_add, BitVec.ofNat_add, ← BitVec.add_assoc]
    rfl
  unfold reportMergePiece
  dsimp only
  rw [if_neg hacc, if_neg (Nat.not_lt.2 hk), if_neg (not_wraps_of_fits hs), if_neg (not_wraps_of_fits hd), memRead_ok v hr,
    hsrc, hdst]

end MergePiece

/-- Settles O41: the ways MERGE_PIECE's report can end, in the order of its checks. -/
theorem mergePieceRule : Obligations.MergePieceRule := by
  refine ⟨decode_encode (.mergePiece false false), decode_encode (.mergePiece true false),
    decode_encode (.mergePiece false true), decode_encode (.mergePiece true true), fun s f l => ?_⟩
  intro x k hs ts b body m c g
  refine ⟨fun hl ha => exec_refuses (i := .mergePiece f l) (if_pos ⟨hl, ha⟩), fun hvalid => ?_⟩
  have hacc : ¬ (l = true ∧ x.accValid = false) := by
    rintro ⟨rfl, ha⟩
    simp [ha] at hvalid
  have hfold : reportOf (.mergePiece f l) s.view = _ := if_neg hacc
  refine ⟨fun hshort => ?_, fun hlen => ?_⟩
  · have hfails := exec_refuses (hfold.trans (if_pos hshort))
    rwa [show BitVec.ofNat 32 s.view.x.len.toNat = x.len from ofNat_toNat_self _] at hfails
  replace hfold := hfold.trans (if_neg (Nat.not_lt.2 hlen))
  refine ⟨fun hsrc => ?_, fun hsrc hdst => ?_, fun j hsrc hdst hj => ?_, fun j hsrc hdst hr hj => ?_,
    fun hsrc hdst hr hw => ?_⟩
  · exact exec_refuses (hfold.trans (if_pos ((wraps_true_iff _ _).2 hsrc)))
  · exact exec_refuses (hfold.trans ((if_neg (not_wraps_of_fits hsrc)).trans (if_pos ((wraps_true_iff _ _).2 hdst))))
  · exact failsWriting_of_fails
      (exec_stops (i := .mergePiece f l) (reportMergePiece_unreadable s.view hacc hlen hsrc hdst hj)) _ _
  all_goals
    have hreport : reportOf (.mergePiece f l) s.view =
        .writes s.cfg [⟨x.src.toNat + hs, k - hs - ts⟩] x.dst.toNat (chunkBytes tagData body) g :=
      reportMergePiece_writes s.view hacc hlen hsrc hdst hr
    have hbody : body.length = m := mergedBody_bytes_length x.acc s.mem _ hlen
    have hchunk : (chunkBytes tagData body).length = 12 + m := by rw [chunkBytes_length, hbody]
  · exact exec_writes_refused hreport hchunk hj
  · refine ⟨exec_writes hreport hchunk hw, fun hapart => ?_⟩
    have hread : Apart (x.src.toNat + hs) (k - hs - ts) x.dst.toNat (12 + m) :=
      hapart.part (Nat.le_add_right _ _) (by omega)
    have hstore := exec_writes_apart hreport hchunk hw (by simpa only [List.forall_mem_singleton] using hread)
    rwa [chunkBytes_of_length hbody] at hstore

/-! ### SPLIT_PIECE -/

/-- The first refused byte of two adjoining ranges lies in the first, or in the second with the first completing. -/
theorem RefusedAt.split {p : Params} {d : Dir} {a n k j : Nat} (h : RefusedAt p d a (n + k) j) :
    RefusedAt p d a n j ∨ Completes p d a n ∧ ∃ i, j = n + i ∧ RefusedAt p d (a + n) k i := by
  obtain ⟨hj, hbad, hbefore⟩ := h
  rcases Nat.lt_or_ge j n with hlt | hge
  · exact .inl ⟨hlt, hbad, hbefore⟩
  · obtain ⟨i, rfl⟩ := Nat.exists_eq_add_of_le hge
    refine .inr ⟨fun q hq => hbefore q (by omega), i, rfl, by omega, by rwa [Nat.add_assoc], fun q hq => ?_⟩
    rw [Nat.add_assoc]
    exact hbefore (n + q) (by omega)

section SplitPiece

variable (v : View) {f l : Bool} (hk : splitHead f + tailBytes l ≤ v.x.blen.toNat) (hs : Fits v.x.body v.x.blen.toNat)
  (hd : Fits v.x.dst (v.x.blen.toNat - splitHead f - tailBytes l))
include hk

/-- The trailer stands behind the fragment (R185). -/
theorem splitPiece_trailer_addr :
    v.x.body.toNat + (v.x.blen.toNat - tailBytes l) =
      v.x.body.toNat + splitHead f + (v.x.blen.toNat - splitHead f - tailBytes l) := by
  omega

include hs hd

/-- The fragment or the trailer behind it cannot be read (R185). -/
theorem reportSplitPiece_unreadable {j : Nat}
    (hj : RefusedAt v.cfg .read (v.x.body.toNat + splitHead f)
      (v.x.blen.toNat - splitHead f - tailBytes l + tailBytes l) j) :
    reportSplitPiece f l v =
      .stops [⟨v.x.body.toNat + splitHead f, v.x.blen.toNat - splitHead f - tailBytes l + tailBytes l⟩]
        ⟨v.x.dst.toNat, v.x.blen.toNat - splitHead f - tailBytes l⟩ (busErr .read (v.x.body.toNat + splitHead f + j)) := by
  unfold reportSplitPiece
  dsimp only
  rw [if_neg (Nat.not_lt.2 hk), if_neg (not_wraps_of_fits hs), if_neg (not_wraps_of_fits hd), splitPiece_trailer_addr v hk]
  rcases hj.split with hfragment | ⟨hfragment, i, rfl, htrailer⟩
  · rw [memRead_refused v hfragment]
  · rw [memRead_ok v hfragment, memRead_refused v htrailer, ← Nat.add_assoc]

/-- SPLIT_PIECE goes on to write the fragment, the trailer read too (R185). -/
theorem reportSplitPiece_writes
    (hr : Completes v.cfg .read (v.x.body.toNat + splitHead f)
      (v.x.blen.toNat - splitHead f - tailBytes l + tailBytes l)) :
    reportSplitPiece f l v =
      let m := v.x.blen.toNat - splitHead f - tailBytes l
      .writes v.cfg [⟨v.x.body.toNat + splitHead f, m + tailBytes l⟩] v.x.dst.toNat
        (Memory.bytes v.mem (v.x.body.toNat + splitHead f) m)
        (fun r => { r with
          trailer := if l = true then u32be (Memory.bytes v.mem (v.x.body.toNat + v.x.blen.toNat - 4) 4) 0 else r.trailer
          dst := v.x.dst + BitVec.ofNat 32 m }) := by
  unfold reportSplitPiece
  dsimp only
  rw [if_neg (Nat.not_lt.2 hk), if_neg (not_wraps_of_fits hs), if_neg (not_wraps_of_fits hd), splitPiece_trailer_addr v hk,
    memRead_ok v (hr.sub (Nat.le_refl _) (by omega)), memRead_ok v (hr.sub (Nat.le_add_right _ _) (by omega)), advance_eq_add]
  cases l with
  | false => rfl
  | true =>
    simp only [tailBytes, if_true] at hk ⊢
    rw [show v.x.body.toNat + splitHead f + (v.x.blen.toNat - splitHead f - 4) = v.x.body.toNat + v.x.blen.toNat - 4 by omega]

end SplitPiece

/-- Settles O42: the ways SPLIT_PIECE's report can end, in the order of its checks. -/
theorem splitPieceRule : Obligations.SplitPieceRule := by
  refine ⟨decode_encode (.splitPiece false false), decode_encode (.splitPiece true false),
    decode_encode (.splitPiece false true), decode_encode (.splitPiece true true), fun s f l => ?_⟩
  intro x k hs ts m d tr g
  refine ⟨fun hshort => ?_, fun hlen => ?_⟩
  · have hfails := exec_refuses (i := .splitPiece f l) (if_pos hshort)
    rwa [show BitVec.ofNat 32 s.view.x.blen.toNat = x.blen from ofNat_toNat_self _] at hfails
  have hfragment : reportOf (.splitPiece f l) s.view = _ := if_neg (Nat.not_lt.2 hlen)
  refine ⟨fun hsrc => ?_, fun hsrc hdst => ?_, fun j hsrc hdst hj => ?_, fun j hsrc hdst hr hj => ?_,
    fun hsrc hdst hr hw => ?_⟩
  · exact exec_refuses (hfragment.trans (if_pos ((wraps_true_iff _ _).2 hsrc)))
  · exact exec_refuses (hfragment.trans ((if_neg (not_wraps_of_fits hsrc)).trans (if_pos ((wraps_true_iff _ _).2 hdst))))
  · exact failsWriting_of_fails
      (exec_stops (i := .splitPiece f l) (reportSplitPiece_unreadable s.view hlen hsrc hdst hj)) _ _
  all_goals
    have hreport : reportOf (.splitPiece f l) s.view = .writes s.cfg [⟨x.body.toNat + hs, m + ts⟩] x.dst.toNat d g :=
      reportSplitPiece_writes s.view hlen hsrc hdst hr
    have hbytes : d.length = m := Memory.bytes_length _ _ _
  · exact exec_writes_refused hreport hbytes hj
  · refine ⟨exec_writes hreport hbytes hw, fun hapart => ?_⟩
    have hread : Apart (x.body.toNat + hs) (m + ts) x.dst.toNat m := hapart.part (Nat.le_add_right _ _) (by omega)
    exact exec_writes_apart hreport hbytes hw (by simpa only [List.forall_mem_singleton] using hread)

end Sys2Proof.Machine
end

-- ==== Proofs: Adler-32 and its combination ====
section
/-! Adler-32's closed form on a concatenation (R210), which both the incremental update (R211) and the combination (R212, R214)
compute. A packed checksum is its two halves, so each claim is one about the low halves and one about the high halves. -/

namespace Sys2Proof.Machine

/-! ### The halves of a packed checksum -/

/-- The low half as a number (R210). -/
theorem loHalf_eq (c : Word) : loHalf c = c.toNat % 65536 := by
  rw [loHalf, BitVec.extractLsb'_toNat, Nat.shiftRight_zero]

/-- The high half as a number (R210). -/
theorem hiHalf_eq (c : Word) : hiHalf c = c.toNat / 65536 := by
  rw [hiHalf, BitVec.extractLsb'_toNat, Nat.shiftRight_eq_div_pow]
  exact Nat.mod_eq_of_lt (Nat.div_lt_of_lt_mul c.isLt)

theorem packHalves_toNat {lo hi : Nat} (hlo : lo < adlerBase) (hhi : hi < adlerBase) :
    (packHalves lo hi).toNat = lo + 65536 * hi := by
  unfold adlerBase at hlo hhi
  simp only [packHalves, toNat_append_add, BitVec.toNat_ofNat]
  omega

theorem loHalf_packHalves {lo hi : Nat} (hlo : lo < adlerBase) (hhi : hi < adlerBase) : loHalf (packHalves lo hi) = lo := by
  rw [loHalf_eq, packHalves_toNat hlo hhi]
  unfold adlerBase at hlo
  omega

theorem hiHalf_packHalves {lo hi : Nat} (hlo : lo < adlerBase) (hhi : hi < adlerBase) : hiHalf (packHalves lo hi) = hi := by
  rw [hiHalf_eq, packHalves_toNat hlo hhi]
  unfold adlerBase at hlo
  omega

/-! ### The combination -/

theorem loHalf_combine (c1 c2 n : Word) :
    loHalf (combine c1 c2 n) = (loHalf c1 + loHalf c2 + adlerBase - 1) % adlerBase :=
  loHalf_packHalves (Nat.mod_lt _ (by decide)) (Nat.mod_lt _ (by decide))

theorem hiHalf_combine (c1 c2 n : Word) :
    hiHalf (combine c1 c2 n) =
      (hiHalf c1 + hiHalf c2 + n.toNat % adlerBase * loHalf c1 + adlerBase - n.toNat % adlerBase) % adlerBase :=
  hiHalf_packHalves (Nat.mod_lt _ (by decide)) (Nat.mod_lt _ (by decide))

/-- Both halves of a combination are below BASE, whatever the operands (R212). -/
theorem canonical_combine (c1 c2 n : Word) : Canonical (combine c1 c2 n) :=
  canonical_packHalves (Nat.mod_lt _ (by decide)) (Nat.mod_lt _ (by decide))

/-- Settles O50: each half of the combination is what was packed there. -/
theorem combineFormula : Obligations.CombineFormula := by
  intro c1 c2 n lo1 hi1 lo2 hi2 r
  have hlo := loHalf_combine c1 c2 n
  have hhi := hiHalf_combine c1 c2 n
  simp only [loHalf_eq, hiHalf_eq] at hlo hhi
  exact ⟨hlo, hhi, canonical_combine c1 c2 n⟩

/-! ### The closed form -/

theorem adlerLo_lt (s : List Byte) : adlerLo s < adlerBase := Nat.mod_lt _ (by decide)

theorem adlerHi_lt (s : List Byte) : adlerHiSum s % adlerBase < adlerBase := Nat.mod_lt _ (by decide)

/-- The closed form packs its two halves (R210). -/
theorem adlerOf_eq_packHalves (s : List Byte) : adlerOf s = packHalves (adlerLo s) (adlerHiSum s % adlerBase) := by
  apply BitVec.eq_of_toNat_eq
  have hlo := adlerLo_lt s
  have hhi := adlerHi_lt s
  rw [packHalves_toNat hlo hhi, adlerOf, BitVec.toNat_ofNat]
  unfold adlerBase at *
  omega

@[simp] theorem loHalf_adlerOf (s : List Byte) : loHalf (adlerOf s) = adlerLo s := by
  rw [adlerOf_eq_packHalves, loHalf_packHalves (adlerLo_lt s) (adlerHi_lt s)]

@[simp] theorem hiHalf_adlerOf (s : List Byte) : hiHalf (adlerOf s) = adlerHiSum s % adlerBase := by
  rw [adlerOf_eq_packHalves, hiHalf_packHalves (adlerLo_lt s) (adlerHi_lt s)]

/-- Each byte of the first string counts once more for each byte of the second (R210). -/
theorem adlerHiSum_append (s t : List Byte) :
    adlerHiSum (s ++ t) = adlerHiSum s + adlerHiSum t + t.length * (s.map BitVec.toNat).sum := by
  induction s with
  | nil => simp [adlerHiSum]
  | cons b s ih =>
    simp only [List.cons_append, adlerHiSum, ih, List.length_append, List.map_cons, List.sum_cons]
    ring

/-! ### The incremental update -/

/-- One byte more: the low half (R211). -/
theorem adlerLo_concat (s : List Byte) (b : Byte) : adlerLo (s ++ [b]) = (adlerLo s + b.toNat) % adlerBase := by
  simp [adlerLo, adlerBase, Nat.add_assoc]

/-- One byte more: the high half takes the new low half (R211). -/
theorem adlerHi_concat (s : List Byte) (b : Byte) :
    adlerHiSum (s ++ [b]) % adlerBase = (adlerHiSum s % adlerBase + adlerLo (s ++ [b])) % adlerBase := by
  have hsum : adlerHiSum (s ++ [b]) = adlerHiSum s + (1 + ((s ++ [b]).map BitVec.toNat).sum) := by
    simp +arith [adlerHiSum_append, adlerHiSum]
  rw [hsum, Nat.add_mod]
  simp [adlerLo, adlerBase]

/-- The loop of `AdlerUpdate` carries the closed form's halves along (R211). -/
theorem adlerFold_closedForm (s t : List Byte) :
    adlerFold (adlerLo s) (adlerHiSum s % adlerBase) t = (adlerLo (s ++ t), adlerHiSum (s ++ t) % adlerBase) := by
  induction t generalizing s with
  | nil => rw [List.append_nil]; rfl
  | cons b t ih =>
    rw [adlerFold, ← adlerLo_concat, ← adlerHi_concat, ih, List.append_assoc]
    rfl

theorem adlerUpdate_adlerOf (s t : List Byte) : adlerUpdate (adlerOf s) t = adlerOf (s ++ t) := by
  rw [adlerUpdate, loHalf_adlerOf, hiHalf_adlerOf, adlerFold_closedForm, ← adlerOf_eq_packHalves]

/-- Settles O52: 0x00000001 is the checksum of the empty string. -/
theorem adlerIncremental : Obligations.AdlerIncremental :=
  ⟨adlerUpdate_adlerOf [], adlerUpdate_adlerOf⟩

/-! ### Concatenation -/

/-- The low half counts its starting 1 in both checksums (R214). -/
theorem adlerLo_append (s t : List Byte) : adlerLo (s ++ t) = (adlerLo s + adlerLo t + adlerBase - 1) % adlerBase := by
  simp only [adlerLo, adlerBase, List.map_append, List.sum_append]
  omega

/-- The high half of the combination: `r` copies of the first string's low half hold `r` ones too many (R214). -/
theorem adlerHi_append (s t : List Byte) :
    adlerHiSum (s ++ t) % adlerBase =
      (adlerHiSum s % adlerBase + adlerHiSum t % adlerBase + t.length % adlerBase * adlerLo s + adlerBase
        - t.length % adlerBase) % adlerBase := by
  have hr : t.length % adlerBase ≤ adlerBase := (Nat.mod_lt _ (by decide)).le
  have hlo : adlerLo s ≡ 1 + (s.map BitVec.toNat).sum [MOD adlerBase] := Nat.mod_modEq _ _
  refine Nat.ModEq.add_right_cancel' (t.length % adlerBase) ?_
  rw [Nat.sub_add_cancel (hr.trans (Nat.le_add_left _ _)), adlerHiSum_append]
  calc adlerHiSum s + adlerHiSum t + t.length * (s.map BitVec.toNat).sum + t.length % adlerBase
    _ ≡ adlerHiSum s + adlerHiSum t + t.length * (s.map BitVec.toNat).sum + t.length [MOD adlerBase] :=
        (Nat.mod_modEq _ _).add_left _
    _ = adlerHiSum s + adlerHiSum t + t.length * (1 + (s.map BitVec.toNat).sum) := by ring
    _ ≡ adlerHiSum s % adlerBase + adlerHiSum t % adlerBase + t.length % adlerBase * adlerLo s [MOD adlerBase] :=
        (((Nat.mod_modEq _ _).add (Nat.mod_modEq _ _)).add ((Nat.mod_modEq _ _).mul hlo)).symm
    _ ≡ adlerHiSum s % adlerBase + adlerHiSum t % adlerBase + t.length % adlerBase * adlerLo s + adlerBase [MOD adlerBase] :=
        (Nat.add_modulus_modEq_iff.2 rfl).symm

/-- Combining two checksums with the second's length (R214, law 1). -/
theorem combine_adlerOf (s : List Byte) {t : List Byte} (ht : t.length < 4294967296) :
    combine (adlerOf s) (adlerOf t) (BitVec.ofNat 32 t.length) = adlerOf (s ++ t) := by
  have hn : (BitVec.ofNat 32 t.length).toNat = t.length := Nat.mod_eq_of_lt ht
  rw [adlerOf_eq_packHalves (s ++ t), adlerLo_append, adlerHi_append, combine, hn]
  simp only [loHalf_adlerOf, hiHalf_adlerOf]

/-- Settles O51: each segment of the fold extends the string whose checksum it has so far. -/
theorem combineConcatenates : Obligations.CombineConcatenates := by
  refine ⟨fun s t => combine_adlerOf s, fun first segs hlen => ?_⟩
  induction segs generalizing first with
  | nil => rw [List.flatten_nil, List.append_nil]; rfl
  | cons g segs ih =>
    rw [List.forall_mem_cons] at hlen
    rw [List.foldl_cons, combine_adlerOf first hlen.1, ih _ hlen.2, List.append_assoc]
    rfl

end Sys2Proof.Machine
end

-- ==== Proofs: the checksum combiner ====
section
/-! The checksum combiner's seven commands (R215 to R221): each assigns registers, or TRL_CHK refuses. -/

namespace Sys2Proof.Machine

/-- Settles O47: the three commands assign without a check. -/
theorem checksumStarts : Obligations.ChecksumStarts :=
  ⟨decode_encode .cmbInit, decode_encode .cmbLoad, decode_encode .adlInit, fun _ =>
    ⟨exec_assigns (i := .cmbInit) rfl, exec_assigns (i := .cmbLoad) rfl, exec_assigns (i := .adlInit) rfl⟩⟩

/-! ### NCANON -/

/-- The operands NCANON notes are those that are not canonical (R213). -/
theorem nonCanonical_eq (c : Word) : nonCanonical c = !decide (Canonical c) := by
  rw [nonCanonical, loHalf_eq, hiHalf_eq, Bool.decide_and, Bool.not_and, ← decide_not, ← decide_not]
  simp only [Nat.not_lt]
  rfl

/-- A combination of two operands notes when they are not both canonical (R213). -/
theorem nonCanonical_or (c d : Word) : (nonCanonical c || nonCanonical d) = !decide (Canonical c ∧ Canonical d) := by
  rw [nonCanonical_eq, nonCanonical_eq, Bool.decide_and (Canonical c), Bool.not_and]

/-! ### CMB_FOLD, CMB_PAIR and ADL_FOLD -/

/-- Settles O48: the branches of the two folds by ACC_VALID, and CMB_PAIR, which has none. -/
theorem combiningCommands : Obligations.CombiningCommands := by
  refine ⟨decode_encode .cmbFold, decode_encode .cmbPair, decode_encode .adlFold, fun s => ?_⟩
  intro x
  refine ⟨fun hacc => ⟨?_, ?_⟩, fun hacc => ⟨?_, ?_⟩, ?_⟩
  · exact exec_assigns (i := .cmbFold) (if_pos hacc)
  · exact exec_assigns (i := .adlFold) (if_pos hacc)
  · rw [← nonCanonical_or]
    exact exec_assigns (i := .cmbFold) (if_neg (ne_false_of_eq_true hacc))
  · rw [← nonCanonical_eq]
    exact exec_assigns (i := .adlFold) (if_neg (ne_false_of_eq_true hacc))
  · rw [← nonCanonical_or]
    exact exec_assigns (i := .cmbPair) rfl

/-! ### TRL_CHK -/

/-- Settles O49: the branches of TRL_CHK, in the order of its checks. -/
theorem trlChkRule : Obligations.TrlChkRule := by
  refine ⟨decode_encode (.trlChk false false), decode_encode (.trlChk true false),
    decode_encode (.trlChk false true), decode_encode (.trlChk true true), fun s sel e => ?_⟩
  intro x v
  refine ⟨fun hsel hacc => ?_, fun hhas => ?_⟩
  · exact exec_refuses (i := .trlChk sel e) (if_pos ⟨hsel, hacc⟩)
  have hcompare : reportOf (.trlChk sel e) s.view = _ := if_neg (not_and_or.2 (hhas.imp ne_false_of_eq_true ne_false_of_eq_true))
  refine ⟨fun hne he => ?_, fun hne he => ?_, fun heq => ?_⟩
  · exact exec_refuses (hcompare.trans (if_pos ⟨hne, he⟩))
  · rw [← decide_eq_false hne]
    exact exec_assigns (hcompare.trans (if_neg fun h => ne_true_of_eq_false he h.2))
  · rw [← decide_eq_true heq]
    exact exec_assigns (hcompare.trans (if_neg fun h => h.1 heq))

end Sys2Proof.Machine
end

-- ==== Proofs: the life cycle of a command ====
section
/-! From issue to completion: the step that runs the command in flight (R246, R248), and the two ways it ends (R247, R270). -/

namespace Sys2Proof.Machine

variable {s : State}

/-- The completion event is the completion step, whatever else is scheduled (R246). -/
theorem step_complete {rest : List Event} (hw : s.cfg.wellFormed = true) (hs : s.sched = .complete :: rest) :
    step s = complete { s with sched := rest } :=
  step_cons hw hs

/-- A wait while a command is in flight is the completion step at the same state: the wait stands (log 15). -/
theorem step_wait {rest : List Event} (hw : s.cfg.wellFormed = true) (hs : s.sched = .wait :: rest)
    (hb : s.regs.busy = true) : step s = complete s := by
  have hwait := happen_wait_busy (s := { s with sched := rest }) hb
  rw [step_cons hw hs, hwait, ← hs]

/-- The host's probe places a 32-bit word whole (log 8). -/
theorem withFetchWord_word (s : State) (w : Word) : s.withFetchWord 32 w.toNat = placeCommand s w := by
  rw [State.withFetchWord, Nat.mod_eq_of_lt w.isLt, ofNat_toNat_self]

/-- Settles O6: each of the three schedules, and the one a placed command makes, has the completion step next. -/
theorem stepRunsTheCommand : Obligations.StepRunsTheCommand := by
  refine ⟨fun s l i hw hl hd => ⟨fun hs => ?_, fun rest hs => ?_, fun rest hs hb => ?_⟩, fun s w i hw hd => ?_⟩
  · rw [step_nil hw hs, complete_of_decode hl hd]
  · rw [step_complete hw hs]
    exact complete_of_decode (s := { s with sched := rest }) hl hd
  · rw [step_wait hw hs hb, complete_of_decode hl hd]
  · rw [withFetchWord_word, step_complete (s := placeCommand s w) hw rfl]
    exact complete_of_decode (s := s.accept w) (s.accept_latch w) hd

/-- Settles O22: NOP's report assigns nothing. -/
theorem nopCompletes : Obligations.NopCompletes :=
  ⟨decode_encode .nop, fun _ => exec_assigns (i := .nop) rfl⟩

/-- CODE is one of the nine classes (R260). -/
theorem errCode_bounds (k : ErrKind) : 1 ≤ (errCode k).toNat ∧ (errCode k).toNat ≤ 9 := by
  cases k <;> simp [errCode]

/-- No class has more than eight details (R261 to R269). -/
theorem errDetail_le (k : ErrKind) : (errDetail k).toNat ≤ 8 := by
  cases k with
  | framing d | profile d | descriptor d | chunkType d | illegal d | range d | bus d => cases d <;> decide
  | filter | accInvalid => decide

/-- The registers of a recorded error, in the numbers the spec gives it (R270, R271). -/
theorem takeError_regs_eq_failedRegs (s : State) (e : Err) (o : Range) :
    (s.takeError e o).regs = s.failedRegs (errCode e.kind).toNat (errDetail e.kind).toNat e.addr e.data := by
  rw [State.takeError_regs, State.failedRegs, errInfo_eq]

/-- Settles O18: the report either is an error, which is recorded, or a commit, whose frame holds no error register. -/
theorem completionOutcome : Obligations.CompletionOutcome := by
  intro i s
  have hcfg := conclude_cfg s (reportOf i s.view)
  have hsched := conclude_sched s (reportOf i s.view)
  have hreply := conclude_reply s (reportOf i s.view)
  cases hr : (reportOf i s.view).result with
  | error e =>
    obtain ⟨hlo, hhi⟩ := errCode_bounds e.kind
    have hregs := takeError_regs_eq_failedRegs s e (reportOf i s.view).output
    rw [← conclude_error s _ hr] at hregs
    refine ⟨_, exec_eq i s, conclude_latch _ _, by rw [hregs]; rfl, hcfg, hsched, hreply,
      .inr ⟨_, _, hlo, hhi, errDetail_le e.kind, ?_⟩⟩
    rw [hregs]; rfl
  | ok c =>
    have hregs := conclude_regs s _ hr
    obtain ⟨herr, hinfo, haddr, hdata⟩ := (conclude_frame hr).errors
    exact ⟨_, exec_eq i s, conclude_latch _ _, by rw [hregs]; rfl, hcfg, hsched, hreply,
      .inl ⟨by rw [hregs]; rfl, herr, hinfo, haddr, hdata⟩⟩

end Sys2Proof.Machine
end

-- ==== Proofs: the register window ====
section
/-! What an aligned 32-bit access of the window does: a host read (R241), and a host write of each kind of offset, with BUSY = 0
(R242) and BUSY = 1 (R245). -/

namespace Sys2Proof.Machine

variable {s : State} {off : Nat} {v : Word} {rest : List Event}

/-! ### Reads -/

/-- An aligned 32-bit read of the window answers its register (R241). -/
theorem hostRead_aligned (s : State) (ho : off < 256) (h4 : off % 4 = 0) :
    s.hostRead (s.cfg.regBase + off) .w32 = { s with reply := .word (readOffset s.regs off) } := by
  have hal : alignedWord off .w32 = true := by simp [alignedWord, h4]
  rw [State.hostRead, if_pos (inWindow_offset s.cfg ho), Nat.add_sub_cancel_left, windowAnswer, if_pos hal]

/-- Settles O14: the read is answered in `reply`, and the offsets of R30 are the cases of `readOffset`. -/
theorem hostReadAnswers : Obligations.HostReadAnswers := by
  refine ⟨fun s off rest hw ho h4 hs => ?_, fun r => ?_⟩
  · rw [step_cons hw hs]
    exact congrArg Host.Outcome.next (hostRead_aligned { s with sched := rest } ho h4)
  · and_intros <;> rfl

/-! ### Writes to CTRL, STATUS and CMD -/

/-- A write to CTRL with bit 31 clear sets the enables and DESC_OPT, busy or not (R32). -/
theorem step_writeCtrl_enables (hw : s.cfg.wellFormed = true) (hs : s.sched = .regWrite (s.cfg.regBase + 0x08) .w32 v :: rest)
    (hv : v.getLsbD 31 = false) :
    step s = .next { s with sched := rest, regs := { s.regs with
      irqDoneEn := v.getLsbD 0, irqErrEn := v.getLsbD 1, descOpt := v.getLsbD 2 } } := by
  rw [step_regWrite hw (by decide) (by decide) hs]
  exact congrArg Host.Outcome.next (writeCtrl_enables hv)

/-- A write to CTRL with bit 31 set resets the block, busy or not (R300). -/
theorem step_writeCtrl_resets (hw : s.cfg.wellFormed = true) (hs : s.sched = .regWrite (s.cfg.regBase + 0x08) .w32 v :: rest)
    (hv : v.getLsbD 31 = true) : ∃ t, step s = .next t ∧ t.regs = Regs.reset ∧ t.latch = none ∧ t.sched = rest := by
  have hstep := step_regWrite hw (by decide) (by decide) hs
  exact ⟨_, hstep.trans (congrArg Host.Outcome.next (writeCtrl_resets hv)), rfl, rfl, State.resetBlock_sched _ _⟩

/-- A write to STATUS clears the W1C fields whose bit is 1, busy or not (R33). -/
theorem step_writeStatus (hw : s.cfg.wellFormed = true) (hs : s.sched = .regWrite (s.cfg.regBase + 0x0C) .w32 v :: rest) :
    step s = .next { s with sched := rest, regs := s.regs.clearStatus v } :=
  step_regWrite hw (by decide) (by decide) hs

/-- A write to CMD with BUSY = 0 and ERR = 0 issues the word (R243). -/
theorem step_writeCmd_issues (hw : s.cfg.wellFormed = true) (hs : s.sched = .regWrite (s.cfg.regBase + 0x10) .w32 v :: rest)
    (hb : s.regs.busy = false) (he : s.regs.err = false) : step s = .next ({ s with sched := rest }.accept v) := by
  rw [step_regWrite hw (by decide) (by decide) hs]
  exact congrArg Host.Outcome.next (writeCmd_issues hb he)

/-- A write to CMD with BUSY = 1 or ERR = 1 only sets CMDOVR (R244). -/
theorem step_writeCmd_discards (hw : s.cfg.wellFormed = true) (hs : s.sched = .regWrite (s.cfg.regBase + 0x10) .w32 v :: rest)
    (h : s.regs.busy = true ∨ s.regs.err = true) :
    step s = .next { s with sched := rest, regs := { s.regs with cmdovr := true } } := by
  rw [step_regWrite hw (by decide) (by decide) hs]
  exact congrArg Host.Outcome.next (writeCmd_discards h)

/-- Settles O8: the word is accepted. -/
theorem cmdWriteIssues : Obligations.CmdWriteIssues :=
  fun _ _ _ hw hb he hs => step_writeCmd_issues hw hs hb he

/-- Settles O9: the word is discarded. -/
theorem cmdWriteIsDiscarded : Obligations.CmdWriteIsDiscarded :=
  fun _ _ _ hw h hs => step_writeCmd_discards hw hs h

/-! ### Writes while BUSY = 1 -/

/-- With BUSY = 1 only CTRL, STATUS and CMD answer a write (R245). -/
theorem writeOffset_busy (hb : s.regs.busy = true) (hctrl : off ≠ 0x08) (hstatus : off ≠ 0x0C) (hcmd : off ≠ 0x10) :
    s.writeOffset off v = s := by
  unfold State.writeOffset
  split
  · exact absurd rfl hctrl
  · exact absurd rfl hstatus
  · exact absurd rfl hcmd
  · exact if_pos hb

/-- Settles O10: CTRL, STATUS and CMD by their own rules, every other offset ignored. -/
theorem writesWhileBusy : Obligations.WritesWhileBusy := by
  intro s off v rest hw hb ho h4 hs
  refine ⟨?_, ?_, ?_, ?_, fun hctrl hstatus hcmd => ?_⟩
  · rintro rfl
    exact step_writeCtrl_enables hw hs
  · rintro rfl
    exact step_writeCtrl_resets hw hs
  · rintro rfl
    exact step_writeStatus hw hs
  · rintro rfl
    exact step_writeCmd_discards hw hs (.inl hb)
  · rw [step_regWrite hw ho h4 hs]
    exact congrArg Host.Outcome.next (writeOffset_busy hb hctrl hstatus hcmd)

/-! ### Writes while BUSY = 0 -/

/-- The offsets of the fourteen RW registers (R30). -/
abbrev rwOffsets : List Nat := [0x20, 0x24, 0x28, 0x2C, 0x30, 0x34, 0x38, 0x40, 0x44, 0x48, 0x4C, 0x50, 0x54, 0x58]

/-- The offset of an RW register reads what was written there (R242). -/
theorem readOffset_writeOperand_self (r : Regs) (v : Word) (h : off ∈ rwOffsets) :
    readOffset (writeOperand r off v) off = v := by
  simp only [List.mem_cons, List.not_mem_nil, or_false] at h
  rcases h with rfl | rfl | rfl | rfl | rfl | rfl | rfl | rfl | rfl | rfl | rfl | rfl | rfl | rfl <;> rfl

/-- A write of an RW register leaves every other offset as it read (R242). -/
theorem readOffset_writeOperand_other (r : Regs) (v : Word) {o : Nat} (h : o ≠ off) :
    readOffset (writeOperand r off v) o = readOffset r o := by
  by_contra hne
  have hchange := readOffset_changes hne
  unfold writeOperand at hchange
  split at hchange <;>
    simp only [Regs.ctrlWord, Regs.statusWord, Regs.irq, ne_eq, not_true_eq_false, and_false, false_or, or_false] at hchange
  all_goals exact h hchange.1

/-- With BUSY = 0 the register at an RW offset takes the value (R242). -/
theorem step_writeOperand (hw : s.cfg.wellFormed = true) (hb : s.regs.busy = false)
    (hs : s.sched = .regWrite (s.cfg.regBase + off) .w32 v :: rest) (h : off ∈ rwOffsets) :
    step s = .next { s with sched := rest, regs := writeOperand s.regs off v } := by
  have hoff : off < 256 ∧ off % 4 = 0 ∧ off ≠ 0x08 ∧ off ≠ 0x0C ∧ off ≠ 0x10 := by
    simp only [List.mem_cons, List.not_mem_nil, or_false] at h
    omega
  obtain ⟨ho, h4, hctrl, hstatus, hcmd⟩ := hoff
  rw [step_regWrite hw ho h4 hs]
  exact congrArg Host.Outcome.next (writeOffset_idle hb hctrl hstatus hcmd)

/-- A write of an RO register, ID, VERSION or a reserved offset, aligned or not, has no effect (R60, R85, R242). -/
theorem step_regWrite_ignored (hw : s.cfg.wellFormed = true) (hs : s.sched = .regWrite (s.cfg.regBase + off) .w32 v :: rest)
    (h : off ∈ [0x00, 0x04, 0x14, 0x18, 0x1C, 0x3C, 0x5C, 0x60, 0x64, 0x68, 0x6C, 0x70] ∨ (0x74 ≤ off ∧ off < 256)) :
    step s = .next { s with sched := rest } := by
  by_cases h4 : off % 4 = 0
  · exact readOnlyAndReserved.1 s off v rest hw h4 h hs
  · have ho : off < 256 := by
      simp only [List.mem_cons, List.not_mem_nil, or_false] at h
      omega
    exact (oddAccessesDoNothing s off .w32 v rest hw ho (.inr h4)).1 hs

/-- Settles O11: the fourteen RW registers are the cases of `writeOperand`; CTRL, STATUS and CMD have their own rules. -/
theorem writesWhileIdle : Obligations.WritesWhileIdle := by
  intro s off v rest hw hb hs takes
  have writes {o : Nat} (hrw : o ∈ rwOffsets) (h : off = o) : takes (writeOperand s.regs o v) := by
    subst h
    exact step_writeOperand hw hb hs hrw
  refine ⟨writes (by decide), writes (by decide), writes (by decide), writes (by decide), writes (by decide),
    writes (by decide), writes (by decide), writes (by decide), writes (by decide), writes (by decide), writes (by decide),
    writes (by decide), writes (by decide), writes (by decide), fun hrw => ?_, ?_, ?_, ?_, ?_, ?_, step_regWrite_ignored hw hs⟩
  · exact ⟨_, writes hrw rfl, readOffset_writeOperand_self _ _ hrw, fun _ => readOffset_writeOperand_other _ _, rfl, rfl, rfl⟩
  · rintro rfl
    exact step_writeCtrl_enables hw hs
  · rintro rfl
    exact step_writeCtrl_resets hw hs
  · rintro rfl
    exact step_writeStatus hw hs
  · rintro rfl he
    exact ⟨⟨v, s.regs⟩, rfl, step_writeCmd_issues hw hs hb he⟩
  · rintro rfl he
    exact step_writeCmd_discards hw hs (.inr he)

end Sys2Proof.Machine
end

-- ==== Proofs: what a command's result depends on ====
section
/-! A command's report is the same on two memories that hold the same bytes in the ranges the command reads (R246): first for
the shared reading operations, then command by command (`reportOf_congr`). -/

namespace Sys2Proof.Machine

/-- The view on another memory. -/
def View.withMem (v : View) (m : Memory) : View := { v with mem := m }

@[simp] theorem View.withMem_x (v : View) (m : Memory) : (v.withMem m).x = v.x := rfl

@[simp] theorem View.withMem_cfg (v : View) (m : Memory) : (v.withMem m).cfg = v.cfg := rfl

@[simp] theorem View.withMem_mem (v : View) (m : Memory) : (v.withMem m).mem = m := rfl

/-- The two memories hold the same byte at every address of the range. -/
abbrev SameOn (m m' : Memory) (r : Range) : Prop := ∀ a, r.has a = true → Memory.get m a = Memory.get m' a

/-- The two memories hold the same bytes in each of the ranges. -/
abbrev SameOnAll (m m' : Memory) (rs : List Range) : Prop := ∀ r ∈ rs, SameOn m m' r

variable {v : View} {m m' : Memory} {a n b k p stop rb rows src dst : Nat}

/-! ### Byte strings -/

theorem SameOn.part (h : SameOn m m' ⟨a, n⟩) (hlo : a ≤ b) (hhi : b + k ≤ a + n) : SameOn m m' ⟨b, k⟩ := by
  intro c hc
  refine h c ?_
  simp only [Range.has, Bool.and_eq_true, decide_eq_true_eq] at hc ⊢
  omega

theorem SameOn.bytes (h : SameOn m m' ⟨a, n⟩) : Memory.bytes m a n = Memory.bytes m' a n :=
  Memory.bytes_congr fun j hj => h (a + j) (by simp [Range.has, hj])

/-- Whether a read is refused does not depend on memory, and its answer on the bytes it reads only (R83). -/
theorem memRead_congr (h : SameOn m v.mem ⟨a, n⟩) : memRead (v.withMem m) a n = memRead v a n := by
  unfold memRead
  rw [View.withMem_cfg, View.withMem_mem, h.bytes]

/-! ### Chunks -/

/-- The header is among the bytes ChunkRead reads (R134). -/
theorem SameOnAll.header (h : SameOnAll m v.mem (chunkReads v p stop)) (h8 : ¬ stop < p + 8) :
    SameOn m v.mem ⟨p, 8⟩ := by
  revert h
  unfold chunkReads
  rw [if_neg h8]
  split
  · exact fun h => h _ (List.mem_singleton_self _)
  · split
    · exact fun h => h _ (List.mem_singleton_self _)
    · exact fun h => (h _ (List.mem_singleton_self _)).part (Nat.le_refl p) (by omega)

/-- Past the length checks ChunkRead reads the whole chunk (R134). -/
theorem SameOnAll.chunk {hd : List Byte} (h : SameOnAll m v.mem (chunkReads v p stop)) (h8 : ¬ stop < p + 8)
    (hh : memRead v p 8 = .ok hd) (hn : ¬ stop < p + 12 + (u32be hd 0).toNat) :
    SameOn m v.mem ⟨p, 12 + (u32be hd 0).toNat⟩ := by
  refine h _ ?_
  unfold chunkReads
  rw [if_neg h8, hh]
  dsimp only
  rw [if_neg hn]
  exact List.mem_singleton_self _

theorem chunkReads_congr (h : SameOnAll m v.mem (chunkReads v p stop)) :
    chunkReads (v.withMem m) p stop = chunkReads v p stop := by
  unfold chunkReads
  split
  · rfl
  · next h8 => rw [memRead_congr (h.header h8)]

theorem chunkRead_congr (h : SameOnAll m v.mem (chunkReads v p stop)) :
    chunkRead (v.withMem m) p stop = chunkRead v p stop := by
  unfold chunkRead
  split
  · rfl
  next h8 =>
  rw [memRead_congr (h.header h8)]
  split
  · rfl
  next hd hh =>
  dsimp only
  split
  · rfl
  next hn => rw [memRead_congr ((h.chunk h8 hh hn).part (Nat.le_add_right p 8) (by omega))]

/-! ### The scan of the header -/

/-- What HDR_SCAN makes of a chunk it has read does not depend on memory (R145). -/
@[simp] theorem scanChunk_withMem (v : View) (m : Memory) (p n : Nat) (c : Chunk) :
    scanChunk (v.withMem m) p n c = scanChunk v p n c := rfl

/-- A chunk is skipped whatever number of chunks was skipped before it (R145). -/
theorem scanChunk_skip_any {c : Chunk} (h : scanChunk v p n c = .ok none) (k : Nat) : scanChunk v p k c = .ok none := by
  unfold scanChunk at h ⊢
  split_ifs at h ⊢ <;> simp at h ⊢

theorem scanReads_congr {fuel : Nat} (h : SameOnAll m v.mem (scanReads v fuel p)) :
    scanReads (v.withMem m) fuel p = scanReads v fuel p := by
  induction fuel generalizing p with
  | zero => rfl
  | succ j ih =>
    unfold scanReads at h ⊢
    obtain ⟨hchunk, hrest⟩ := List.forall_mem_append.1 h
    rw [View.withMem_x, chunkReads_congr hchunk, chunkRead_congr hchunk]
    cases hc : chunkRead v p v.x.srcEnd.toNat with
    | error e => rfl
    | ok c =>
      rw [hc] at hrest
      simp only [scanChunk_withMem]
      split
      · next hs =>
        simp only [hs] at hrest
        rw [ih hrest]
      · rfl

theorem scanFrom_congr {fuel : Nat} (h : SameOnAll m v.mem (scanReads v fuel p)) :
    scanFrom (v.withMem m) fuel p n = scanFrom v fuel p n := by
  induction fuel generalizing p n with
  | zero => rfl
  | succ j ih =>
    unfold scanReads at h
    obtain ⟨hchunk, hrest⟩ := List.forall_mem_append.1 h
    unfold scanFrom
    rw [View.withMem_x, chunkRead_congr hchunk]
    cases hc : chunkRead v p v.x.srcEnd.toNat with
    | error e => rfl
    | ok c =>
      simp only [scanChunk_withMem]
      split
      · rfl
      · rfl
      · next hs =>
        simp only [hc, scanChunk_skip_any hs 0] at hrest
        exact ih hrest

/-! ### Rows -/

/-- The row loop of SCAN_FRAME reads `rows * rb` bytes (R182). -/
theorem frameRows_congr (h : SameOn m v.mem ⟨src, rb * rows⟩) :
    frameRows (v.withMem m) rb rows src dst = frameRows v rb rows src dst := by
  induction rows generalizing src dst with
  | zero => rfl
  | succ j ih =>
    rw [Nat.mul_succ] at h
    unfold frameRows
    rw [memRead_congr (h.part (Nat.le_refl src) (by omega)), View.withMem_cfg, ih (h.part (by omega) (by omega))]

/-- A row of SCAN_UNFRAME is its filter byte and `rb` pixel bytes (R186). -/
theorem unframeRow_congr (h : SameOn m v.mem ⟨src, rb + 1⟩) : unframeRow (v.withMem m) rb src = unframeRow v rb src := by
  unfold unframeRow
  rw [memRead_congr (h.part (Nat.le_refl src) (by omega)), memRead_congr (h.part (Nat.le_add_right src 1) (by omega))]

/-- The row loop of SCAN_UNFRAME reads `rows` rows (R186). -/
theorem unframeRows_congr (h : SameOn m v.mem ⟨src, rows * (rb + 1)⟩) :
    unframeRows (v.withMem m) rb rows src dst = unframeRows v rb rows src dst := by
  induction rows generalizing src dst with
  | zero => rfl
  | succ j ih =>
    rw [Nat.succ_mul] at h
    unfold unframeRows
    rw [unframeRow_congr (h.part (Nat.le_refl src) (by omega)), View.withMem_cfg, ih (h.part (by omega) (by omega))]

/-- Whether SCAN_UNFRAME reaches its output depends on its first row only (log 4). -/
theorem unframeOutput_congr (h : SameOn m v.mem ⟨src, rows * (rb + 1)⟩) :
    unframeOutput (v.withMem m) rb rows src dst = unframeOutput v rb rows src dst := by
  cases rows with
  | zero => rfl
  | succ j =>
    rw [Nat.succ_mul] at h
    unfold unframeOutput
    rw [unframeRow_congr (h.part (Nat.le_refl src) (by omega))]

/-! ### Reports -/

/-- A check of the operands falls out alike on the two memories, so the reports behind it are what is left to compare. -/
theorem Report.congr_behind_check {c : Prop} [Decidable c] {e : Err} {q r : Report}
    (h : ¬ c → SameOnAll m m' r.input → q = r) :
    SameOnAll m m' (if c then .refuse e else r).input → (if c then .refuse e else q) = if c then .refuse e else r := by
  by_cases hc : c
  · exact fun _ => by rw [if_pos hc, if_pos hc]
  · rw [if_neg hc, if_neg hc]
    exact h hc

theorem reportMagicChk_congr :
    SameOnAll m v.mem (reportMagicChk v).input → reportMagicChk (v.withMem m) = reportMagicChk v := by
  unfold reportMagicChk
  refine Report.congr_behind_check fun _ h => ?_
  rw [Report.reads_input] at h
  rw [View.withMem_x, memRead_congr (h _ (List.mem_singleton_self _))]

theorem reportChunkGet_congr (h : SameOnAll m v.mem (reportChunkGet v).input) :
    reportChunkGet (v.withMem m) = reportChunkGet v := by
  unfold reportChunkGet at h ⊢
  rw [Report.reads_input] at h
  rw [View.withMem_x, View.withMem_cfg, chunkReads_congr h, chunkRead_congr h]

theorem reportIhdrGet_congr (h : SameOnAll m v.mem (reportIhdrGet v).input) :
    reportIhdrGet (v.withMem m) = reportIhdrGet v := by
  unfold reportIhdrGet at h ⊢
  rw [Report.reads_input] at h
  rw [View.withMem_x, chunkReads_congr h, chunkRead_congr h]

theorem reportDataGet_congr (h : SameOnAll m v.mem (reportDataGet v).input) :
    reportDataGet (v.withMem m) = reportDataGet v := by
  unfold reportDataGet at h ⊢
  dsimp only at h ⊢
  rw [Report.reads_input] at h
  rw [View.withMem_x, chunkReads_congr h, chunkRead_congr h]

theorem reportHdrScan_congr (h : SameOnAll m v.mem (reportHdrScan v).input) :
    reportHdrScan (v.withMem m) = reportHdrScan v := by
  unfold reportHdrScan at h ⊢
  rw [Report.reads_input] at h
  rw [View.withMem_x, scanReads_congr h, scanFrom_congr h]
  rfl

theorem reportChunkPut_congr :
    SameOnAll m v.mem (reportChunkPut v).input → reportChunkPut (v.withMem m) = reportChunkPut v := by
  unfold reportChunkPut
  refine Report.congr_behind_check fun _ => Report.congr_behind_check fun _ h => ?_
  rw [View.withMem_x, memRead_congr (h _ (by split <;> simp)), View.withMem_cfg]

theorem reportMergePiece_congr {f l : Bool} :
    SameOnAll m v.mem (reportMergePiece f l v).input → reportMergePiece f l (v.withMem m) = reportMergePiece f l v := by
  unfold reportMergePiece
  refine Report.congr_behind_check fun _ => Report.congr_behind_check fun _ => Report.congr_behind_check fun _ =>
    Report.congr_behind_check fun _ h => ?_
  rw [View.withMem_x, memRead_congr (h _ (by split <;> simp)), View.withMem_cfg]

/-- The fragment and the trailer SPLIT_PIECE reads adjoin (R185). -/
theorem reportSplitPiece_congr {f l : Bool} :
    SameOnAll m v.mem (reportSplitPiece f l v).input → reportSplitPiece f l (v.withMem m) = reportSplitPiece f l v := by
  unfold reportSplitPiece
  refine Report.congr_behind_check fun hshort => Report.congr_behind_check fun _ => Report.congr_behind_check fun _ h => ?_
  have hsame : SameOn m v.mem ⟨v.x.body.toNat + splitHead f, v.x.blen.toNat - splitHead f - tailBytes l + tailBytes l⟩ := by
    refine h _ ?_
    split
    · simp
    · split <;> simp
  rw [View.withMem_x, View.withMem_cfg, memRead_congr (hsame.part (Nat.le_refl _) (by omega)),
    memRead_congr (hsame.part (by omega) (by omega))]

/-- The first row SCAN_FRAME reads is the first of its row loop (R182). -/
theorem reportScanFrame_congr :
    SameOnAll m v.mem (reportScanFrame v).input → reportScanFrame (v.withMem m) = reportScanFrame v := by
  unfold reportScanFrame
  refine Report.congr_behind_check fun _ => Report.congr_behind_check fun hrows => Report.congr_behind_check fun _ =>
    Report.congr_behind_check fun _ => Report.congr_behind_check fun _ => Report.congr_behind_check fun _ h => ?_
  have hsame : SameOn m v.mem ⟨v.x.src.toNat, 3 * v.x.width.toNat * v.x.pieceH.toNat⟩ := by
    refine h _ ?_
    split
    · simp
    · split <;> simp
  have hfirst : 3 * v.x.width.toNat ≤ 3 * v.x.width.toNat * v.x.pieceH.toNat :=
    Nat.le_mul_of_pos_right _ (Nat.pos_of_ne_zero hrows)
  rw [View.withMem_x, memRead_congr (hsame.part (Nat.le_refl _) (by omega)), frameRows_congr hsame]

/-- The whole rows of SCAN_UNFRAME are within its LEN bytes (R186). -/
theorem reportScanUnframe_congr :
    SameOnAll m v.mem (reportScanUnframe v).input → reportScanUnframe (v.withMem m) = reportScanUnframe v := by
  unfold reportScanUnframe
  refine Report.congr_behind_check fun _ => Report.congr_behind_check fun _ => Report.congr_behind_check fun _ =>
    Report.congr_behind_check fun _ => Report.congr_behind_check fun _ => Report.congr_behind_check fun _ h => ?_
  have hsame : SameOn m v.mem ⟨v.x.src.toNat, v.x.len.toNat⟩ := h _ (List.mem_singleton_self _)
  have hrows := hsame.part (Nat.le_refl _) (Nat.add_le_add_left (Nat.div_mul_le_self _ (3 * v.x.width.toNat + 1)) _)
  rw [View.withMem_x, View.withMem_mem, unframeOutput_congr hrows, unframeRows_congr hrows, hsame.bytes]

/-- Every command reports the same on two memories that hold the same bytes where it reads (R246); those that read nothing do
not look at memory. -/
theorem reportOf_congr {i : Instr} (h : SameOnAll m v.mem (reportOf i v).input) : reportOf i (v.withMem m) = reportOf i v := by
  cases i with
  | magicChk => exact reportMagicChk_congr h
  | chunkPut => exact reportChunkPut_congr h
  | chunkGet => exact reportChunkGet_congr h
  | ihdrGet => exact reportIhdrGet_congr h
  | hdrScan => exact reportHdrScan_congr h
  | dataGet => exact reportDataGet_congr h
  | scanFrame => exact reportScanFrame_congr h
  | mergePiece f l => exact reportMergePiece_congr h
  | splitPiece f l => exact reportSplitPiece_congr h
  | scanUnframe => exact reportScanUnframe_congr h
  | nop | magicPut | ihdrPut | descPut | bandCfg | cmbInit | cmbLoad | cmbFold | cmbPair | adlInit | adlFold | trlChk => rfl

/-- The registers after a completion depend on the report, not on memory itself. -/
theorem conclude_regs_congr (s : State) (m : Memory) (r : Report) :
    ({ s with mem := m }.conclude r).regs = (s.conclude r).regs := by
  cases hr : r.result with
  | error e => rw [conclude_error _ r hr, conclude_error _ r hr]; rfl
  | ok c => rw [conclude_regs _ r hr, conclude_regs _ r hr]

/-- Settles O58: the two runs conclude the same report. -/
theorem resultDependsOnBytesRead : Obligations.ResultDependsOnBytesRead := by
  intro i s t u m hsame ht hu
  have hreport : reportOf i { s with mem := m }.view = reportOf i s.view := reportOf_congr hsame
  rw [exec_eq, Host.Outcome.next.injEq] at ht hu
  subst ht hu
  rw [hreport]
  exact ⟨conclude_regs_congr s m _, rfl⟩

end Sys2Proof.Machine
end

-- ==== Proofs: errors that leave memory as it was ====
section
/-! Two kinds of error with no byte written: a word that does not decode (R267), and a read refused before the first write
(R272). -/

namespace Sys2Proof.Machine

/-! ### Illegal words -/

/-- The completion of an illegal word is an error with nothing written, its detail by the way decoding failed (R267). -/
theorem complete_illegal_eq_failed {s : State} {l : Latch} {d : DecodeError} (hl : s.latch = some l)
    (hd : decode l.word = .error d) :
    complete s = .next (s.failed 6 (errDetail (.illegal d)).toNat 0 l.word) := by
  rw [complete_of_illegal hl hd, takeError_empty]
  rfl

/-- Settles O7: each of the three schedules has the completion step next. -/
theorem illegalCommandRecorded : Obligations.IllegalCommandRecorded := by
  intro s l d hw hl hd code
  have hcode : code = (errDetail (.illegal d)).toNat := by cases d <;> rfl
  rw [hcode]
  refine ⟨fun hs => ?_, fun rest hs => ?_, fun rest hs hb => ?_⟩
  · rw [step_nil hw hs, complete_illegal_eq_failed hl hd]
  · rw [step_complete hw hs]
    exact complete_illegal_eq_failed (s := { s with sched := rest }) hl hd
  · rw [step_wait hw hs hb, complete_illegal_eq_failed hl hd]

/-! ### Refused reads -/

/-- Settles O43: each of the three commands stops at the refused read, before it reports an output. SPLIT_PIECE reads its
fragment and the trailer behind it as one range. -/
theorem refusedReadsKeepMemory : Obligations.RefusedReadsKeepMemory := by
  intro s x
  refine ⟨fun k hsrc hdst hk => ?_, fun f l j => ?_, fun f l j => ?_⟩
  · exact exec_stops (i := .chunkPut) (reportChunkPut_unreadable s.view hsrc hdst hk)
  · intro k hs ts hvalid hlen hsrc hdst hj
    have hacc : ¬ (l = true ∧ x.accValid = false) := not_and_or.2 (hvalid.imp ne_true_of_eq_false ne_false_of_eq_true)
    exact exec_stops (i := .mergePiece f l) (reportMergePiece_unreadable s.view hacc hlen hsrc hdst hj)
  · intro k hs ts hlen hbody hdst hj
    have hread : k - hs = k - hs - ts + ts := by omega
    rw [hread] at hj
    exact exec_stops (i := .splitPiece f l) (reportSplitPiece_unreadable s.view hlen hbody hdst hj)

end Sys2Proof.Machine
end

-- ==== Proofs: reset ====
section
/-! What reset leaves (R300 to R302): its registers, the invariant, and the one effect its two sources have on memory. -/

namespace Sys2Proof.Machine

variable {s : State} {v : Word} {rest : List Event} {l : Latch}

/-! ### The state after reset -/

/-- Settles O16: `readOffset` has a case for each register, and every other offset is reserved. -/
theorem resetRegisters : Obligations.ResetRegisters := by
  refine ⟨fun off => ?_, rfl, rfl⟩
  unfold readOffset
  split
  case h_30 => -- a reserved offset (R60)
    rw [if_neg ‹_›, if_neg ‹_›, if_neg ‹_›]
  all_goals rfl

/-- Settles O56: after reset the block is idle, so only the registers and the empty memory are in question. -/
theorem invariantAtReset : Obligations.InvariantAtReset :=
  .of_idle rfl rfl Memory.wf_reset canonical_one (.inl rfl) (fun _ => rfl) (by decide)

/-! ### The two sources -/

/-- The reset input resets the block, busy or not (R300). -/
theorem step_resetInput (hw : s.cfg.wellFormed = true) (hs : s.sched = .resetInput :: rest) :
    step s = .next ({ s with sched := rest }.resetBlock s.buffers.output) :=
  step_cons hw hs

/-- CTRL with bit 31 set is the same transition (R300, R302). -/
theorem step_ctrlReset (hw : s.cfg.wellFormed = true) (hs : s.sched = .regWrite (s.cfg.regBase + 0x08) .w32 v :: rest)
    (hv : v.getLsbD 31 = true) : step s = .next ({ s with sched := rest }.resetBlock s.buffers.output) := by
  rw [step_regWrite hw (by decide) (by decide) hs]
  exact congrArg Host.Outcome.next (writeCtrl_resets hv)

/-! ### Memory after a reset -/

/-- The operands of the command in flight are its snapshot (R61). -/
theorem operands_of_latch (hl : s.latch = some l) : s.operands = l.regs := by
  unfold State.operands; rw [hl]

/-- The buffers of the command in flight lie within its whole range at the snapshot's DST (R302). -/
theorem buffers_output_outside {i : Instr} {a : Nat} (hl : s.latch = some l) (hd : decode l.word = .ok i)
    (h : Outside l.regs.dst.toNat (outputSpan i l.regs) a) : Outside s.buffers.output.base s.buffers.output.len a := by
  rw [buffers_of_decode hl hd]
  exact reportOf_target_outside i s.view (by rwa [State.view_x, operands_of_latch hl])

/-- A command in flight with no output range leaves memory as it was (R302, log 6). -/
theorem resetBlock_mem_of_no_output {o : Range} (h : o = Range.empty) : (s.resetBlock o).mem = s.mem := by
  rw [h]; rfl

/-- Settles O17: both sources spoil the output range of the command in flight and nothing else of memory, so each clause asks
what that range is. -/
theorem resetSourcesAgree : Obligations.ResetSourcesAgree := by
  intro s v rest hw hv
  have hinput := step_resetInput (s := { s with sched := .resetInput :: rest }) hw rfl
  have hctrl := step_ctrlReset (s := { s with sched := .regWrite (s.cfg.regBase + 0x08) .w32 v :: rest }) hw rfl hv
  refine ⟨hinput.trans hctrl.symm, _, hinput, rfl, rfl, State.resetBlock_sched _ _, fun hl => ?_, fun l hl => ?_⟩
  · exact resetBlock_mem_of_no_output (congrArg Buffers.output (buffers_of_idle hl))
  · refine ⟨fun d hd => ?_, fun i a hd hout => ?_, fun a hd hsrc hdst hin => ?_⟩
    · exact resetBlock_mem_of_no_output (congrArg Buffers.output (buffers_of_illegal hl hd))
    · exact State.get_spoil_outside { s with sched := rest } s.buffers.output (buffers_output_outside hl hd hout)
    · refine State.get_spoil_inside { s with sched := rest } s.buffers.output ?_
      rwa [buffers_of_chunkPut hl hd hsrc hdst]

end Sys2Proof.Machine
end

-- ==== Proofs: HDR_SCAN issued again ====
section
/-! HDR_SCAN issued at a data chunk, and issued again where it stopped (R145, R314). -/

namespace Sys2Proof.Machine

/-- The registers after HDR_SCAN, issued by the word `w`, stops at the data chunk at SRC without skipping one (R145). -/
def Regs.stoppedAtData (r : Regs) (m : Memory) (w : Word) : Regs :=
  { r with
    cmd := w, done := true, busy := false, pieceH := if r.descSeen then r.pieceH else r.height, kind := .data, tag := tagData,
    blen := BitVec.ofNat 32 (chunkLen m r.src.toNat), body := BitVec.ofNat 32 (r.src.toNat + 8),
    crc := storedCrc m r.src.toNat, skipcnt := 0 }

/-- SRC and what decides PIECE_H stand, so stopping there again assigns the same. -/
theorem Regs.stoppedAtData_idem (r : Regs) (m : Memory) (w : Word) :
    (r.stoppedAtData m w).stoppedAtData m w = r.stoppedAtData m w := by
  unfold Regs.stoppedAtData
  cases r.descSeen <;> rfl

/-- HDR_SCAN issued and completed at a data chunk that it accepts. -/
theorem exec_hdrScan_accept_atData {s : State} (w : Word) (hw : s.cfg.wellFormed = true)
    (hgood : GoodChunk s.cfg s.mem s.regs.src.toNat s.regs.srcEnd.toNat) (htag : chunkTag s.mem s.regs.src.toNat = tagData)
    (hopt : s.regs.descSeen = true ∨ s.regs.descOpt = true) :
    exec .hdrScan (s.accept w) = .next { s with regs := s.regs.stoppedAtData s.mem w, latch := none } := by
  obtain ⟨hseen, hopted, -⟩ := hdrScanStopsAtData (s.accept w) 0 s.regs.src.toNat hw rfl hgood htag
  rw [ofNat_toNat_self] at hseen hopted
  unfold Regs.stoppedAtData
  by_cases hd : s.regs.descSeen = true
  · rw [if_pos hd]; exact hseen hd
  · rw [if_neg hd]; exact hopted (Bool.eq_false_of_not_eq_true hd) (hopt.resolve_left hd)

/-- Settles O35: the state where the scan stopped meets the same premises, and stopping there is idempotent. -/
theorem hdrScanIsIdempotentAtData : Obligations.HdrScanIsIdempotentAtData := by
  intro s t w hw hgood htag hopt ht
  rw [exec_hdrScan_accept_atData w hw hgood htag hopt, Host.Outcome.next.injEq] at ht
  subst ht
  have hagain := exec_hdrScan_accept_atData (s := { s with regs := s.regs.stoppedAtData s.mem w, latch := none })
    w hw hgood htag hopt
  rwa [Regs.stoppedAtData_idem] at hagain

end Sys2Proof.Machine
end
